-- ==== Sys2Proof/Word.lean ====
section
/-! DEFINITION. The word types of the BFRA block (spec 00_scope.md rules R4, R6, R7). -/

namespace Sys2Proof

/-- A device register's content, `BYTE_W = 8` bits (R4); bit 0 is the least significant (R6). -/
abbrev Byte := BitVec 8

/-- A RegisterAddress, `REG_W = 8` bits (R4, R30). -/
abbrev Addr := BitVec 8

/-- A 16-bit pattern: a sample pair, a DEC16 operand, a calibration register (`CAL_W = 16`, R11). -/
abbrev Half := BitVec 16

/-- A HEADING operand, `HOP_W = 24` bits, two's complement (R4, R190). -/
abbrev Op24 := BitVec 24

/-- A response lane, `LANE_W = 32` bits, two's complement (R4, R63). -/
abbrev Lane := BitVec 32

/-- A command word `cmd[63:0]` (R60). -/
abbrev Word := BitVec 64

end Sys2Proof
end

