-- ==== Sys2Proof/Config.lean ====
section
/-! DEFINITION. What is fixed for one BFRA block: the constants the source fixes and the record of the
parameters the spec leaves to a model (spec 00_scope.md rule R4), and the free values. -/

namespace Sys2Proof

/-- A BitField `{highBit, length}` (00_scope.md glossary; R100 says when it is valid). -/
structure BitField where
  highBit : Nat
  length : Nat
  deriving DecidableEq, Repr

namespace Config

/-! The register map, "fixed by the device and must match exactly" (R4, R19, R31). -/

def aConfigA : Addr := 0x00#8
def aConfigB : Addr := 0x01#8
def aMode : Addr := 0x02#8
def aXHigh : Addr := 0x03#8
def aXLow : Addr := 0x04#8
def aZHigh : Addr := 0x05#8
def aZLow : Addr := 0x06#8
def aYHigh : Addr := 0x07#8
def aYLow : Addr := 0x08#8
def aStatus : Addr := 0x09#8
def aIda : Addr := 0x0A#8
def aIdb : Addr := 0x0B#8
def aIdc : Addr := 0x0C#8

/-- `SCALE_NUM / SCALE_DEN` = 92 / 100: a scaled value counts hundredths, so only the numerator is
applied (R174). -/
def scaleNum : Int := 92
def scaleDen : Int := 100

/-- `WARMUP_TIME` = 0.7 time units, held as tenths of the source's unnamed unit (R135, R252). -/
def warmupTenths : Nat := 7

/-- `GAIN_DEFAULT`, the code of 1090 LSb/Gauss (R4). -/
def gainDefault : Byte := 0x01#8
/-- `RATE_DEFAULT`, the code of 15 Hz (R4). -/
def rateDefault : Byte := 0x04#8
/-- `AVG_DEFAULT`, the code of 8 samples (R4). -/
def avgDefault : Byte := 0x03#8

/-- The OPEN parameters of rule R4 (decisions D10, D11, D22, D30): the record a model quantifies over.
Its well-formedness is rule R5, `Params.wf` in WellFormed.lean.

`HEADING_AT_ORIGIN` (an angle in `[0, 2π)`, R189) is held by its two images, because no command shows
anything else of it: `originRad` by rule R187 and `originCdeg` by rule R188; that they are the images of one
angle is part of well-formedness (`Params.originOneAngle`). DESIGN CHOICE, log entry 5. -/
structure Params where
  fAvg : BitField
  fRate : BitField
  fBias : BitField
  fGain : BitField
  fMode : BitField
  fReady : BitField
  fLock : BitField
  biasNormal : Byte
  modeContinuous : Byte
  modeSingle : Byte
  modeIdle : Byte
  originRad : Nat
  originCdeg : Nat
  deriving DecidableEq, Repr

/-- The default record of rule R4. -/
def defaults : Params where
  fAvg := ⟨6, 2⟩
  fRate := ⟨4, 3⟩
  fBias := ⟨1, 2⟩
  fGain := ⟨7, 3⟩
  fMode := ⟨1, 2⟩
  fReady := ⟨0, 1⟩
  fLock := ⟨1, 1⟩
  biasNormal := 0x00#8
  modeContinuous := 0x00#8
  modeSingle := 0x01#8
  modeIdle := 0x02#8
  originRad := 0
  originCdeg := 0

/-- FREE VALUE: the byte the device answers to its `n`-th read of an address the source does not map
(`0x0D..0xFF`): "any byte (a fresh choice at each read)" (R43, U4). Log entry 4. -/
opaque freeByte : Nat → Byte

end Config

end Sys2Proof
end

