-- ==== Sys2Proof/Syntax.lean ====
section
/-! DEFINITION. The command set: one constructor per row of spec/opcode_table.json (30_encoding.md rules
R62, R68), and the assembler's pseudo-commands (R73). -/

namespace Sys2Proof

/-- The 25 commands. `hb` and `len` are the unsigned numbers of rule R62 (`0..255`; which pairs name a
field is rule R100); the signed operands (`imm16` of SETCALx, `a` and `b` of HEADING) are held as the
bit patterns of the command word and read as two's complement by the meanings, as the pseudocode does. -/
inductive Instr where
  | rdf (reg : Addr) (hb len : Nat)
  | wrf (reg : Addr) (hb len : Nat) (val : Byte)
  | wpack (reg : Addr) (b0 b1 b2 b3 : Byte)
  | dec16 (imm16 : Half)
  | init
  | setbias (val : Byte)
  | setrate (val : Byte)
  | setavg (val : Byte)
  | setgain (val : Byte)
  | setmode (val : Byte)
  | getbias
  | getrate
  | getavg
  | getgain
  | getmode
  | rdida
  | rdidb
  | rdidc
  | rdstat
  | setcalx (imm16 : Half)
  | setcaly (imm16 : Half)
  | setcalz (imm16 : Half)
  | rdaxes
  | heading (a b : Op24)
  | getvalues
  deriving DecidableEq, Repr

/-- The pseudo-commands of rule R73: "shorthands an assembler expands; the block never sees them". -/
inductive Pseudo where
  | setcal (x y z : Half)
  | rdid
  | setmodeCont
  | setmodeSingle
  | setmodeIdle
  | rdready
  | rdlock
  deriving DecidableEq, Repr

/-- The expansion column of rule R73. -/
def Pseudo.expand (p : Config.Params) : Pseudo → List Instr
  | .setcal x y z => [.setcalx x, .setcaly y, .setcalz z]
  | .rdid => [.rdida, .rdidb, .rdidc]
  | .setmodeCont => [.setmode p.modeContinuous]
  | .setmodeSingle => [.setmode p.modeSingle]
  | .setmodeIdle => [.setmode p.modeIdle]
  | .rdready => [.rdf Config.aStatus p.fReady.highBit p.fReady.length]
  | .rdlock => [.rdf Config.aStatus p.fLock.highBit p.fLock.length]

end Sys2Proof
end

