-- ==== Sys2Proof/Decode.lean ====
section
/-! DEFINITION. The command word's decoder and encoder (30_encoding.md rules R60 to R62, R68, R70), the
opcode map as data, and the assembler's text of a command (R72). -/

namespace Sys2Proof

/-- Why a word is no command (R70). -/
inductive Reject where
  /-- The opcode is not one of the 25 (R68). -/
  | unassignedOpcode (op : BitVec 8)
  /-- A bit is set in a field of the format that must be zero (R61). -/
  | nonzeroZeroField (op : BitVec 8)
  deriving DecidableEq, Repr

/-- A row of the opcode map: a word `w` is the row's command exactly when `w & mask = value` (R68; the
table calls the value `match`). -/
structure OpcodeRow where
  mnemonic : String
  value : Word
  mask : Word
  deriving DecidableEq, Repr

/-- The opcode map of rule R68. -/
def opcodeTable : List OpcodeRow :=
  [⟨"RDF", 0x1000000000000000#64, 0xFF000000FFFFFFFF#64⟩,
   ⟨"WRF", 0x1100000000000000#64, 0xFF00000000FFFFFF#64⟩,
   ⟨"WPACK", 0x1200000000000000#64, 0xFF0000000000FFFF#64⟩,
   ⟨"DEC16", 0x2000000000000000#64, 0xFFFFFFFFFFFF0000#64⟩,
   ⟨"INIT", 0x3000000000000000#64, 0xFFFFFFFFFFFFFFFF#64⟩] ++
  [⟨"SETBIAS", 0x4000000000000000#64, 0xFFFFFFFFFFFFFF00#64⟩,
   ⟨"SETRATE", 0x4100000000000000#64, 0xFFFFFFFFFFFFFF00#64⟩,
   ⟨"SETAVG", 0x4200000000000000#64, 0xFFFFFFFFFFFFFF00#64⟩,
   ⟨"SETGAIN", 0x4300000000000000#64, 0xFFFFFFFFFFFFFF00#64⟩,
   ⟨"SETMODE", 0x4400000000000000#64, 0xFFFFFFFFFFFFFF00#64⟩] ++
  [⟨"GETBIAS", 0x4800000000000000#64, 0xFFFFFFFFFFFFFFFF#64⟩,
   ⟨"GETRATE", 0x4900000000000000#64, 0xFFFFFFFFFFFFFFFF#64⟩,
   ⟨"GETAVG", 0x4A00000000000000#64, 0xFFFFFFFFFFFFFFFF#64⟩,
   ⟨"GETGAIN", 0x4B00000000000000#64, 0xFFFFFFFFFFFFFFFF#64⟩,
   ⟨"GETMODE", 0x4C00000000000000#64, 0xFFFFFFFFFFFFFFFF#64⟩] ++
  [⟨"RDIDA", 0x5000000000000000#64, 0xFFFFFFFFFFFFFFFF#64⟩,
   ⟨"RDIDB", 0x5100000000000000#64, 0xFFFFFFFFFFFFFFFF#64⟩,
   ⟨"RDIDC", 0x5200000000000000#64, 0xFFFFFFFFFFFFFFFF#64⟩,
   ⟨"RDSTAT", 0x5300000000000000#64, 0xFFFFFFFFFFFFFFFF#64⟩,
   ⟨"SETCALX", 0x5800000000000000#64, 0xFFFFFFFFFFFF0000#64⟩,
   ⟨"SETCALY", 0x5900000000000000#64, 0xFFFFFFFFFFFF0000#64⟩,
   ⟨"SETCALZ", 0x5A00000000000000#64, 0xFFFFFFFFFFFF0000#64⟩] ++
  [⟨"RDAXES", 0x6000000000000000#64, 0xFFFFFFFFFFFFFFFF#64⟩,
   ⟨"HEADING", 0x7000000000000000#64, 0xFFFF000000000000#64⟩,
   ⟨"GETVALUES", 0x7100000000000000#64, 0xFFFFFFFFFFFFFFFF#64⟩]

/-- The row's name of a command. -/
def Instr.mnemonic : Instr → String
  | .rdf _ _ _ => "RDF"
  | .wrf _ _ _ _ => "WRF"
  | .wpack _ _ _ _ _ => "WPACK"
  | .dec16 _ => "DEC16"
  | .init => "INIT"
  | .setbias _ => "SETBIAS"
  | .setrate _ => "SETRATE"
  | .setavg _ => "SETAVG"
  | .setgain _ => "SETGAIN"
  | .setmode _ => "SETMODE"
  | .getbias => "GETBIAS"
  | .getrate => "GETRATE"
  | .getavg => "GETAVG"
  | .getgain => "GETGAIN"
  | .getmode => "GETMODE"
  | .rdida => "RDIDA"
  | .rdidb => "RDIDB"
  | .rdidc => "RDIDC"
  | .rdstat => "RDSTAT"
  | .setcalx _ => "SETCALX"
  | .setcaly _ => "SETCALY"
  | .setcalz _ => "SETCALZ"
  | .rdaxes => "RDAXES"
  | .heading _ _ => "HEADING"
  | .getvalues => "GETVALUES"

/-- `cmd[63:56]` (R60). -/
def opcodeOf (w : Word) : BitVec 8 := w.extractLsb' 56 8

/-- A byte field of the word whose low bit is bit `lo`. -/
def byteField (lo : Nat) (w : Word) : BitVec 8 := w.extractLsb' lo 8

/-- The command, if the word's low `n` bits (counted from bit `lo`) are all zero as its format asks
(R61); the rejection names the opcode. -/
def needZero (lo n : Nat) (w : Word) (i : Instr) : Except Reject Instr :=
  if w.extractLsb' lo n = 0 then .ok i else .error (.nonzeroZeroField (opcodeOf w))

/-- The decoder, total on all 64-bit words: the opcode alone selects the command (R68), every zero field
of its format must be zero (R61), and any other word is rejected by name (R70). -/
def decode (w : Word) : Except Reject Instr :=
  match (opcodeOf w).toNat with
  | 0x10 => needZero 0 32 w (.rdf (byteField 48 w) (byteField 40 w).toNat (byteField 32 w).toNat)
  | 0x11 =>
    needZero 0 24 w (.wrf (byteField 48 w) (byteField 40 w).toNat (byteField 32 w).toNat (byteField 24 w))
  | 0x12 =>
    needZero 0 16 w
      (.wpack (byteField 48 w) (byteField 40 w) (byteField 32 w) (byteField 24 w) (byteField 16 w))
  | 0x20 => needZero 16 40 w (.dec16 (w.extractLsb' 0 16))
  | 0x30 => needZero 0 56 w .init
  | 0x40 => needZero 8 48 w (.setbias (byteField 0 w))
  | 0x41 => needZero 8 48 w (.setrate (byteField 0 w))
  | 0x42 => needZero 8 48 w (.setavg (byteField 0 w))
  | 0x43 => needZero 8 48 w (.setgain (byteField 0 w))
  | 0x44 => needZero 8 48 w (.setmode (byteField 0 w))
  | 0x48 => needZero 0 56 w .getbias
  | 0x49 => needZero 0 56 w .getrate
  | 0x4A => needZero 0 56 w .getavg
  | 0x4B => needZero 0 56 w .getgain
  | 0x4C => needZero 0 56 w .getmode
  | 0x50 => needZero 0 56 w .rdida
  | 0x51 => needZero 0 56 w .rdidb
  | 0x52 => needZero 0 56 w .rdidc
  | 0x53 => needZero 0 56 w .rdstat
  | 0x58 => needZero 16 40 w (.setcalx (w.extractLsb' 0 16))
  | 0x59 => needZero 16 40 w (.setcaly (w.extractLsb' 0 16))
  | 0x5A => needZero 16 40 w (.setcalz (w.extractLsb' 0 16))
  | 0x60 => needZero 0 56 w .rdaxes
  | 0x70 => needZero 48 8 w (.heading (w.extractLsb' 24 24) (w.extractLsb' 0 24))
  | 0x71 => needZero 0 56 w .getvalues
  | _ => .error (.unassignedOpcode (opcodeOf w))

/-! ### The encoder, from the formats of rule R60 -/

/-- Format N. -/
def formatN (op : BitVec 8) : Word := op ++ 0#56

/-- Format F. -/
def formatF (op : BitVec 8) (reg : Addr) (hb len : Nat) (val : Byte) : Word :=
  op ++ reg ++ BitVec.ofNat 8 hb ++ BitVec.ofNat 8 len ++ val ++ 0#24

/-- Format P. -/
def formatP (op : BitVec 8) (reg : Addr) (b0 b1 b2 b3 : Byte) : Word :=
  op ++ reg ++ b0 ++ b1 ++ b2 ++ b3 ++ 0#16

/-- Format V8. -/
def formatV8 (op : BitVec 8) (val : Byte) : Word := op ++ 0#48 ++ val

/-- Format V16. -/
def formatV16 (op : BitVec 8) (imm16 : Half) : Word := op ++ 0#40 ++ imm16

/-- Format H. -/
def formatH (op : BitVec 8) (a b : Op24) : Word := op ++ 0#8 ++ a ++ b

/-- The command word of a well-formed command (R60, R68); RDF's `val` bits are zero (R61). -/
def encode : Instr → Word
  | .rdf reg hb len => formatF 0x10#8 reg hb len 0#8
  | .wrf reg hb len val => formatF 0x11#8 reg hb len val
  | .wpack reg b0 b1 b2 b3 => formatP 0x12#8 reg b0 b1 b2 b3
  | .dec16 imm16 => formatV16 0x20#8 imm16
  | .init => formatN 0x30#8
  | .setbias val => formatV8 0x40#8 val
  | .setrate val => formatV8 0x41#8 val
  | .setavg val => formatV8 0x42#8 val
  | .setgain val => formatV8 0x43#8 val
  | .setmode val => formatV8 0x44#8 val
  | .getbias => formatN 0x48#8
  | .getrate => formatN 0x49#8
  | .getavg => formatN 0x4A#8
  | .getgain => formatN 0x4B#8
  | .getmode => formatN 0x4C#8
  | .rdida => formatN 0x50#8
  | .rdidb => formatN 0x51#8
  | .rdidc => formatN 0x52#8
  | .rdstat => formatN 0x53#8
  | .setcalx imm16 => formatV16 0x58#8 imm16
  | .setcaly imm16 => formatV16 0x59#8 imm16
  | .setcalz imm16 => formatV16 0x5A#8 imm16
  | .rdaxes => formatN 0x60#8
  | .heading a b => formatH 0x70#8 a b
  | .getvalues => formatN 0x71#8

/-- The host's entry to the decoder: the command whose word is `w`, numbered as the opcode table numbers
it (bit 63 down to bit 0 of one 64-bit word, R60). A row of `nbits` bits has no bit above them. -/
def decodeTableWord (nbits w : Nat) : Option Instr :=
  if w < 2 ^ nbits ∧ w < 2 ^ 64 then (decode (BitVec.ofNat 64 w)).toOption else none

/-! ### Assembler text (R72) -/

/-- An operand list, separated by commas. -/
def asmOperands : List String → String
  | [] => ""
  | [x] => " " ++ x
  | x :: y :: r => " " ++ x ++ "," ++ asmOperands (y :: r)

/-- A command's assembler text: its mnemonic, then its operands in the order of the format's fields,
separated by commas, in decimal; signed operands may carry a minus sign (R72). Log entry 21. -/
def Instr.asm (i : Instr) : String :=
  i.mnemonic ++ asmOperands (match i with
    | .rdf reg hb len => [toString reg.toNat, toString hb, toString len]
    | .wrf reg hb len val => [toString reg.toNat, toString hb, toString len, toString val.toNat]
    | .wpack reg b0 b1 b2 b3 => ([reg, b0, b1, b2, b3].map fun b => toString b.toNat)
    | .dec16 imm16 => [toString imm16.toNat]
    | .init => []
    | .setbias val => [toString val.toNat]
    | .setrate val => [toString val.toNat]
    | .setavg val => [toString val.toNat]
    | .setgain val => [toString val.toNat]
    | .setmode val => [toString val.toNat]
    | .getbias => []
    | .getrate => []
    | .getavg => []
    | .getgain => []
    | .getmode => []
    | .rdida => []
    | .rdidb => []
    | .rdidc => []
    | .rdstat => []
    | .setcalx imm16 => [toString imm16.toInt]
    | .setcaly imm16 => [toString imm16.toInt]
    | .setcalz imm16 => [toString imm16.toInt]
    | .rdaxes => []
    | .heading a b => [toString a.toInt, toString b.toInt]
    | .getvalues => [])

end Sys2Proof
end

