-- ==== Sys2Proof/Machine/State.lean ====
section
/-! DEFINITION. The state of the BFRA machine (10_state.md): the block's own registers and sequencer, its
ports (what the host will issue, the response returned, the transactions presented to the transport), the
device's registers behind the transport and the environment's choices; all of it plain data. -/

namespace Sys2Proof.Machine

/-! ### The host's side -/

/-- What the host does next at the command port: it issues a command word (R15, R60) or resets the block
(R240 to R242). The host waits for each response before the next (R8, D2). Log entry 2. -/
inductive HostInput where
  | command (w : Word)
  | reset
  deriving DecidableEq, Repr

/-- The status of a response (R64). -/
inductive Status where
  | ok
  | transportError
  | configurationError
  | illegalCommand
  deriving DecidableEq, Repr

/-- The eight lanes `q0..q7`; a lane a command does not assign is 0 (R63, R66). -/
structure Lanes where
  q0 : Lane := 0#32
  q1 : Lane := 0#32
  q2 : Lane := 0#32
  q3 : Lane := 0#32
  q4 : Lane := 0#32
  q5 : Lane := 0#32
  q6 : Lane := 0#32
  q7 : Lane := 0#32
  deriving DecidableEq, Repr

/-- A response (R63); `inited` is the flag at the moment the command ended (R65). -/
structure Response where
  status : Status
  inited : Bool
  lanes : Lanes
  deriving DecidableEq, Repr

/-! ### The transport's side -/

/-- One event at the transport port: a read with the byte answered (`none`: reported failed, R32), a
write with whether it completed (R33), and INIT's wait in tenths of a time unit (R252). -/
inductive Event where
  | read (a : Addr) (answer : Option Byte)
  | write (a : Addr) (v : Byte) (completed : Bool)
  | wait (tenths : Nat)
  deriving DecidableEq, Repr

/-- One action of the environment agents of rule R8 on the device. -/
inductive EnvAct where
  /-- The sensor replaces a data or status byte (R41). -/
  | sensor (a : Addr) (v : Byte)
  /-- Another master writes a register (R42). -/
  | masterWrite (a : Addr) (v : Byte)
  /-- Another master reads a register: no effect (R42, R48). -/
  | masterRead (a : Addr)
  /-- The device's own power-on reset: the operating mode becomes SingleMeasurement and every other bit
  of the configuration registers any value, here the given bytes' (R40, R243). Log entry 13. -/
  | deviceReset (configA configB mode : Byte)
  deriving DecidableEq, Repr

/-- What the environment chooses for one transaction of the block (R25, R34, R49): what the sensor and
the other masters do just before it, whether the transport reports it failed, and the byte a read
returns if the choice is not left to RefDevice (the open transport of R49, and R43's unmapped reads).
DESIGN CHOICE, log entries 1 and 10. -/
structure Moment where
  acts : List EnvAct
  fail : Bool
  data : Option Byte
  deriving DecidableEq, Repr

/-- The device's registers as a sparse byte memory keyed by register address, in the canonical form
`Memory.wf` (Ops.lean): addresses strictly rising, no entry equal to what an unlisted address reads as. -/
abbrev Memory := List Host.Cell

/-! ### The sequencer -/

/-- A command in flight (R15, R17): the command, `seq` (the index of its next transaction) and the bytes
its reads have returned so far, in the order read. DESIGN CHOICE, log entry 16. -/
structure InFlight where
  cmd : Instr
  seq : BitVec 3
  temps : List Byte
  deriving DecidableEq, Repr

/-- The state of the machine. -/
structure State where
  /-- Calibration register `CALX`, two's complement (R10, R11). -/
  calX : Half
  /-- Calibration register `CALY`. -/
  calY : Half
  /-- Calibration register `CALZ`. -/
  calZ : Half
  /-- The `inited` flag (R14). -/
  inited : Bool
  /-- The sequencer: `busy` is whether a command is in flight; the command, `seq` and the temporaries
  exist only then (R15, R17). -/
  inflight : Option InFlight
  /-- The last response returned to the host (R63); `none` before the first, and while one is due. Log
  entry 8. -/
  rsp : Option Response
  /-- The transport events of the latest command, oldest first (the model's own record of the port, log
  entry 8). -/
  trace : List Event
  /-- What the host will do, in order (R25: an input, not the block's state). -/
  host : List HostInput
  /-- The device's registers (R19, R40: the environment's state, not the block's). -/
  dev : Memory
  /-- The environment's choices, one for each transaction to come (R25); when the list is used up the
  environment is quiet. Log entry 1. -/
  env : List Moment
  /-- How many free bytes (`Config.freeByte`) have been drawn (the model's own counter, log entry 4). -/
  draws : Nat
  /-- The configuration record of rule R4; no step changes it. Log entry 5. -/
  cfg : Config.Params
  deriving DecidableEq, Repr

/-- The faults of the machine: NONE. Nothing in the spec stops the block: every failure is a response
with a status (R210, R214, R218), which is a next state. Safe: a type with no constructor stops nothing. DEDUCED, log entry 15. -/
inductive Fault where
  deriving DecidableEq, Repr

/-- The refusals of the machine. -/
inductive Refusal where
  /-- Raised by an arm of `exec` that has no meaning yet (none in this model). Safe: the model stops. -/
  | notModelled (mnemonic : String)
  /-- Raised by `exec` on a state with a command in flight: "While `busy = 1` the block accepts no other
  command" (R15), and a second command then has no meaning (U13: `refuse`). Safe: the model stops; `step`
  never raises it, since it goes on with the command in flight. Log entry 14. -/
  | commandInFlight
  /-- Raised by `resetBlock` on a state with a command in flight: such a reset has no meaning (R242, U11:
  `refuse`). Safe: the model stops; `step` never raises it, since it applies a reset only when idle. Log
  entry 14. -/
  | resetInFlight
  deriving DecidableEq, Repr

namespace State

/-- `busy` (R15). -/
def busy (s : State) : Bool := s.inflight.isSome

/-- `seq` (R15, R16); 0 when no command is in flight. -/
def seq (s : State) : BitVec 3 :=
  match s.inflight with
  | none => 0#3
  | some f => f.seq

/-- The in-flight temporaries (R17); none when no command is in flight. -/
def temps (s : State) : List Byte :=
  match s.inflight with
  | none => []
  | some f => f.temps

/-- The machine right after reset: the block as rule R240 says, the device with nothing listed (what its
registers then read as is `Memory.unlisted`, log entry 3), nothing issued by the host and a quiet
environment. -/
def reset : State where
  calX := 0#16
  calY := 0#16
  calZ := 0#16
  inited := false
  inflight := none
  rsp := none
  trace := []
  host := []
  dev := []
  env := []
  draws := 0
  cfg := Config.defaults

end State

end Sys2Proof.Machine
end

