-- ==== Sys2Proof/Machine/Flags.lean ====
section
/-! DEFINITION. The flags of the block. It has no condition codes and no sticky error bits (R18): a
command's outcome is in its response only. This file holds the status codes and the response's bits
(R63, R64) and the writes of the one flag the block has, `inited` (R14). -/

namespace Sys2Proof.Machine

/-- Rule R64. -/
def Status.code : Status → BitVec 2
  | .ok => 0#2
  | .transportError => 1#2
  | .configurationError => 2#2
  | .illegalCommand => 3#2

/-- `rsp[258:0]` (R63): `inited` in bit 258, `status` in bits 257:256, lane `qi` in bits 32i+31:32i. -/
def Response.bits (r : Response) : BitVec 259 :=
  BitVec.ofBool r.inited ++ r.status.code ++ r.lanes.q7 ++ r.lanes.q6 ++ r.lanes.q5 ++ r.lanes.q4 ++
    r.lanes.q3 ++ r.lanes.q2 ++ r.lanes.q1 ++ r.lanes.q0

/-- `inited <- 0`: the start of INIT (R131). -/
def State.clearInited (s : State) : State := { s with inited := false }

/-- `inited <- 1`: the end of a successful INIT (R131). -/
def State.setInited (s : State) : State := { s with inited := true }

end Sys2Proof.Machine
end

