-- ==== Sys2Proof/Machine/Operands.lean ====
section
/-! DEFINITION. The operand forms and the pure arithmetic of the commands: fields of a register byte
(40_bitfield_accessor.md), the packed byte, the signed-16 decoder (41), the sample function (43), the
device's address classes (20_memory.md) and the operating mode's names (10_state.md R23). -/

namespace Sys2Proof.Machine

/-! ### Fields of a register byte -/

/-- Rule R100: `hb <= 7` and `len >= 1` and `hb - len + 1 >= 0`. -/
def validField (hb len : Nat) : Bool := decide (hb ≤ 7) && decide (1 ≤ len) && decide (len ≤ hb + 1)

/-- Rule R101: `sh(hb, len) = hb - len + 1`, for a valid pair. -/
def fieldShift (hb len : Nat) : Nat := hb + 1 - len

/-- Rule R101: `mask(hb, len) = ((1 << len) - 1) << sh(hb, len)`. -/
def fieldMask (hb len : Nat) : Byte := BitVec.ofNat 8 (((1 <<< len) - 1) <<< fieldShift hb len)

/-- Rule R102: `(byte & mask) >> sh`. -/
def readField (hb len : Nat) (byte : Byte) : Byte := (byte &&& fieldMask hb len) >>> fieldShift hb len

/-- Rule R104: `(old & (~m & 0xFF)) | ((val << sh) & m)`. -/
def mergeField (hb len : Nat) (old val : Byte) : Byte :=
  (old &&& ~~~(fieldMask hb len)) ||| ((val <<< fieldShift hb len) &&& fieldMask hb len)

/-- Rule R107, the source's formula taken literally: `trunc_8((b0 << 6) | (b1 << 4) | (b2 << 2) | b3)`,
operands not masked to two bits. -/
def packByte (b0 b1 b2 b3 : Byte) : Byte :=
  BitVec.ofNat 8 ((b0.toNat <<< 6) ||| (b1.toNat <<< 4) ||| (b2.toNat <<< 2) ||| b3.toNat)

/-- A code placed in a field of a zero byte: one summand of rule R5 item 4. -/
def codeImage (f : BitField) (code : Byte) : Byte := code <<< fieldShift f.highBit f.length

/-- `INIT_CFGA` (rule R5 item 4, R132): the image of the three default codes in their fields. -/
def initCfgA (p : Config.Params) : Byte :=
  codeImage p.fAvg Config.avgDefault ||| codeImage p.fRate Config.rateDefault |||
    codeImage p.fBias p.biasNormal

/-! ### The signed-16 decoder and the sample function -/

/-- Rule R120: `if raw >= 32768 then -(65536 - raw) else raw`. -/
def decode16 (raw : Half) : Int :=
  if 32768 ≤ raw.toNat then -(65536 - (raw.toNat : Int)) else (raw.toNat : Int)

/-- Rule R44: a pair is joined big-endian, `(high << 8) | low`. -/
def joinPair (high low : Byte) : Half := high ++ low

/-- The AxisTriple and ScaledAxisTriple of one sample (R171, R176). -/
structure Axes where
  x : Int
  y : Int
  z : Int
  sx : Int
  sy : Int
  sz : Int
  deriving DecidableEq, Repr

/-- The sample function of rule R171. The SECOND pair is Z and the THIRD pair is Y (R170); sums are
exact (R173) and scaled values are hundredths (R174). -/
def axes (d0 d1 d2 d3 d4 d5 : Byte) (cx cy cz : Int) : Axes :=
  let x := decode16 (joinPair d0 d1) + cx
  let z := decode16 (joinPair d2 d3) + cz
  let y := decode16 (joinPair d4 d5) + cy
  { x := x, y := y, z := z,
    sx := x * Config.scaleNum, sy := y * Config.scaleNum, sz := z * Config.scaleNum }

/-- A lane holds its value sign-extended to 32 bits (R66). -/
def lane (v : Int) : Lane := BitVec.ofInt 32 v

/-- An unsigned result (a field value, a byte) in a lane (R66). -/
def laneOfByte (b : Byte) : Lane := b.setWidth 32

/-! ### The device's address classes -/

/-- The thirteen registers the source maps, `0x00..0x0C` (R19, R31). -/
def mapped (a : Addr) : Bool := decide (a.toNat ≤ 0x0C)

/-- The configuration registers, `0x00..0x02`, which store what is written (R40). -/
def storesWrites (a : Addr) : Bool := decide (a.toNat ≤ 0x02)

/-- The data and status registers, `0x03..0x09`, which the sensor drives (R41). -/
def sensorDriven (a : Addr) : Bool := decide (0x03 ≤ a.toNat) && decide (a.toNat ≤ 0x09)

/-- The identification registers, `0x0A..0x0C`, constants of the device (R41). -/
def identification (a : Addr) : Bool := decide (0x0A ≤ a.toNat) && decide (a.toNat ≤ 0x0C)

/-! ### The device's operating mode -/

/-- The states of rule R23. -/
inductive OperatingMode where
  | idle
  | singleMeasurement
  | continuous
  deriving DecidableEq, Repr

/-- The state a mode code names (R23). A code that names none has no mode meaning (U6): `none`. Log entry
18. -/
def modeOfCode (p : Config.Params) (code : Byte) : Option OperatingMode :=
  if code = p.modeContinuous then some .continuous
  else if code = p.modeSingle then some .singleMeasurement
  else if code = p.modeIdle then some .idle
  else none

/-- The operating mode that a Mode register byte stands for (R23). -/
def operatingMode (p : Config.Params) (modeReg : Byte) : Option OperatingMode :=
  modeOfCode p (readField p.fMode.highBit p.fMode.length modeReg)

end Sys2Proof.Machine
end

