-- ==== Sys2Proof/Machine/Ops.lean ====
section
/-! DEFINITION. The named operations: the device's memory, the environment's moments, the transport's two
transactions and the wait, accepting a command, responding and FAILING (the spec's counterpart of taking
an exception, R214), running a command's transaction list, and reset. -/

namespace Sys2Proof.Machine

/-! ### The device's memory -/

/-- What a register reads as before anything has written it. The source gives one value, the operating
mode SingleMeasurement (R243); the others are the HMC5883L's power-on and identification bytes the spec
lists for information (G8, G9). PRESUMED, log entry 3. -/
def Memory.unlisted (a : Nat) : Byte :=
  match a with
  | 0x00 => 0x10#8
  | 0x01 => 0x20#8
  | 0x02 => 0x01#8
  | 0x0A => 0x48#8
  | 0x0B => 0x34#8
  | 0x0C => 0x33#8
  | _ => 0x00#8

/-- The byte a register holds. -/
def Memory.read : Memory → Nat → Byte
  | [], a => Memory.unlisted a
  | (k, b) :: m, a => if a = k then b else Memory.read m a

/-- A memory with one more entry in front, unless the entry says what an unlisted address reads as. -/
def Memory.cons (a : Nat) (v : Byte) (m : Memory) : Memory :=
  if v = Memory.unlisted a then m else (a, v) :: m

/-- Store a byte, keeping the canonical form. -/
def Memory.write : Memory → Nat → Byte → Memory
  | [], a, v => Memory.cons a v []
  | (k, b) :: m, a, v =>
    if a < k then Memory.cons a v ((k, b) :: m)
    else if a = k then Memory.cons a v m
    else (k, b) :: Memory.write m a v

/-- The canonical form: addresses strictly rising, no entry equal to what an unlisted address reads as. -/
def Memory.wf : Memory → Bool
  | [] => true
  | (k, b) :: m => decide (b ≠ Memory.unlisted k) && m.all (fun c => decide (k < c.1)) && Memory.wf m

/-! ### The environment -/

/-- A moment in which no agent acts, the transport does not fail and RefDevice answers. -/
def Moment.quiet : Moment := ⟨[], false, none⟩

/-- What a completed write of `v` to register `a` does to the device (R40, R41, R43): only the
configuration registers keep it. Log entry 11. -/
def devStore (a : Addr) (v : Byte) (d : Memory) : Memory :=
  if storesWrites a then Memory.write d a.toNat v else d

/-- One environment action on the device. -/
def applyAct (p : Config.Params) (d : Memory) : EnvAct → Memory
  | .sensor a v => if sensorDriven a then Memory.write d a.toNat v else d
  | .masterWrite a v => devStore a v d
  | .masterRead _ => d
  | .deviceReset configA configB mode =>
    devStore Config.aMode (mergeField p.fMode.highBit p.fMode.length mode p.modeSingle)
      (devStore Config.aConfigB configB (devStore Config.aConfigA configA d))

/-- The environment's actions of one moment, in order. -/
def applyActs (p : Config.Params) (acts : List EnvAct) (d : Memory) : Memory :=
  acts.foldl (applyAct p) d

namespace State

/-- The environment's choice for the next transaction; quiet when no choice is listed. -/
def nextMoment (s : State) : Moment := s.env.headD Moment.quiet

/-- The state when the agents have acted and the moment is used up (R42: "Between any two transactions"). -/
def afterMoment (s : State) : State :=
  { s with env := s.env.tail, dev := applyActs s.cfg s.nextMoment.acts s.dev }

/-- Whether the next read of `a` draws a free byte: it does not fail, the environment lists no byte and
the source does not map `a` (R43). -/
def drawsFree (s : State) (a : Addr) : Bool :=
  !s.nextMoment.fail && s.nextMoment.data.isNone && !mapped a

/-- The transport's answer to a read of `a` at the next moment: `none` when it reports failure (R32,
R34); otherwise the environment's byte (R49), else the byte the register holds (R40, R41), else, at an
unmapped address, a free value (R43). -/
def answer (s : State) (a : Addr) : Option Byte :=
  if s.nextMoment.fail then none
  else some (s.nextMoment.data.getD
    (if mapped a then Memory.read s.afterMoment.dev a.toNat else Config.freeByte s.draws))

/-- Add an event to the port's record. -/
def log (e : Event) (s : State) : State := { s with trace := s.trace ++ [e] }

/-- A completed transaction: `seq` increases by 1 (R16) and a read's byte is kept (R17). -/
def advance (got : List Byte) (s : State) : State :=
  { s with inflight := s.inflight.map fun f => { f with seq := f.seq + 1#3, temps := f.temps ++ got } }

end State

/-! ### Transactions (R32, R33) and the wait (R252) -/

/-- `MemRead(a, 1)`: whether it completed, and the state after it. -/
def memRead (a : Addr) (s : State) : Bool × State :=
  let draws := if s.drawsFree a then s.draws + 1 else s.draws
  match s.answer a with
  | none => (false, { s.afterMoment with draws := draws }.log (.read a none))
  | some b => (true, ({ s.afterMoment with draws := draws }.log (.read a (some b))).advance [b])

/-- `MemWrite(a, 1, v)`: whether it completed, and the state after it. A failed write has no effect on
the device (R47). Log entry 9. -/
def memWrite (a : Addr) (v : Byte) (s : State) : Bool × State :=
  if s.nextMoment.fail then (false, s.afterMoment.log (.write a v false))
  else
    (true, ({ s.afterMoment with dev := devStore a v s.afterMoment.dev }.log (.write a v true)).advance [])

/-- `Wait(t)`: no transaction, so the moment's failure and byte play no part; the environment agents may
act (R252). Log entry 12. -/
def waitFor (tenths : Nat) (s : State) : State := s.afterMoment.log (.wait tenths)

/-- One entry of a command's transaction list. A write's byte is computed from the bytes read so far. -/
inductive Micro where
  | read (a : Addr)
  | write (a : Addr) (v : List Byte → Byte)
  | wait (tenths : Nat)

/-- Perform one entry. -/
def Micro.perform (m : Micro) (s : State) : Bool × State :=
  match m with
  | .read a => memRead a s
  | .write a v => memWrite a (v s.temps) s
  | .wait t => (true, waitFor t s)

/-- Perform a list in order, stopping at the first failure (R36, R211). -/
def runMicros : List Micro → State → Bool × State
  | [], s => (true, s)
  | m :: ms, s =>
    match m.perform s with
    | (false, s') => (false, s')
    | (true, s') => runMicros ms s'

/-! ### Accepting a command, responding, failing -/

namespace State

/-- Accept a command (R15, R16): busy, `seq = 0`, no temporaries; no response until it ends. -/
def accept (i : Instr) (s : State) : State :=
  { s with inflight := some ⟨i, 0#3, []⟩, rsp := none, trace := [] }

/-- The command ends: the block is idle and returns its response with the current `inited` (R63, R65). -/
def respond (st : Status) (ls : Lanes) (s : State) : State :=
  { s with inflight := none, rsp := some ⟨st, s.inited, ls⟩ }

/-- THE FAILED RESPONSE, the one operation that stands where other machines take an exception (R214):
`busy <- 0`, the status is the failure's code, `inited` its current value, all eight lanes 0; nothing is
saved, masked or transferred. There is no return from it beside it, because there is nothing to return
from (R218): the next command runs by its own rule. -/
def failWith (st : Status) (s : State) : State := s.respond st {}

/-- An illegal command word ends at once: no transaction, no state change, status `IllegalCommand`, all
lanes 0 (R70, R213). -/
def illegalWord (s : State) : State := { s with trace := [] }.failWith .illegalCommand

/-- No command is offered: the block waits (R240); the environment may act (R42). Log entry 7. -/
def waitForHost (s : State) : State := s.afterMoment

end State

/-! ### A command as its transaction list -/

/-- A command rule as data: whether its operands are valid (R100), its effect before the first
transaction, its transaction list, its effect when all have completed, and its lanes (from the bytes
read and the state). -/
structure Plan where
  valid : Bool := true
  start : State → State := id
  micros : List Micro := []
  finish : State → State := id
  lanes : List Byte → State → Lanes := fun _ _ => {}

/-- Run a plan from the transaction the sequencer has reached to its end: `ConfigurationError` before any
transaction (R215), `TransportError` at the first failing one (R211), else the response `OK`. -/
def Plan.run (p : Plan) (s : State) : State :=
  if p.valid then
    match runMicros (p.micros.drop s.seq.toNat) s with
    | (false, s') => s'.failWith .transportError
    | (true, s') => (p.finish s').respond .ok (p.lanes s'.temps s')
  else s.failWith .configurationError

/-- Issue a command: the block accepts it only when idle (R15) and runs it to its end. -/
def issue (i : Instr) (p : Plan) (s : State) : Host.Outcome State Fault Refusal :=
  if s.busy then .refused .commandInFlight else .next (p.run (p.start (s.accept i)))

/-! ### Reset -/

/-- Reset of the block (R240, R241): only the block's own state; no transaction, no device register
changes; without meaning while a command is in flight (R242). Log entries 14 and 17. -/
def resetBlock (s : State) : Host.Outcome State Fault Refusal :=
  if s.busy then .refused .resetInFlight
  else .next { s with calX := 0#16, calY := 0#16, calZ := 0#16, inited := false, rsp := none, trace := [] }

end Sys2Proof.Machine
end

