-- ==== Sys2Proof/Machine/Decoder16.lean ====
section
/-! DEFINITION. The signed-16 decoder: DEC16 (41_signed16_decoder.md). -/

namespace Sys2Proof.Machine

/-- DEC16 `imm16` (R120): no transaction, no state. -/
def dec16Plan (imm16 : Half) : Plan := { lanes := fun _ _ => { q0 := lane (decode16 imm16) } }
def execDec16 (imm16 : Half) (s : State) : Host.Outcome State Fault Refusal :=
  issue (.dec16 imm16) (dec16Plan imm16) s

end Sys2Proof.Machine
end

