-- ==== Sys2Proof/Machine/Accessor.lean ====
section
/-! DEFINITION. The bit-field register accessor: RDF, WRF, WPACK (40_bitfield_accessor.md). -/

namespace Sys2Proof.Machine

/-- One read of a field (R102): the list and the lanes shared by RDF and the getters (R141). -/
def readFieldPlan (reg : Addr) (hb len : Nat) : Plan :=
  { valid := validField hb len,
    micros := [.read reg],
    lanes := fun t _ => { q0 := laneOfByte (readField hb len (t.getD 0 0#8)) } }

/-- One read-modify-write of a field (R104): the list shared by WRF and the setters (R140). The device
receives only the finished byte (R105). -/
def writeFieldPlan (reg : Addr) (hb len : Nat) (val : Byte) : Plan :=
  { valid := validField hb len,
    micros := [.read reg, .write reg fun t => mergeField hb len (t.getD 0 0#8) val] }

/-- RDF `reg, hb, len` (R102). -/
def rdfPlan (reg : Addr) (hb len : Nat) : Plan := readFieldPlan reg hb len
def execRdf (reg : Addr) (hb len : Nat) (s : State) : Host.Outcome State Fault Refusal :=
  issue (.rdf reg hb len) (rdfPlan reg hb len) s

/-- WRF `reg, hb, len, val` (R104). -/
def wrfPlan (reg : Addr) (hb len : Nat) (val : Byte) : Plan := writeFieldPlan reg hb len val
def execWrf (reg : Addr) (hb len : Nat) (val : Byte) (s : State) : Host.Outcome State Fault Refusal :=
  issue (.wrf reg hb len val) (wrfPlan reg hb len val) s

/-- WPACK `reg, b0, b1, b2, b3` (R107): one write, no read. -/
def wpackPlan (reg : Addr) (b0 b1 b2 b3 : Byte) : Plan :=
  { micros := [.write reg fun _ => packByte b0 b1 b2 b3] }
def execWpack (reg : Addr) (b0 b1 b2 b3 : Byte) (s : State) : Host.Outcome State Fault Refusal :=
  issue (.wpack reg b0 b1 b2 b3) (wpackPlan reg b0 b1 b2 b3) s

end Sys2Proof.Machine
end

