-- ==== Sys2Proof/Machine/DriverConfig.lean ====
section
/-! DEFINITION. The driver's configuration commands: INIT, the setters, the getters, the identification
and status reads and the calibration setters (42_driver_config.md). -/

namespace Sys2Proof.Machine

/-! ### INIT (R131) -/

/-- INIT: `inited <- 0`; ConfigA is overwritten in one write (R132); the WRF sequences on the gain (R133)
and on the operating mode (R134); the warm-up wait (R135); `inited <- 1`. -/
def initPlan (p : Config.Params) : Plan :=
  { start := State.clearInited,
    micros :=
      [.write Config.aConfigA fun _ => initCfgA p,
       .read Config.aConfigB,
       .write Config.aConfigB fun t =>
         mergeField p.fGain.highBit p.fGain.length (t.getD 0 0#8) Config.gainDefault,
       .read Config.aMode,
       .write Config.aMode fun t =>
         mergeField p.fMode.highBit p.fMode.length (t.getD 1 0#8) p.modeContinuous,
       .wait Config.warmupTenths],
    finish := State.setInited }
def execInit (s : State) : Host.Outcome State Fault Refusal := issue .init (initPlan s.cfg) s

/-! ### Setters (R140, R142 to R146): the WRF sequence on the item's register and field (R130) -/

/-- SETBIAS `val` (R142). -/
def setbiasPlan (p : Config.Params) (val : Byte) : Plan :=
  writeFieldPlan Config.aConfigA p.fBias.highBit p.fBias.length val
def execSetbias (val : Byte) (s : State) : Host.Outcome State Fault Refusal :=
  issue (.setbias val) (setbiasPlan s.cfg val) s

/-- SETRATE `val` (R143). -/
def setratePlan (p : Config.Params) (val : Byte) : Plan :=
  writeFieldPlan Config.aConfigA p.fRate.highBit p.fRate.length val
def execSetrate (val : Byte) (s : State) : Host.Outcome State Fault Refusal :=
  issue (.setrate val) (setratePlan s.cfg val) s

/-- SETAVG `val` (R144). -/
def setavgPlan (p : Config.Params) (val : Byte) : Plan :=
  writeFieldPlan Config.aConfigA p.fAvg.highBit p.fAvg.length val
def execSetavg (val : Byte) (s : State) : Host.Outcome State Fault Refusal :=
  issue (.setavg val) (setavgPlan s.cfg val) s

/-- SETGAIN `val` (R145). -/
def setgainPlan (p : Config.Params) (val : Byte) : Plan :=
  writeFieldPlan Config.aConfigB p.fGain.highBit p.fGain.length val
def execSetgain (val : Byte) (s : State) : Host.Outcome State Fault Refusal :=
  issue (.setgain val) (setgainPlan s.cfg val) s

/-- SETMODE `val` (R146). -/
def setmodePlan (p : Config.Params) (val : Byte) : Plan :=
  writeFieldPlan Config.aMode p.fMode.highBit p.fMode.length val
def execSetmode (val : Byte) (s : State) : Host.Outcome State Fault Refusal :=
  issue (.setmode val) (setmodePlan s.cfg val) s

/-! ### Getters (R141, R147 to R151): one read, never a write -/

/-- GETBIAS (R147). -/
def getbiasPlan (p : Config.Params) : Plan := readFieldPlan Config.aConfigA p.fBias.highBit p.fBias.length
def execGetbias (s : State) : Host.Outcome State Fault Refusal := issue .getbias (getbiasPlan s.cfg) s

/-- GETRATE (R148). -/
def getratePlan (p : Config.Params) : Plan := readFieldPlan Config.aConfigA p.fRate.highBit p.fRate.length
def execGetrate (s : State) : Host.Outcome State Fault Refusal := issue .getrate (getratePlan s.cfg) s

/-- GETAVG (R149). -/
def getavgPlan (p : Config.Params) : Plan := readFieldPlan Config.aConfigA p.fAvg.highBit p.fAvg.length
def execGetavg (s : State) : Host.Outcome State Fault Refusal := issue .getavg (getavgPlan s.cfg) s

/-- GETGAIN (R150). -/
def getgainPlan (p : Config.Params) : Plan := readFieldPlan Config.aConfigB p.fGain.highBit p.fGain.length
def execGetgain (s : State) : Host.Outcome State Fault Refusal := issue .getgain (getgainPlan s.cfg) s

/-- GETMODE (R151). -/
def getmodePlan (p : Config.Params) : Plan := readFieldPlan Config.aMode p.fMode.highBit p.fMode.length
def execGetmode (s : State) : Host.Outcome State Fault Refusal := issue .getmode (getmodePlan s.cfg) s

/-! ### Identification and status reads (R155 to R158): the byte passed through -/

/-- One read whose byte is the result, with no masking and no comparison. -/
def passThroughPlan (reg : Addr) : Plan :=
  { micros := [.read reg], lanes := fun t _ => { q0 := laneOfByte (t.getD 0 0#8) } }

/-- RDIDA (R155). -/
def rdidaPlan : Plan := passThroughPlan Config.aIda
def execRdida (s : State) : Host.Outcome State Fault Refusal := issue .rdida rdidaPlan s

/-- RDIDB (R156). -/
def rdidbPlan : Plan := passThroughPlan Config.aIdb
def execRdidb (s : State) : Host.Outcome State Fault Refusal := issue .rdidb rdidbPlan s

/-- RDIDC (R157). -/
def rdidcPlan : Plan := passThroughPlan Config.aIdc
def execRdidc (s : State) : Host.Outcome State Fault Refusal := issue .rdidc rdidcPlan s

/-- RDSTAT (R158). -/
def rdstatPlan : Plan := passThroughPlan Config.aStatus
def execRdstat (s : State) : Host.Outcome State Fault Refusal := issue .rdstat rdstatPlan s

/-! ### Calibration setters (R160 to R162): no transaction -/

/-- SETCALX `imm16` (R160): `cal[X] <- signed_16(imm16)`; the register holds the pattern. -/
def setcalxPlan (imm16 : Half) : Plan := { finish := fun s => { s with calX := imm16 } }
def execSetcalx (imm16 : Half) (s : State) : Host.Outcome State Fault Refusal :=
  issue (.setcalx imm16) (setcalxPlan imm16) s

/-- SETCALY `imm16` (R161): `cal[Y] <- signed_16(imm16)`; the register holds the pattern. -/
def setcalyPlan (imm16 : Half) : Plan := { finish := fun s => { s with calY := imm16 } }
def execSetcaly (imm16 : Half) (s : State) : Host.Outcome State Fault Refusal :=
  issue (.setcaly imm16) (setcalyPlan imm16) s

/-- SETCALZ `imm16` (R162): `cal[Z] <- signed_16(imm16)`; the register holds the pattern. -/
def setcalzPlan (imm16 : Half) : Plan := { finish := fun s => { s with calZ := imm16 } }
def execSetcalz (imm16 : Half) (s : State) : Host.Outcome State Fault Refusal :=
  issue (.setcalz imm16) (setcalzPlan imm16) s

end Sys2Proof.Machine
end

