-- ==== Sys2Proof/Machine/AxisSampling.lean ====
section
/-! DEFINITION. The axis sample decoder and scaler: RDAXES (43_axis_sampling.md), and the burst and the
sample function that GETVALUES shares with it. -/

namespace Sys2Proof.Machine

/-- The six reads at `0x03..0x08`, in ascending order (R35, R170). -/
def burst : List Micro :=
  [.read Config.aXHigh, .read Config.aXLow, .read Config.aZHigh, .read Config.aZLow, .read Config.aYHigh,
   .read Config.aYLow]

/-- The sample of a burst with the block's offsets, each `signed_16` of its register (R11, R171). -/
def sampleOf (t : List Byte) (s : State) : Axes :=
  axes (t.getD 0 0#8) (t.getD 1 0#8) (t.getD 2 0#8) (t.getD 3 0#8) (t.getD 4 0#8) (t.getD 5 0#8)
    s.calX.toInt s.calY.toInt s.calZ.toInt

/-- The lanes of RDAXES (R67): raw then scaled, in the order x, y, z. -/
def axesLanes (v : Axes) : Lanes :=
  { q0 := lane v.x, q1 := lane v.y, q2 := lane v.z, q3 := lane v.sx, q4 := lane v.sy, q5 := lane v.sz }

/-- RDAXES (R172). -/
def rdaxesPlan : Plan := { micros := burst, lanes := fun t s => axesLanes (sampleOf t s) }
def execRdaxes (s : State) : Host.Outcome State Fault Refusal := issue .rdaxes rdaxesPlan s

end Sys2Proof.Machine
end

