-- ==== Sys2Proof/Machine/Heading.lean ====
section
/-! DEFINITION. The heading functions (44_heading.md rules R186 to R191) on exact rationals: the vector
is turned by multiples of 45° until its residual slope is at most 1/2, the residual's arctangent and π/4
are enclosed by alternating partial sums, and `rad_q` and `cdeg` are the floors the rules ask for. -/

namespace Sys2Proof.Machine

namespace Heading

/-- The tail of the arctangent series from its `j`-th term on, `n` terms, `w` the squared argument:
`1/(2j+1) - w·(1/(2j+3) - w·( .. ))`. -/
def arctanTail : Nat → Nat → ℚ → ℚ
  | 0, _, _ => 0
  | n + 1, j, w => 1 / ((2 * j + 1 : Nat) : ℚ) - w * arctanTail n (j + 1) w

/-- The first `n` terms of `arctan v = v - v³/3 + v⁵/5 - ..`. -/
def arctanSum (n : Nat) (v : ℚ) : ℚ := v * arctanTail n 0 (v * v)

/-- An even number of terms lies below `arctan v` (for `0 ≤ v ≤ 1`). -/
def arctanLo (v : ℚ) : ℚ := arctanSum 64 v

/-- An odd number of terms lies above `arctan v` (for `0 ≤ v ≤ 1`). -/
def arctanHi (v : ℚ) : ℚ := arctanSum 65 v

/-- Bounds of π/4 = arctan(1/2) + arctan(1/3). -/
def quarterLo : ℚ := arctanLo (1 / 2) + arctanLo (1 / 3)
def quarterHi : ℚ := arctanHi (1 / 2) + arctanHi (1 / 3)

/-- A direction as `k` turns of 45° and a residual vector of slope at most 1/2 in size. -/
structure Octant where
  k : Nat
  a : Int
  b : Int
  deriving DecidableEq, Repr

/-- Whether the vector left after `k` turns is the residual: it points right, its slope is at most 1/2 in
size, and with no turn made it does not point below the axis (so that the angle is not negative, R186). -/
def isResidual (k : Nat) (a b : Int) : Bool :=
  decide (0 < a) && decide (2 * (b.natAbs : Int) ≤ a) && (decide (k ≠ 0) || decide (0 ≤ b))

/-- Turn the vector back by 45° (and stretch it by √2) until it is a residual: `(a, b) ↦ (a + b, b - a)`. -/
def findOctant : Nat → Nat → Int → Int → Octant
  | 0, k, a, b => ⟨k, a, b⟩
  | n + 1, k, a, b => if isResidual k a b then ⟨k, a, b⟩ else findOctant n (k + 1) (a + b) (b - a)

/-- The octant of a vector other than `(0, 0)`. -/
def octant (a b : Int) : Octant := findOctant 8 0 a b

/-- The residual's slope in size. -/
def Octant.slope (o : Octant) : ℚ := (o.b.natAbs : ℚ) / (o.a : ℚ)

/-- Bounds of the exact angle of the octant's direction, `k·π/4 ± arctan(slope)`, in radians. -/
def Octant.thetaLo (o : Octant) : ℚ :=
  if 0 ≤ o.b then o.k * quarterLo + arctanLo o.slope else o.k * quarterLo - arctanHi o.slope
def Octant.thetaHi (o : Octant) : ℚ :=
  if 0 ≤ o.b then o.k * quarterHi + arctanHi o.slope else o.k * quarterHi - arctanLo o.slope

/-- Bounds of the exact angle in hundredths of a degree: a turn is 4500 of them, exactly. -/
def Octant.centiLo (o : Octant) : ℚ :=
  if 0 ≤ o.b then 4500 * o.k + 4500 * (arctanLo o.slope / quarterHi)
  else 4500 * o.k - 4500 * (arctanHi o.slope / quarterLo)
def Octant.centiHi (o : Octant) : ℚ :=
  if 0 ≤ o.b then 4500 * o.k + 4500 * (arctanHi o.slope / quarterLo)
  else 4500 * o.k - 4500 * (arctanLo o.slope / quarterHi)

/-- `floor(θ · 2^16)` (R187) of a vector other than `(0, 0)`. -/
def radFloor (a b : Int) : Int := ⌊(octant a b).thetaLo * 65536⌋

/-- `floor(θ · 18000/π + 1/2)` (R188) of a vector other than `(0, 0)`. -/
def centiRound (a b : Int) : Int := ⌊(octant a b).centiLo + 1 / 2⌋

/-- Whether the enclosures settle both floors: then `radFloor` and `centiRound` are exactly the integers
of rules R187 and R188. UNVERIFIED in Lean, log entry 6: a search
outside Lean found it true of every operand pair. -/
def resolved (a b : Int) : Bool :=
  decide (⌊(octant a b).thetaHi * 65536⌋ = radFloor a b) &&
    decide (⌊(octant a b).centiHi + 1 / 2⌋ = centiRound a b)

end Heading

/-- `rad_q` of a pair (R187), with `HEADING_AT_ORIGIN` at `(0, 0)` (R189). -/
def headingRad (p : Config.Params) (a b : Int) : Int :=
  if a = 0 ∧ b = 0 then (p.originRad : Int) else Heading.radFloor a b

/-- `cdeg` of a pair (R188), with `HEADING_AT_ORIGIN` at `(0, 0)` (R189). -/
def headingCdeg (p : Config.Params) (a b : Int) : Int :=
  if a = 0 ∧ b = 0 then (p.originCdeg : Int) else Heading.centiRound a b

end Sys2Proof.Machine
end

