-- ==== Sys2Proof/Machine/HeadingCommands.lean ====
section
/-! DEFINITION. The commands of the heading pipeline: HEADING and GETVALUES (44_heading.md). -/

namespace Sys2Proof.Machine

/-- HEADING `a, b` (R190): `A <- signed_24(a); B <- signed_24(b)`; pure. -/
def headingPlan (p : Config.Params) (a b : Op24) : Plan :=
  { lanes := fun _ _ =>
      { q0 := lane (headingRad p a.toInt b.toInt), q1 := lane (headingCdeg p a.toInt b.toInt) } }
def execHeading (a b : Op24) (s : State) : Host.Outcome State Fault Refusal :=
  issue (.heading a b) (headingPlan s.cfg a b) s

/-- The lanes of GETVALUES (R67, R195): raw triple, raw heading, scaled triple, scaled heading. -/
def valuesLanes (p : Config.Params) (v : Axes) : Lanes :=
  { q0 := lane v.x, q1 := lane v.y, q2 := lane v.z, q3 := lane (headingCdeg p v.x v.y),
    q4 := lane v.sx, q5 := lane v.sy, q6 := lane v.sz, q7 := lane (headingCdeg p v.sx v.sy) }

/-- GETVALUES (R195): one burst serves the raw and the scaled values; z takes no part in a heading (R197). -/
def getvaluesPlan (p : Config.Params) : Plan :=
  { micros := burst, lanes := fun t s => valuesLanes p (sampleOf t s) }
def execGetvalues (s : State) : Host.Outcome State Fault Refusal := issue .getvalues (getvaluesPlan s.cfg) s

end Sys2Proof.Machine
end

