-- ==== Sys2Proof/Machine/Dispatch.lean ====
section
/-! DEFINITION. What each command does: one arm per constructor of Instr, one call of its meaning. -/

namespace Sys2Proof.Machine

def exec (i : Instr) (s : State) : Host.Outcome State Fault Refusal :=
  match i with
  | .rdf reg hb len => Sys2Proof.Machine.execRdf reg hb len s
  | .wrf reg hb len val => Sys2Proof.Machine.execWrf reg hb len val s
  | .wpack reg b0 b1 b2 b3 => Sys2Proof.Machine.execWpack reg b0 b1 b2 b3 s
  | .dec16 imm16 => Sys2Proof.Machine.execDec16 imm16 s
  | .init => Sys2Proof.Machine.execInit s
  | .setbias val => Sys2Proof.Machine.execSetbias val s
  | .setrate val => Sys2Proof.Machine.execSetrate val s
  | .setavg val => Sys2Proof.Machine.execSetavg val s
  | .setgain val => Sys2Proof.Machine.execSetgain val s
  | .setmode val => Sys2Proof.Machine.execSetmode val s
  | .getbias => Sys2Proof.Machine.execGetbias s
  | .getrate => Sys2Proof.Machine.execGetrate s
  | .getavg => Sys2Proof.Machine.execGetavg s
  | .getgain => Sys2Proof.Machine.execGetgain s
  | .getmode => Sys2Proof.Machine.execGetmode s
  | .rdida => Sys2Proof.Machine.execRdida s
  | .rdidb => Sys2Proof.Machine.execRdidb s
  | .rdidc => Sys2Proof.Machine.execRdidc s
  | .rdstat => Sys2Proof.Machine.execRdstat s
  | .setcalx imm16 => Sys2Proof.Machine.execSetcalx imm16 s
  | .setcaly imm16 => Sys2Proof.Machine.execSetcaly imm16 s
  | .setcalz imm16 => Sys2Proof.Machine.execSetcalz imm16 s
  | .rdaxes => Sys2Proof.Machine.execRdaxes s
  | .heading a b => Sys2Proof.Machine.execHeading a b s
  | .getvalues => Sys2Proof.Machine.execGetvalues s

end Sys2Proof.Machine
end

