-- ==== Sys2Proof/Machine/Sequencer.lean ====
section
/-! DEFINITION. What stands around a command: the plan of a command in flight (R15: it "always runs to its
end"), and how the block takes its next input from the host (R16: there is no fetch and no program
counter; the order of commands is the order in which the host issues them). -/

namespace Sys2Proof.Machine

/-- The rule of a command, as a plan. -/
def planOf (p : Config.Params) : Instr → Plan
  | .rdf reg hb len => rdfPlan reg hb len
  | .wrf reg hb len val => wrfPlan reg hb len val
  | .wpack reg b0 b1 b2 b3 => wpackPlan reg b0 b1 b2 b3
  | .dec16 imm16 => dec16Plan imm16
  | .init => initPlan p
  | .setbias val => setbiasPlan p val
  | .setrate val => setratePlan p val
  | .setavg val => setavgPlan p val
  | .setgain val => setgainPlan p val
  | .setmode val => setmodePlan p val
  | .getbias => getbiasPlan p
  | .getrate => getratePlan p
  | .getavg => getavgPlan p
  | .getgain => getgainPlan p
  | .getmode => getmodePlan p
  | .rdida => rdidaPlan
  | .rdidb => rdidbPlan
  | .rdidc => rdidcPlan
  | .rdstat => rdstatPlan
  | .setcalx imm16 => setcalxPlan imm16
  | .setcaly imm16 => setcalyPlan imm16
  | .setcalz imm16 => setcalzPlan imm16
  | .rdaxes => rdaxesPlan
  | .heading a b => headingPlan p a b
  | .getvalues => getvaluesPlan p

/-- Go on with the command in flight, from the transaction it has reached to its end (R15). -/
def resume (f : InFlight) (s : State) : State := (planOf s.cfg f.cmd).run s

/-- The host's first input is taken off its list. -/
def State.takeInput (s : State) : State := { s with host := s.host.tail }

/-- The state when the host has command word `w` to issue next and the block is idle to take it. -/
def State.offer (w : Word) (s : State) : State :=
  { s with inflight := none, host := .command w :: s.host }

end Sys2Proof.Machine
end

