-- ==== Sys2Proof/Machine/Step.lean ====
section
/-! DEFINITION. One step of the machine: the command in flight runs to its end; else the block waits for
the host, or takes its next input: a reset, an illegal word (R70), or a command, which runs whole
(DESIGN CHOICE, log entry 7). -/

namespace Sys2Proof.Machine

def step (s : State) : Host.Outcome State Fault Refusal :=
  match s.inflight with
  | some f => .next (resume f s)
  | none =>
    match s.host with
    | [] => .next s.waitForHost
    | .reset :: _ => resetBlock s.takeInput
    | .command w :: _ =>
      match decode w with
      | .error _ => .next s.takeInput.illegalWord
      | .ok i => exec i s.takeInput

/-- The state with the command word `w` (of `nbits` bits, the bits above them zero) where `step` takes
its next command: first in the host's list, with the block idle. Log entry 2. -/
def State.withFetchWord (s : State) (nbits w : Nat) : State :=
  s.offer (BitVec.ofNat 64 (w % 2 ^ nbits))

end Sys2Proof.Machine
end

