-- ==== Sys2Proof/WellFormed.lean ====
section
/-! DEFINITION. When a command's operands fit their fields of the command word (30_encoding.md rule R62)
and when a configuration record is well-formed (00_scope.md rule R5). -/

namespace Sys2Proof

/-- An operand written as a number fits its 8-bit field (R62: `0..255`). Operands held as bit vectors
have their width by their type. An invalid BitField IS a well-formed command (R71). -/
def Instr.wf : Instr → Bool
  | .rdf _ hb len => decide (hb < 256) && decide (len < 256)
  | .wrf _ hb len _ => decide (hb < 256) && decide (len < 256)
  | .wpack _ _ _ _ _ => true
  | .dec16 _ => true
  | .init => true
  | .setbias _ => true
  | .setrate _ => true
  | .setavg _ => true
  | .setgain _ => true
  | .setmode _ => true
  | .getbias => true
  | .getrate => true
  | .getavg => true
  | .getgain => true
  | .getmode => true
  | .rdida => true
  | .rdidb => true
  | .rdidc => true
  | .rdstat => true
  | .setcalx _ => true
  | .setcaly _ => true
  | .setcalz _ => true
  | .rdaxes => true
  | .heading _ _ => true
  | .getvalues => true

namespace BitField

/-- A valid BitField (R100). -/
def wf (f : BitField) : Bool := Machine.validField f.highBit f.length

/-- No bit of the register is in both fields (R5 item 2). -/
def disjoint (f g : BitField) : Bool :=
  Machine.fieldMask f.highBit f.length &&& Machine.fieldMask g.highBit g.length == 0#8

/-- `code < 2^length` (R5 item 3). -/
def fits (f : BitField) (code : Byte) : Bool := decide (code.toNat < 2 ^ f.length)

end BitField

namespace Config.Params

/-- Rule R5 item 1. -/
def fieldsValid (p : Params) : Bool :=
  p.fAvg.wf && p.fRate.wf && p.fBias.wf && p.fGain.wf && p.fMode.wf && p.fReady.wf && p.fLock.wf

/-- Rule R5 item 2. -/
def fieldsDisjoint (p : Params) : Bool :=
  p.fAvg.disjoint p.fRate && p.fAvg.disjoint p.fBias && p.fRate.disjoint p.fBias

/-- Rule R5 item 3. -/
def codesFit (p : Params) : Bool :=
  p.fAvg.fits avgDefault && p.fRate.fits rateDefault && p.fBias.fits p.biasNormal &&
  p.fGain.fits gainDefault && p.fMode.fits p.modeContinuous && p.fMode.fits p.modeSingle &&
  p.fMode.fits p.modeIdle && p.modeContinuous != p.modeSingle && p.modeContinuous != p.modeIdle &&
  p.modeSingle != p.modeIdle

/-- The two images of `HEADING_AT_ORIGIN` lie in the ranges of rules R187 and R188. -/
def originInRange (p : Params) : Bool := decide (p.originRad ≤ 411774) && decide (p.originCdeg ≤ 36000)

/-- The images are those of ONE angle (R4, R189): the angles `θ` with `floor(θ · 65536) = originRad` (R187)
and those with `floor(θ · 18000/π + 1/2) = originCdeg` (R188) have one in common. Each end of the one
interval is compared with the other's, π bounded by its first 21 digits, which decides every pair in range
(log entry 5). -/
def originOneAngle (p : Params) : Bool :=
  decide ((p.originRad : Int) * 36000 * 10 ^ 20 < (2 * p.originCdeg + 1) * 65536 * 314159265358979323846) &&
    decide ((2 * (p.originCdeg : Int) - 1) * 65536 * 314159265358979323847 <
      (p.originRad + 1) * 36000 * 10 ^ 20)

/-- Rule R5. Item 4 holds by the definition of `Machine.initCfgA`. -/
def wf (p : Params) : Bool :=
  p.fieldsValid && p.fieldsDisjoint && p.codesFit && p.originInRange && p.originOneAngle

end Config.Params

end Sys2Proof
end

