-- ==== Sys2Proof/Safety.lean ====
section
/-! DEFINITION. The terms claims use: what the environment will do, what a transaction will find, what a
command may write, the exact heading as a real number, when a sample may be trusted, and the invariant of
the states between commands. Nothing here is used by the machine. -/

namespace Sys2Proof.Machine

/-! ### The environment a claim speaks of -/

/-- An action that no other master's write and no device reset is: the sensor's, and another master's read. -/
def EnvAct.leavesConfiguration : EnvAct → Bool
  | .sensor _ _ => true
  | .masterWrite _ _ => false
  | .masterRead _ => true
  | .deviceReset _ _ _ => false

namespace State

/-- No command is in flight. -/
def Idle (s : State) : Prop := s.inflight = none

/-- The environment's choice for the `k`-th transaction from here on. -/
def moment (s : State) (k : Nat) : Moment := s.env.getD k Moment.quiet

/-- The transport reports none of the next `n` transactions failed. -/
def Answered (s : State) (n : Nat) : Prop := ∀ k, k < n → (s.moment k).fail = false

/-- Neither the sensor nor another master acts around the next `n` transactions. -/
def Alone (s : State) (n : Nat) : Prop := ∀ k, k < n → (s.moment k).acts = []

/-- No other master writes and the device is not reset around the next `n` transactions ("no other master
acts", R106, R137); the sensor may act. -/
def NoOtherWriter (s : State) (n : Nat) : Prop :=
  ∀ k, k < n → ∀ x ∈ (s.moment k).acts, x.leavesConfiguration = true

/-- RefDevice answers the next `n` transactions (R40 to R43), and none fails. -/
def OnRefDevice (s : State) (n : Nat) : Prop :=
  ∀ k, k < n → (s.moment k).fail = false ∧ (s.moment k).data = none

/-- RefDevice, no failure, no other writer for the next `n` transactions; the sensor may act. -/
def Undisturbed (s : State) (n : Nat) : Prop := s.OnRefDevice n ∧ s.NoOtherWriter n

/-- The device after the environment's actions of the next `n` moments, the block writing nothing. -/
def devAt (s : State) : Nat → Memory
  | 0 => s.dev
  | n + 1 => applyActs s.cfg (s.moment n).acts (s.devAt n)

/-- The byte the `k`-th transaction from here on finds as a read of `a`, if the block has written nothing
and drawn no free byte before it: the environment's byte, else the register's, else a free value. -/
def readByte (s : State) (k : Nat) (a : Addr) : Byte :=
  (s.moment k).data.getD
    (if mapped a then Memory.read (s.devAt (k + 1)) a.toNat else Config.freeByte s.draws)

/-- The block's registers, the configuration and the host's list are as before, and the block is idle. -/
def KeepsBlock (s t : State) : Prop :=
  t.calX = s.calX ∧ t.calY = s.calY ∧ t.calZ = s.calZ ∧ t.inited = s.inited ∧ t.inflight = none ∧
    t.cfg = s.cfg ∧ t.host = s.host

/-- Everything but the response, the port's record and the idle sequencer is as before: what a command
without transactions leaves. -/
def KeepsAll (s t : State) : Prop :=
  KeepsBlock s t ∧ t.dev = s.dev ∧ t.env = s.env ∧ t.draws = s.draws ∧ t.trace = []

end State

/-! ### What a step runs -/

namespace State

/-- The next step runs command `i`: the command in flight, else the word first in the host's list. -/
def Runs (s : State) (i : Instr) : Prop :=
  match s.inflight with
  | some f => f.cmd = i
  | none => ∃ w rest, s.host = .command w :: rest ∧ decode w = .ok i

/-- The next step resets the block. -/
def Resets (s : State) : Prop := s.inflight = none ∧ ∃ rest, s.host = .reset :: rest

end State

/-! ### The fixed field map (R130) -/

/-- The configuration items of rule R130. -/
inductive ConfigItem where
  | bias
  | rate
  | avg
  | gain
  | mode
  deriving DecidableEq, Repr

namespace ConfigItem

/-- The register column. -/
def reg : ConfigItem → Addr
  | .bias => Config.aConfigA
  | .rate => Config.aConfigA
  | .avg => Config.aConfigA
  | .gain => Config.aConfigB
  | .mode => Config.aMode

/-- The field column. -/
def field (p : Config.Params) : ConfigItem → BitField
  | .bias => p.fBias
  | .rate => p.fRate
  | .avg => p.fAvg
  | .gain => p.fGain
  | .mode => p.fMode

/-- The setter column. -/
def setter (val : Byte) : ConfigItem → Instr
  | .bias => .setbias val
  | .rate => .setrate val
  | .avg => .setavg val
  | .gain => .setgain val
  | .mode => .setmode val

/-- The getter column. -/
def getter : ConfigItem → Instr
  | .bias => .getbias
  | .rate => .getrate
  | .avg => .getavg
  | .gain => .getgain
  | .mode => .getmode

end ConfigItem

/-- The identification and status reads with their registers (R155 to R158). -/
def fixedReads : List (Instr × Addr) :=
  [(.rdida, Config.aIda), (.rdidb, Config.aIdb), (.rdidc, Config.aIdc), (.rdstat, Config.aStatus)]

/-- The addresses of the burst, in the order read (R170). -/
def burstAddrs : List Addr :=
  [Config.aXHigh, Config.aXLow, Config.aZHigh, Config.aZLow, Config.aYHigh, Config.aYLow]

/-! ### What a command may write -/

/-- An entry of a transaction list that is a transaction (R15): not the wait. -/
def Micro.isTransaction : Micro → Bool
  | .read _ => true
  | .write _ _ => true
  | .wait _ => false

/-- A write transaction. -/
def Event.isWrite : Event → Bool
  | .read _ _ => false
  | .write _ _ _ => true
  | .wait _ => false

/-- The event of the same transaction when the transport reports it failed. -/
def Event.failed : Event → Event
  | .read a _ => .read a none
  | .write a v _ => .write a v false
  | .wait t => .wait t

/-- The events of INIT's five transactions when all complete, with the bytes its two reads return (R131). -/
def initEvents (p : Config.Params) (g m : Byte) : List Event :=
  [.write Config.aConfigA (initCfgA p) true,
   .read Config.aConfigB (some g),
   .write Config.aConfigB (mergeField p.fGain.highBit p.fGain.length g Config.gainDefault) true,
   .read Config.aMode (some m),
   .write Config.aMode (mergeField p.fMode.highBit p.fMode.length m p.modeContinuous) true]

/-- The addresses a command's writes are aimed at, whatever the device does with them. -/
def writeAddrs : Instr → List Addr
  | .rdf _ _ _ => []
  | .wrf reg _ _ _ => [reg]
  | .wpack reg _ _ _ _ => [reg]
  | .dec16 _ => []
  | .init => [Config.aConfigA, Config.aConfigB, Config.aMode]
  | .setbias _ => [Config.aConfigA]
  | .setrate _ => [Config.aConfigA]
  | .setavg _ => [Config.aConfigA]
  | .setgain _ => [Config.aConfigB]
  | .setmode _ => [Config.aMode]
  | .getbias => []
  | .getrate => []
  | .getavg => []
  | .getgain => []
  | .getmode => []
  | .rdida => []
  | .rdidb => []
  | .rdidc => []
  | .rdstat => []
  | .setcalx _ => []
  | .setcaly _ => []
  | .setcalz _ => []
  | .rdaxes => []
  | .heading _ _ => []
  | .getvalues => []

/-- The device registers a command's writes can change: its write addresses at which the device keeps a
write (R40, R41). -/
def storedAddrs (i : Instr) : List Nat := ((writeAddrs i).filter storesWrites).map BitVec.toNat

/-- The commands that never issue a write: all but WRF, WPACK, INIT and the setters. -/
def readOnly (i : Instr) : Bool := (writeAddrs i).isEmpty

/-- The table of rule R221: the statuses a command can end with. -/
def statuses : Instr → List Status
  | .rdf _ hb len => if validField hb len then [.ok, .transportError] else [.configurationError]
  | .wrf _ hb len _ => if validField hb len then [.ok, .transportError] else [.configurationError]
  | .wpack _ _ _ _ _ => [.ok, .transportError]
  | .dec16 _ => [.ok]
  | .init => [.ok, .transportError]
  | .setbias _ => [.ok, .transportError]
  | .setrate _ => [.ok, .transportError]
  | .setavg _ => [.ok, .transportError]
  | .setgain _ => [.ok, .transportError]
  | .setmode _ => [.ok, .transportError]
  | .getbias => [.ok, .transportError]
  | .getrate => [.ok, .transportError]
  | .getavg => [.ok, .transportError]
  | .getgain => [.ok, .transportError]
  | .getmode => [.ok, .transportError]
  | .rdida => [.ok, .transportError]
  | .rdidb => [.ok, .transportError]
  | .rdidc => [.ok, .transportError]
  | .rdstat => [.ok, .transportError]
  | .setcalx _ => [.ok]
  | .setcaly _ => [.ok]
  | .setcalz _ => [.ok]
  | .rdaxes => [.ok, .transportError]
  | .heading _ _ => [.ok]
  | .getvalues => [.ok, .transportError]

/-! ### The exact heading (R186) -/

/-- `atan2(b, a)`: the real `φ` in `(-π, π]` with `a = r cos φ`, `b = r sin φ`, which is the argument of
the complex number `a + bi` (and 0 at the origin). -/
noncomputable def bearing (a b : Int) : ℝ := Complex.arg ⟨(a : ℝ), (b : ℝ)⟩

/-- `θ(a, b)` of rule R186, for a pair other than `(0, 0)`. -/
noncomputable def theta (a b : Int) : ℝ :=
  if bearing a b < 0 then bearing a b + 2 * Real.pi else bearing a b

/-! ### The invariant of the states between commands -/

/-- What every step keeps: no command in flight between steps (R218), the device's memory in canonical
form and listing only registers the source maps (R40, R41), a failed response without data (R66), no more
port events than the longest list has (R16), and a well-formed configuration record (R5). -/
structure Inv (s : State) : Prop where
  idle : s.inflight = none
  canonical : Memory.wf s.dev = true
  mappedOnly : ∀ c ∈ s.dev, c.1 ≤ 0x0C
  noData : ∀ r, s.rsp = some r → r.status ≠ .ok → r.lanes = {}
  bounded : s.trace.length ≤ 6
  configured : s.cfg.wf = true

/-! ### When a sample may be trusted (R245) -/

/-- The settings INIT leaves: ConfigA as INIT writes it, the default gain, Continuous mode. -/
def DefaultSettings (s : State) : Prop :=
  Memory.read s.dev Config.aConfigA.toNat = initCfgA s.cfg ∧
    readField s.cfg.fGain.highBit s.cfg.fGain.length (Memory.read s.dev Config.aConfigB.toNat) =
      Config.gainDefault ∧
    operatingMode s.cfg (Memory.read s.dev Config.aMode.toNat) = some .continuous

/-- The bytes of the three configuration registers. -/
def configuration (s : State) : Byte × Byte × Byte :=
  (Memory.read s.dev Config.aConfigA.toNat, Memory.read s.dev Config.aConfigB.toNat,
    Memory.read s.dev Config.aMode.toNat)

/-- The premise rule R245 puts on a sample, a property of a RUN, given by the states it has gone through,
the latest first: an INIT answered `OK`, no other master writing meanwhile; in no step since has a command
changed a configuration register, another master written one or the device been reset; and `inited` is
still 1. A state alone does not say it: of two runs that end in the same state, the one that has changed
the configuration and set it back is not trusted. DEDUCED, log entry 20. -/
inductive SampleTrusted : List State → Prop where
  | init {s t : State} {past : List State} (inv : Inv s) (begins : s.Runs .init)
      (run : step s = .next t) (ok : t.rsp.map Response.status = some .ok)
      (alone : s.NoOtherWriter 6) : SampleTrusted (t :: s :: past)
  | later {s t : State} {past : List State} {n : Nat} (trusted : SampleTrusted (s :: past))
      (run : step s = .next t) (used : t.env = s.env.drop n) (alone : s.NoOtherWriter n)
      (same : configuration t = configuration s) (inited : t.inited = true) :
      SampleTrusted (t :: s :: past)

end Sys2Proof.Machine
end

