-- ==== Sys2Proof/Certificates/Slice0/Obligations.lean ====
section
/-! DEFINITION. The statements about the BFRA machine, from the numbered rules of spec/. In all of them
`trace` is the record of the command's transactions at the port (the model's own, log entry 8) and `env`
the environment's moments still to come, of which each transaction and the wait uses one (log entry 1). -/

open Sys2Proof Sys2Proof.Machine

/-! ### Reset, the command port and the step -/

/-- R240: the reset value of every piece of block state, and after reset the block waits for the first
command (a step with nothing offered leaves the reset state). -/
def Obligations.ResetValuesAndFirstWait : Prop :=
  State.reset.calX = 0#16 ∧ State.reset.calY = 0#16 ∧ State.reset.calZ = 0#16 ∧
    State.reset.inited = false ∧ State.reset.busy = false ∧ State.reset.seq = 0#3 ∧
    State.reset.temps = [] ∧ step State.reset = .next State.reset

/-- R241, R242: a reset of the idle block clears the block's registers and touches nothing else: no
transaction, no device register; a reset with a command in flight has no meaning (the refusal is the
model's, log entry 14). -/
def Obligations.ResetTouchesOnlyTheBlock : Prop :=
  (∀ (s : State) (rest : List HostInput), s.Idle → s.host = .reset :: rest →
    ∃ t, step s = .next t ∧ t.calX = 0#16 ∧ t.calY = 0#16 ∧ t.calZ = 0#16 ∧ t.inited = false ∧
      t.busy = false ∧ t.seq = 0#3 ∧ t.trace = [] ∧ t.dev = s.dev ∧ t.env = s.env ∧ t.cfg = s.cfg ∧
      t.host = rest) ∧
  (∀ s : State, s.busy = true → resetBlock s = .refused .resetInFlight)

/-- A step of the idle block with a command word first in the host's list runs the decoded command,
the word taken off the list. -/
def Obligations.StepRunsTheDecodedCommand : Prop :=
  ∀ (s : State) (w : Word) (rest : List HostInput) (i : Instr),
    s.Idle → s.host = .command w :: rest → decode w = .ok i →
      step s = exec i { s with host := rest }

/-- R213: a word that is no row's command (it is not one of the 25 commands, or has a non-zero bit in a
zero field) ends at once with `IllegalCommand`: no transaction, no state change (not even `inited`), all
lanes 0. -/
def Obligations.IllegalWordChangesNothing : Prop :=
  ∀ (s : State) (w : Word) (rest : List HostInput),
    s.Idle → s.host = .command w :: rest → (∀ r ∈ opcodeTable, w &&& r.mask ≠ r.value) →
      step s = .next { s with
        host := rest, trace := [], rsp := some ⟨.illegalCommand, s.inited, {}⟩ }

/-- R15: with a command in flight no other command is accepted, and a step goes on with the command in
flight, takes nothing from the host and leaves the block idle. (That `exec` then refuses is U13's
`refuse`, log entry 14; that one step runs to the end is log entry 7.) -/
def Obligations.BusyBlockAcceptsNothing : Prop :=
  ∀ s : State, s.busy = true →
    (∀ i : Instr, exec i s = .refused .commandInFlight) ∧
    ∃ t, step s = .next t ∧ t.busy = false ∧ t.host = s.host

/-- R15, R16: a command in flight runs to its end. After `k` completed transactions of a command `seq` is
`k`, the block is busy and no response is due yet; and a step from there gives the very state that the
whole command gives. -/
def Obligations.InFlightCommandRunsToItsEnd : Prop :=
  ∀ (i : Instr) (s u : State) (k : Nat), s.Idle → (planOf s.cfg i).valid = true →
    k ≤ ((planOf s.cfg i).micros.filter Micro.isTransaction).length →
    runMicros ((planOf s.cfg i).micros.take k) ((planOf s.cfg i).start (s.accept i)) = (true, u) →
      u.busy = true ∧ u.seq.toNat = k ∧ u.temps.length ≤ k ∧ u.rsp = none ∧ exec i s = step u

/-- R63, R64: the response's bits: lane `qi` in bits 32i+31:32i, `status` in 257:256, `inited` in 258,
and the four status codes. -/
def Obligations.ResponseBitLayout : Prop :=
  (∀ r : Response,
    r.bits.extractLsb' 0 32 = r.lanes.q0 ∧ r.bits.extractLsb' 32 32 = r.lanes.q1 ∧
    r.bits.extractLsb' 64 32 = r.lanes.q2 ∧ r.bits.extractLsb' 96 32 = r.lanes.q3 ∧
    r.bits.extractLsb' 128 32 = r.lanes.q4 ∧ r.bits.extractLsb' 160 32 = r.lanes.q5 ∧
    r.bits.extractLsb' 192 32 = r.lanes.q6 ∧ r.bits.extractLsb' 224 32 = r.lanes.q7 ∧
    r.bits.extractLsb' 256 2 = r.status.code ∧ r.bits.getLsbD 258 = r.inited) ∧
  Status.ok.code = 0#2 ∧ Status.transportError.code = 1#2 ∧ Status.configurationError.code = 2#2 ∧
  Status.illegalCommand.code = 3#2

/-- No step stops: whatever the state, `step` answers a next state (R210, R218: every failure is a
response and the next command runs by its own rule; log entries 14 and 15). -/
def Obligations.EveryStepGoesOn : Prop := ∀ s : State, ∃ t, step s = .next t

/-! ### Encoding -/

/-- R68, R70: a word is the command of a row exactly when `w & mask = match`. -/
def Obligations.DecoderFollowsTheOpcodeMap : Prop :=
  ∀ (w : Word) (r : OpcodeRow), r ∈ opcodeTable →
    (w &&& r.mask = r.value ↔ ∃ i, decode w = .ok i ∧ i.mnemonic = r.mnemonic)

/-- Decoding the word of a well-formed command gives the command back, every operand at every value. -/
def Obligations.DecodeOfEncode : Prop :=
  ∀ i : Instr, i.wf = true → decode (encode i) = .ok i

/-- A word that decodes is the word of the command it decodes to, and that command is well-formed: each
command has one word. -/
def Obligations.EncodeOfDecode : Prop :=
  ∀ (w : Word) (i : Instr), decode w = .ok i → i.wf = true ∧ encode i = w

/-- The example words of rule R72's table decode to the commands beside them. -/
def Obligations.ExampleWordsDecode : Prop :=
  decode 0x1001070300000000#64 = .ok (.rdf 0x01#8 7 3) ∧
  decode 0x1101070301000000#64 = .ok (.wrf 0x01#8 7 3 0x01#8) ∧
  decode 0x1200010300000000#64 = .ok (.wpack 0x00#8 1#8 3#8 0#8 0#8) ∧
  decode 0x200000000000FFFF#64 = .ok (.dec16 0xFFFF#16) ∧
  decode 0x3000000000000000#64 = .ok .init ∧
  decode 0x4300000000000001#64 = .ok (.setgain 1#8) ∧
  decode 0x4C00000000000000#64 = .ok .getmode ∧
  decode 0x5300000000000000#64 = .ok .rdstat ∧
  decode 0x580000000000FFFD#64 = .ok (.setcalx (BitVec.ofInt 16 (-3))) ∧
  decode 0x6000000000000000#64 = .ok .rdaxes ∧
  decode 0x7000000000FFFFFF#64 = .ok (.heading 0#24 (BitVec.ofInt 24 (-1))) ∧
  decode 0x7100000000000000#64 = .ok .getvalues

/-! ### The transport and the device -/

/-- R32, R33, R40, R41, R43, R47: a transaction completes unless the transport reports it failed; a read
changes no register; a failed write changes none; a completed write changes no other register, has no
effect outside `0x00..0x02`, and is what a configuration register holds afterwards. -/
def Obligations.TransactionsOnTheDevice : Prop :=
  ∀ (s : State) (a : Addr) (v : Byte),
    ((memRead a s).1 = true ↔ s.nextMoment.fail = false) ∧
    (memRead a s).2.dev = s.afterMoment.dev ∧
    ((memWrite a v s).1 = true ↔ s.nextMoment.fail = false) ∧
    (s.nextMoment.fail = true → (memWrite a v s).2.dev = s.afterMoment.dev) ∧
    (∀ x, x ≠ a.toNat →
      Memory.read (memWrite a v s).2.dev x = Memory.read s.afterMoment.dev x) ∧
    (s.nextMoment.fail = false → 2 < a.toNat → (memWrite a v s).2.dev = s.afterMoment.dev) ∧
    (s.nextMoment.fail = false → a.toNat ≤ 2 → Memory.wf s.dev = true →
      Memory.read (memWrite a v s).2.dev a.toNat = v)

/-- R41, R42, R40, R243: the sensor changes only the data and status registers `0x03..0x09`, each to any
value; another master's write changes only a configuration register, and its read changes nothing; the
device's own power-on reset sets the mode field to `MODE_SINGLE`, leaves every other bit of the three
configuration registers free (here: the three given bytes), and changes no other register, so that with a
well-formed record the operating mode is SingleMeasurement (that the reset is an environment action is log
entry 13). -/
def Obligations.AgentsChangeOnlyTheirRegisters : Prop :=
  ∀ (p : Config.Params) (d : Memory) (a : Addr) (v configA configB mode : Byte) (x : Nat),
    Memory.wf d = true →
    (Memory.read (applyAct p d (.sensor a v)) x =
      if x = a.toNat ∧ 3 ≤ x ∧ x ≤ 9 then v else Memory.read d x) ∧
    (Memory.read (applyAct p d (.masterWrite a v)) x =
      if x = a.toNat ∧ x ≤ 2 then v else Memory.read d x) ∧
    applyAct p d (.masterRead a) = d ∧
    (Memory.read (applyAct p d (.deviceReset configA configB mode)) x =
      if x = 0 then configA
      else if x = 1 then configB
      else if x = 2 then
        (mode &&& ~~~(fieldMask p.fMode.highBit p.fMode.length)) |||
          ((p.modeSingle <<< fieldShift p.fMode.highBit p.fMode.length) &&&
            fieldMask p.fMode.highBit p.fMode.length)
      else Memory.read d x) ∧
    (p.wf = true →
      operatingMode p (Memory.read (applyAct p d (.deviceReset configA configB mode)) 0x02) =
        some .singleMeasurement)

/-- R41: the identification registers are constants: no step of the block and no agent changes them. -/
def Obligations.IdentificationBytesAreConstant : Prop :=
  ∀ (s t : State) (a : Addr), step s = .next t → identification a = true →
    Memory.read t.dev a.toNat = Memory.read s.dev a.toNat

/-! ### The accessor -/

/-- R101: the shift and the mask of a valid field, and the positions of the mask's one bits. -/
def Obligations.MaskHasExactlyTheFieldsBits : Prop :=
  ∀ hb len : Nat, validField hb len = true →
    fieldShift hb len ≤ 7 ∧ fieldShift hb len + len = hb + 1 ∧
    (fieldMask hb len).toNat = ((1 <<< len) - 1) <<< fieldShift hb len ∧
    1 ≤ (fieldMask hb len).toNat ∧
    ∀ i, i < 8 → ((fieldMask hb len).getLsbD i = true ↔ fieldShift hb len ≤ i ∧ i ≤ hb)

/-- R100, R215: an invalid field is rejected before any transaction, for RDF and WRF alike: the response
is `ConfigurationError` and nothing else changes. -/
def Obligations.InvalidFieldIsRejectedFirst : Prop :=
  ∀ (s : State) (reg : Addr) (hb len : Nat) (val : Byte), s.Idle →
    (7 < hb ∨ len = 0 ∨ hb + 1 < len) →
      exec (.rdf reg hb len) s =
        .next { s with trace := [], rsp := some ⟨.configurationError, s.inited, {}⟩ } ∧
      exec (.wrf reg hb len val) s =
        .next { s with trace := [], rsp := some ⟨.configurationError, s.inited, {}⟩ }

/-- R102: RDF. A valid field whose read is answered: one read, the field in `q0`; when the read fails:
`TransportError`, no data; an invalid field: `ConfigurationError` and no transaction. Nothing is written
and no block state changes. -/
def Obligations.RdfReadsTheField : Prop :=
  ∀ (s : State) (reg : Addr) (hb len : Nat), s.Idle →
    (hb ≤ 7 → 1 ≤ len → len ≤ hb + 1 → (s.moment 0).fail = false →
      ∃ t, exec (.rdf reg hb len) s = .next t ∧
        t.rsp = some ⟨.ok, s.inited,
          { q0 := BitVec.ofNat 32
              (((s.readByte 0 reg).toNat &&& (((1 <<< len) - 1) <<< (hb + 1 - len))) >>> (hb + 1 - len)) }⟩ ∧
        t.trace = [.read reg (some (s.readByte 0 reg))] ∧
        s.KeepsBlock t ∧ t.dev = s.devAt 1 ∧ t.env = s.env.drop 1) ∧
    (hb ≤ 7 → 1 ≤ len → len ≤ hb + 1 → (s.moment 0).fail = true →
      ∃ t, exec (.rdf reg hb len) s = .next t ∧
        t.rsp = some ⟨.transportError, s.inited, {}⟩ ∧ t.trace = [.read reg none] ∧
        s.KeepsBlock t ∧ t.dev = s.devAt 1 ∧ t.env = s.env.drop 1) ∧
    ((7 < hb ∨ len = 0 ∨ hb + 1 < len) →
      ∃ t, exec (.rdf reg hb len) s = .next t ∧
        t.rsp = some ⟨.configurationError, s.inited, {}⟩ ∧ s.KeepsAll t)

/-- R103: the result of a successful RDF is below `2^len` and depends on no bit outside the field. -/
def Obligations.RdfResultIsTheFieldAlone : Prop :=
  ∀ (hb len : Nat) (x y : Byte), validField hb len = true →
    (readField hb len x).toNat < 2 ^ len ∧
    ((∀ i, fieldShift hb len ≤ i → i ≤ hb → x.getLsbD i = y.getLsbD i) →
      readField hb len x = readField hb len y)

/-- R104: WRF of a valid field, both transactions answered: one read, one write of the merged byte, even
when it equals the old one; after what the environment did, a register in `0x00..0x02` then holds it, and
one above `0x02` keeps nothing of the write (R40, R41, R43, R109; log entry 11). -/
def Obligations.WrfMergesTheField : Prop :=
  ∀ (s : State) (reg : Addr) (hb len : Nat) (val : Byte), s.Idle → s.Answered 2 →
    hb ≤ 7 → 1 ≤ len → len ≤ hb + 1 →
      ∃ t new, exec (.wrf reg hb len val) s = .next t ∧
        new = (s.readByte 0 reg &&& ~~~(fieldMask hb len)) |||
          ((val <<< (hb + 1 - len)) &&& fieldMask hb len) ∧
        t.rsp = some ⟨.ok, s.inited, {}⟩ ∧
        t.trace = [.read reg (some (s.readByte 0 reg)), .write reg new true] ∧
        s.KeepsBlock t ∧ t.dev = devStore reg new (s.devAt 2) ∧ t.env = s.env.drop 2

/-- R104, R105, R216: a WRF whose read fails issues no write; one whose write fails leaves the device as
the environment alone leaves it; both answer `TransportError` without data. -/
def Obligations.WrfFailuresLeaveTheDevice : Prop :=
  ∀ (s : State) (reg : Addr) (hb len : Nat) (val : Byte), s.Idle → validField hb len = true →
    ((s.moment 0).fail = true →
      ∃ t, exec (.wrf reg hb len val) s = .next t ∧
        t.rsp = some ⟨.transportError, s.inited, {}⟩ ∧ t.trace = [.read reg none] ∧
        s.KeepsBlock t ∧ t.dev = s.devAt 1 ∧ t.env = s.env.drop 1) ∧
    ((s.moment 0).fail = false → (s.moment 1).fail = true →
      ∃ t, exec (.wrf reg hb len val) s = .next t ∧
        t.rsp = some ⟨.transportError, s.inited, {}⟩ ∧
        t.trace = [.read reg (some (s.readByte 0 reg)),
          .write reg (mergeField hb len (s.readByte 0 reg) val) false] ∧
        s.KeepsBlock t ∧ t.dev = s.devAt 2 ∧ t.env = s.env.drop 2)

/-- R106, the round-trip law: on RefDevice, no failure, no other master writing (the sensor may act), WRF
then RDF of the same field returns the truncated value, and every bit of the register outside the field is as before. -/
def Obligations.WrfThenRdfRoundTrip : Prop :=
  ∀ (s : State) (reg : Addr) (hb len : Nat) (v : Byte), s.Idle → Memory.wf s.dev = true →
    s.Undisturbed 3 → reg.toNat ≤ 2 → validField hb len = true →
      ∃ t u, exec (.wrf reg hb len v) s = .next t ∧ exec (.rdf reg hb len) t = .next u ∧
        u.rsp = some ⟨.ok, s.inited, { q0 := BitVec.ofNat 32 (v.toNat &&& ((1 <<< len) - 1)) }⟩ ∧
        Memory.read u.dev reg.toNat &&& ~~~(fieldMask hb len) =
          Memory.read s.dev reg.toNat &&& ~~~(fieldMask hb len)

/-- R107: WPACK whose write is answered: one write of the packed byte and no read; all eight bits of the
register; when the write fails, `TransportError` and no effect. (That a failed write has no effect is log
entry 9, R47; that a register above `0x02` keeps nothing of a write is log entry 11, R40, R41.) -/
def Obligations.WpackWritesThePackedByte : Prop :=
  ∀ (s : State) (reg : Addr) (b0 b1 b2 b3 : Byte), s.Idle →
    ∃ t byte, exec (.wpack reg b0 b1 b2 b3) s = .next t ∧
      byte = BitVec.ofNat 8
        ((b0.toNat <<< 6) ||| (b1.toNat <<< 4) ||| (b2.toNat <<< 2) ||| b3.toNat) ∧
      s.KeepsBlock t ∧ t.env = s.env.drop 1 ∧
      ((s.moment 0).fail = false →
        t.rsp = some ⟨.ok, s.inited, {}⟩ ∧ t.trace = [.write reg byte true] ∧
          t.dev = devStore reg byte (s.devAt 1)) ∧
      ((s.moment 0).fail = true →
        t.rsp = some ⟨.transportError, s.inited, {}⟩ ∧ t.trace = [.write reg byte false] ∧
          t.dev = s.devAt 1)

/-- R108: WPACK against field writes, on the register's byte: (1) operands in `0..3` against the four
2-bit field writes in any order; (2) three of the four writes leave the same byte exactly when the fourth
slot of the initial byte equals the fourth operand; (3) any three pairwise disjoint valid fields, with
values that fit, on a byte that is zero outside them. -/
def Obligations.WpackAgainstFieldWrites : Prop :=
  (∀ (old b0 b1 b2 b3 : Byte) (order : List (Nat × Byte)),
    b0.toNat < 4 → b1.toNat < 4 → b2.toNat < 4 → b3.toNat < 4 →
    order.Perm [(7, b0), (5, b1), (3, b2), (1, b3)] →
      order.foldl (fun o w => mergeField w.1 2 o w.2) old = packByte b0 b1 b2 b3) ∧
  (∀ (old b0 b1 b2 b3 : Byte) (left : Nat × Byte) (order : List (Nat × Byte)),
    b0.toNat < 4 → b1.toNat < 4 → b2.toNat < 4 → b3.toNat < 4 →
    (left :: order).Perm [(7, b0), (5, b1), (3, b2), (1, b3)] →
      (order.foldl (fun o w => mergeField w.1 2 o w.2) old = packByte b0 b1 b2 b3 ↔
        readField left.1 2 old = left.2)) ∧
  (∀ (old : Byte) (f1 f2 f3 : BitField) (v1 v2 v3 : Byte),
    f1.wf = true → f2.wf = true → f3.wf = true →
    f1.disjoint f2 = true → f1.disjoint f3 = true → f2.disjoint f3 = true →
    f1.fits v1 = true → f2.fits v2 = true → f3.fits v3 = true →
    old &&& ~~~(fieldMask f1.highBit f1.length ||| fieldMask f2.highBit f2.length |||
      fieldMask f3.highBit f3.length) = 0#8 →
      ∃ B, B = codeImage f1 v1 ||| codeImage f2 v2 ||| codeImage f3 v3 ∧
        packByte (readField 7 2 B) (readField 5 2 B) (readField 3 2 B) (readField 1 2 B) = B ∧
        mergeField f3.highBit f3.length (mergeField f2.highBit f2.length
          (mergeField f1.highBit f1.length old v1) v2) v3 = B)

/-! ### The signed-16 decoder -/

/-- R120: DEC16 answers `sext_32` of the decoded operand, for every operand and in every idle state, and
touches nothing. (That this is the sign extension of bit 15 is the spec's own inference in R121.) -/
def Obligations.Dec16SignExtends : Prop :=
  ∀ (s : State) (imm16 : Half), s.Idle →
    ∃ t, exec (.dec16 imm16) s = .next t ∧
      t.rsp = some ⟨.ok, s.inited,
        { q0 := BitVec.ofInt 32
            (if 32768 ≤ imm16.toNat then -(65536 - (imm16.toNat : Int)) else imm16.toNat) }⟩ ∧
      t.rsp = some ⟨.ok, s.inited,
        { q0 := BitVec.ofNat 16 (if imm16.getLsbD 15 then 0xFFFF else 0) ++ imm16 }⟩ ∧
      s.KeepsAll t

/-- R122: the range and the laws of `decode16`. -/
def Obligations.Decode16Laws : Prop :=
  (∀ u : Half, -32768 ≤ decode16 u ∧ decode16 u ≤ 32767) ∧
  (∀ u v : Half, decode16 u = decode16 v → u = v) ∧
  (∀ x : Int, -32768 ≤ x → x ≤ 32767 → ∃ u : Half, decode16 u = x) ∧
  (∀ u : Half, u.toNat ≤ 32767 → decode16 u = u.toNat) ∧
  (∀ u : Half, 32768 ≤ u.toNat → decode16 u = -(65536 - (u.toNat : Int))) ∧
  (∀ u : Half, decode16 u % 65536 = u.toNat)

/-! ### The driver's configuration -/

/-- R131: INIT when its five transactions are answered, whatever the environment does between them: the
five transactions and the wait in order, each write computed from the byte just read, `inited` 1 in the
state and the response, the offsets kept. (That the wait uses one moment and is recorded as `.wait 7` is
log entry 12.) -/
def Obligations.InitRunsTheProtocol : Prop :=
  ∀ s : State, s.Idle → s.Answered 5 →
    ∃ t g m d1 d2 d3, exec .init s = .next t ∧
      d1 = devStore Config.aConfigA (initCfgA s.cfg) (s.devAt 1) ∧
      g = (s.moment 1).data.getD
        (Memory.read (applyActs s.cfg (s.moment 1).acts d1) Config.aConfigB.toNat) ∧
      d2 = devStore Config.aConfigB
        (mergeField s.cfg.fGain.highBit s.cfg.fGain.length g Config.gainDefault)
        (applyActs s.cfg (s.moment 2).acts (applyActs s.cfg (s.moment 1).acts d1)) ∧
      m = (s.moment 3).data.getD
        (Memory.read (applyActs s.cfg (s.moment 3).acts d2) Config.aMode.toNat) ∧
      d3 = devStore Config.aMode
        (mergeField s.cfg.fMode.highBit s.cfg.fMode.length m s.cfg.modeContinuous)
        (applyActs s.cfg (s.moment 4).acts (applyActs s.cfg (s.moment 3).acts d2)) ∧
      t.dev = applyActs s.cfg (s.moment 5).acts d3 ∧
      t.trace =
        [.write Config.aConfigA (initCfgA s.cfg) true,
         .read Config.aConfigB (some g),
         .write Config.aConfigB
           (mergeField s.cfg.fGain.highBit s.cfg.fGain.length g Config.gainDefault) true,
         .read Config.aMode (some m),
         .write Config.aMode
           (mergeField s.cfg.fMode.highBit s.cfg.fMode.length m s.cfg.modeContinuous) true,
         .wait 7] ∧
      t.rsp = some ⟨.ok, true, {}⟩ ∧ t.inited = true ∧ t.inflight = none ∧
      t.calX = s.calX ∧ t.calY = s.calY ∧ t.calZ = s.calZ ∧ t.cfg = s.cfg ∧ t.host = s.host ∧
      t.env = s.env.drop 6

/-- R132: the byte of INIT's first write is WPACK's byte of its own four slots, and what the three field
writes of the default codes leave in a register that held 0x00. -/
def Obligations.InitConfigAIsThePackedDefaults : Prop :=
  ∀ p : Config.Params, p.wf = true →
    packByte (readField 7 2 (initCfgA p)) (readField 5 2 (initCfgA p)) (readField 3 2 (initCfgA p))
        (readField 1 2 (initCfgA p)) = initCfgA p ∧
    mergeField p.fBias.highBit p.fBias.length
      (mergeField p.fRate.highBit p.fRate.length
        (mergeField p.fAvg.highBit p.fAvg.length 0x00#8 Config.avgDefault) Config.rateDefault)
      p.biasNormal = initCfgA p

/-- R137: the end state of a successful INIT on RefDevice when no other master writes, the sensor acting as
it likes between the transactions and in the wait. -/
def Obligations.InitEndState : Prop :=
  ∀ s : State, s.Idle → s.cfg.wf = true → Memory.wf s.dev = true → s.OnRefDevice 5 → s.NoOtherWriter 6 →
    ∃ t, exec .init s = .next t ∧
      Memory.read t.dev 0x00 = initCfgA s.cfg ∧
      Memory.read t.dev 0x01 =
        (Memory.read s.dev 0x01 &&& ~~~(fieldMask s.cfg.fGain.highBit s.cfg.fGain.length)) |||
          (Config.gainDefault <<< fieldShift s.cfg.fGain.highBit s.cfg.fGain.length) ∧
      Memory.read t.dev 0x02 =
        (Memory.read s.dev 0x02 &&& ~~~(fieldMask s.cfg.fMode.highBit s.cfg.fMode.length)) |||
          (s.cfg.modeContinuous <<< fieldShift s.cfg.fMode.highBit s.cfg.fMode.length) ∧
      t.inited = true ∧ t.calX = s.calX ∧ t.calY = s.calY ∧ t.calZ = s.calZ

/-- R245 with R134, as log entry 20 reads it, for runs given by their states, the latest first: (1) an INIT
from a state of the invariant, its transactions answered, no other master writing meanwhile, completes and
makes the run trusted; (2) a trusted run, however many steps after its INIT, is in a state with `inited` 1
and the settings INIT leaves: ConfigA as INIT writes it, the default gain, Continuous mode; (3) a step that
runs a command that only reads, no other master writing meanwhile, leaves the run trusted; (4) a step that
is no INIT and changes a configuration register ends the trust, whatever it is set back to later. -/
def Obligations.InitMakesSamplesTrusted : Prop :=
  (∀ (s : State) (past : List State),
    Inv s → s.Runs .init → s.Answered 5 → s.NoOtherWriter 6 →
      ∃ t, step s = .next t ∧ SampleTrusted (t :: s :: past)) ∧
  (∀ (s : State) (past : List State), SampleTrusted (s :: past) → s.inited = true ∧ DefaultSettings s) ∧
  (∀ (s : State) (past : List State) (i : Instr),
    SampleTrusted (s :: past) → s.Runs i → readOnly i = true → s.NoOtherWriter 6 →
      ∃ t, step s = .next t ∧ SampleTrusted (t :: s :: past)) ∧
  (∀ (s t : State) (past : List State), SampleTrusted (t :: s :: past) → ¬ s.Runs .init →
    SampleTrusted (s :: past) ∧ configuration t = configuration s)

/-- R136: if transaction `k` of INIT is the first to fail, INIT ends there with `TransportError`: exactly
the transactions `0..k-1` have completed, in order, each write computed from the byte just read, the last
event is transaction `k`, failed, no later one is issued and no wait performed; `inited` is 0, the offsets
are kept, and with no other master writing the completed writes have taken effect on the device and the
failed one has none (log entry 9; R47, R216). -/
def Obligations.InitStopsAtTheFirstFailure : Prop :=
  ∀ (s : State) (k : Nat), s.Idle → k < 5 → s.Answered k → (s.moment k).fail = true →
    ∃ t g m d1 d2, exec .init s = .next t ∧
      d1 = devStore Config.aConfigA (initCfgA s.cfg) (s.devAt 1) ∧
      g = (s.moment 1).data.getD
        (Memory.read (applyActs s.cfg (s.moment 1).acts d1) Config.aConfigB.toNat) ∧
      d2 = devStore Config.aConfigB
        (mergeField s.cfg.fGain.highBit s.cfg.fGain.length g Config.gainDefault)
        (applyActs s.cfg (s.moment 2).acts (applyActs s.cfg (s.moment 1).acts d1)) ∧
      m = (s.moment 3).data.getD
        (Memory.read (applyActs s.cfg (s.moment 3).acts d2) Config.aMode.toNat) ∧
      t.trace = (initEvents s.cfg g m).take k ++
        (((initEvents s.cfg g m).drop k).take 1).map Event.failed ∧
      t.trace.length = k + 1 ∧ (∀ e ∈ t.trace, e ≠ .wait 7) ∧
      t.rsp = some ⟨.transportError, false, {}⟩ ∧ t.inited = false ∧ t.inflight = none ∧
      t.calX = s.calX ∧ t.calY = s.calY ∧ t.calZ = s.calZ ∧ t.cfg = s.cfg ∧ t.host = s.host ∧
      t.env = s.env.drop (k + 1) ∧
      (s.NoOtherWriter 5 → Memory.wf s.dev = true →
        (Memory.read t.dev 0x00 = if 0 < k then initCfgA s.cfg else Memory.read s.dev 0x00) ∧
        (Memory.read t.dev 0x01 = if k < 3 then Memory.read s.dev 0x01
          else mergeField s.cfg.fGain.highBit s.cfg.fGain.length
            ((s.moment 1).data.getD (Memory.read s.dev 0x01)) Config.gainDefault) ∧
        Memory.read t.dev 0x02 = Memory.read s.dev 0x02)

/-- R140, R130: with a well-formed configuration record every setter (SETBIAS, SETRATE, SETAVG, SETGAIN,
SETMODE) does in every state exactly what WRF of its item's register and field does. -/
def Obligations.SettersAreFieldWrites : Prop :=
  ∀ (s : State) (c : ConfigItem) (val : Byte), s.cfg.wf = true →
    exec (c.setter val) s = exec (.wrf c.reg (c.field s.cfg).highBit (c.field s.cfg).length val) s ∧
    validField (c.field s.cfg).highBit (c.field s.cfg).length = true

/-- R142 to R146: SETBIAS, SETRATE, SETAVG, SETGAIN and SETMODE complete when their two transactions are
answered: one read and one write of the item's register, the item's field replaced by the truncated code,
every other bit kept; no wait. -/
def Obligations.SettersReplaceTheirField : Prop :=
  ∀ (s : State) (c : ConfigItem) (val : Byte), s.Idle → s.cfg.wf = true → s.Answered 2 →
    ∃ t old new, exec (c.setter val) s = .next t ∧ old = s.readByte 0 c.reg ∧
      new = (old &&& ~~~(fieldMask (c.field s.cfg).highBit (c.field s.cfg).length)) |||
        ((val <<< fieldShift (c.field s.cfg).highBit (c.field s.cfg).length) &&&
          fieldMask (c.field s.cfg).highBit (c.field s.cfg).length) ∧
      t.rsp = some ⟨.ok, s.inited, {}⟩ ∧
      t.trace = [.read c.reg (some old), .write c.reg new true] ∧
      s.KeepsBlock t ∧ t.dev = devStore c.reg new (s.devAt 2) ∧ t.env = s.env.drop 2

/-- R141: every getter (GETBIAS, GETRATE, GETAVG, GETGAIN, GETMODE) does in every state exactly what RDF of
its item's register and field does, and issues no write; it completes when its read is answered, with the
item's field in `q0` (R147 to R151). -/
def Obligations.GettersReadTheirField : Prop :=
  ∀ (s : State) (c : ConfigItem), s.cfg.wf = true →
    exec c.getter s = exec (.rdf c.reg (c.field s.cfg).highBit (c.field s.cfg).length) s ∧
    (∀ t, exec c.getter s = .next t → ∀ e ∈ t.trace, e.isWrite = false) ∧
    (s.Idle → s.Answered 1 →
      ∃ t, exec c.getter s = .next t ∧
        t.rsp = some ⟨.ok, s.inited,
          { q0 := ((s.readByte 0 c.reg &&& fieldMask (c.field s.cfg).highBit (c.field s.cfg).length) >>>
              fieldShift (c.field s.cfg).highBit (c.field s.cfg).length).setWidth 32 }⟩ ∧
        t.trace = [.read c.reg (some (s.readByte 0 c.reg))] ∧
        s.KeepsBlock t ∧ t.dev = s.devAt 1 ∧ t.env = s.env.drop 1)

/-- R152: setter then getter, on RefDevice, no failure, no other master writing (the sensor may act): the
truncated value comes back and the other bits of the register are as before the setter. -/
def Obligations.SetterThenGetter : Prop :=
  ∀ (s : State) (c : ConfigItem) (v : Byte), s.Idle → s.cfg.wf = true → Memory.wf s.dev = true →
    s.Undisturbed 3 →
      ∃ t u, exec (c.setter v) s = .next t ∧ exec c.getter t = .next u ∧
        u.rsp = some ⟨.ok, s.inited,
          { q0 := BitVec.ofNat 32 (v.toNat % 2 ^ (c.field s.cfg).length) }⟩ ∧
        Memory.read u.dev c.reg.toNat &&&
            ~~~(fieldMask (c.field s.cfg).highBit (c.field s.cfg).length) =
          Memory.read s.dev c.reg.toNat &&&
            ~~~(fieldMask (c.field s.cfg).highBit (c.field s.cfg).length)

/-- R23, R146: after a successful SETMODE on RefDevice, no other master writing (the sensor may act), the
device is in the state the truncated code names (no state for the code that names none); when the write
fails the state is unchanged. -/
def Obligations.SetmodeMovesTheOperatingMode : Prop :=
  ∀ (s : State) (val : Byte), s.Idle → s.cfg.wf = true → Memory.wf s.dev = true →
    s.NoOtherWriter 2 →
    (s.moment 0).fail = false → (s.moment 0).data = none →
      ∃ t, exec (.setmode val) s = .next t ∧
        operatingMode s.cfg (Memory.read t.dev Config.aMode.toNat) =
          if (s.moment 1).fail then operatingMode s.cfg (Memory.read s.dev Config.aMode.toNat)
          else modeOfCode s.cfg (BitVec.ofNat 8 (val.toNat % 2 ^ s.cfg.fMode.length))

/-- R247, the lost update: another master's write to the register between the read and the write of a
setter is undone, and the setter answers `OK`. -/
def Obligations.LostUpdate : Prop :=
  ∀ (s : State) (c : ConfigItem) (val v : Byte), s.Idle → s.cfg.wf = true →
    Memory.wf s.dev = true → s.moment 0 = Moment.quiet →
    s.moment 1 = ⟨[.masterWrite c.reg v], false, none⟩ →
      ∃ t, exec (c.setter val) s = .next t ∧ t.rsp = some ⟨.ok, s.inited, {}⟩ ∧
        Memory.read t.dev c.reg.toNat =
          mergeField (c.field s.cfg).highBit (c.field s.cfg).length
            (Memory.read s.dev c.reg.toNat) val

/-- R155 to R158: RDIDA, RDIDB, RDIDC and RDSTAT: one read of the fixed register; when it is answered the
command completes with the byte passed through unchanged; when it fails, `TransportError` without data. -/
def Obligations.FixedReadsPassTheByteThrough : Prop :=
  ∀ (s : State) (i : Instr) (a : Addr), (i, a) ∈ fixedReads → s.Idle →
    ((s.moment 0).fail = false →
      ∃ t, exec i s = .next t ∧
        t.rsp = some ⟨.ok, s.inited, { q0 := (s.readByte 0 a).setWidth 32 }⟩ ∧
        t.trace = [.read a (some (s.readByte 0 a))] ∧
        s.KeepsBlock t ∧ t.dev = s.devAt 1 ∧ t.env = s.env.drop 1) ∧
    ((s.moment 0).fail = true →
      ∃ t, exec i s = .next t ∧ t.rsp = some ⟨.transportError, s.inited, {}⟩ ∧
        t.trace = [.read a none] ∧ s.KeepsBlock t ∧ t.dev = s.devAt 1 ∧ t.env = s.env.drop 1)

/-- R160 to R162: SETCALX, SETCALY and SETCALZ write their register and nothing else, without a
transaction. -/
def Obligations.CalibrationSetters : Prop :=
  ∀ (s : State) (imm16 : Half), s.Idle →
    exec (.setcalx imm16) s =
      .next { s with calX := imm16, trace := [], rsp := some ⟨.ok, s.inited, {}⟩ } ∧
    exec (.setcaly imm16) s =
      .next { s with calY := imm16, trace := [], rsp := some ⟨.ok, s.inited, {}⟩ } ∧
    exec (.setcalz imm16) s =
      .next { s with calZ := imm16, trace := [], rsp := some ⟨.ok, s.inited, {}⟩ }

/-! ### Samples -/

/-- R173, R174: a raw value is the decoded sample plus the offset, exact, in `[-65536, 65534]`; a scaled
value is the raw value times 92, in `[-6029312, 6029128]`; both survive their 32-bit lane. -/
def Obligations.SampleRangesFitTheLanes : Prop :=
  ∀ (d0 d1 d2 d3 d4 d5 : Byte) (cx cy cz : Half) (v : Axes),
    v = axes d0 d1 d2 d3 d4 d5 cx.toInt cy.toInt cz.toInt →
      (∀ r, r = v.x ∨ r = v.y ∨ r = v.z → -65536 ≤ r ∧ r ≤ 65534 ∧ (lane r).toInt = r) ∧
      (∀ r, r = v.sx ∨ r = v.sy ∨ r = v.sz → -6029312 ≤ r ∧ r ≤ 6029128 ∧ (lane r).toInt = r) ∧
      v.x = decode16 (joinPair d0 d1) + cx.toInt ∧ v.z = decode16 (joinPair d2 d3) + cz.toInt ∧
      v.y = decode16 (joinPair d4 d5) + cy.toInt ∧
      v.sx = v.x * 92 ∧ v.sy = v.y * 92 ∧ v.sz = v.z * 92

/-- R172, R170, R171: RDAXES when its six reads are answered: the six reads in ascending order, the first
pair X, the SECOND Z and the THIRD Y, offsets added before scaling, lanes in the order x, y, z. -/
def Obligations.RdaxesReturnsTheSample : Prop :=
  ∀ s : State, s.Idle → s.Answered 6 →
    ∃ t d0 d1 d2 d3 d4 d5 x y z, exec .rdaxes s = .next t ∧
      d0 = s.readByte 0 Config.aXHigh ∧ d1 = s.readByte 1 Config.aXLow ∧
      d2 = s.readByte 2 Config.aZHigh ∧ d3 = s.readByte 3 Config.aZLow ∧
      d4 = s.readByte 4 Config.aYHigh ∧ d5 = s.readByte 5 Config.aYLow ∧
      x = decode16 (BitVec.ofNat 16 (256 * d0.toNat + d1.toNat)) + s.calX.toInt ∧
      z = decode16 (BitVec.ofNat 16 (256 * d2.toNat + d3.toNat)) + s.calZ.toInt ∧
      y = decode16 (BitVec.ofNat 16 (256 * d4.toNat + d5.toNat)) + s.calY.toInt ∧
      t.rsp = some ⟨.ok, s.inited,
        { q0 := BitVec.ofInt 32 x, q1 := BitVec.ofInt 32 y, q2 := BitVec.ofInt 32 z,
          q3 := BitVec.ofInt 32 (x * 92), q4 := BitVec.ofInt 32 (y * 92),
          q5 := BitVec.ofInt 32 (z * 92) }⟩ ∧
      t.trace =
        [.read 0x03#8 (some d0), .read 0x04#8 (some d1), .read 0x05#8 (some d2),
         .read 0x06#8 (some d3), .read 0x07#8 (some d4), .read 0x08#8 (some d5)] ∧
      s.KeepsBlock t ∧ t.dev = s.devAt 6 ∧ t.env = s.env.drop 6

/-- R172, R195, R217: if read `k` of the burst is the first to fail, RDAXES and GETVALUES end there:
`TransportError`, no data, the later reads not issued. -/
def Obligations.BurstStopsAtTheFirstFailure : Prop :=
  ∀ (s : State) (k : Nat) (i : Instr), i = .rdaxes ∨ i = .getvalues → s.Idle → k < 6 →
    s.Answered k → (s.moment k).fail = true →
      ∃ t, exec i s = .next t ∧ t.rsp = some ⟨.transportError, s.inited, {}⟩ ∧
        t.trace.length = k + 1 ∧ t.trace.getLast? = some (.read (burstAddrs.getD k 0#8) none) ∧
        s.KeepsBlock t ∧ t.dev = s.devAt (k + 1) ∧ t.env = s.env.drop (k + 1)

/-! ### Headings -/

/-- R190: HEADING completes in every idle state and for all operands: `rad_q` in `q0`, `cdeg` in `q1`,
the pair `(0, 0)` answered from `HEADING_AT_ORIGIN`; nothing else changes. -/
def Obligations.HeadingAnswersBothFormats : Prop :=
  ∀ (s : State) (a b : Op24), s.Idle →
    ∃ t, exec (.heading a b) s = .next t ∧
      t.rsp = some ⟨.ok, s.inited,
        if a = 0#24 ∧ b = 0#24 then
          { q0 := BitVec.ofNat 32 s.cfg.originRad, q1 := BitVec.ofNat 32 s.cfg.originCdeg }
        else
          { q0 := BitVec.ofInt 32 (Heading.radFloor a.toInt b.toInt),
            q1 := BitVec.ofInt 32 (Heading.centiRound a.toInt b.toInt) }⟩ ∧
      s.KeepsAll t

/-- R186, R187, R188: the integers computed bracket the exact real angle. For every vector other than the
origin, whatever its size: `rad_q <= θ·65536` and `cdeg - 1/2 <= θ·18000/π` hold exactly,
and the upper brackets hold up to `2^-100`; and where the enclosure settles the floors (`resolved`) the
upper brackets hold exactly too, so the integers are the unique ones of rules R187 and R188. (The
enclosure is the model's choice, log entry 6.) -/
def Obligations.HeadingBracketsTheExactAngle : Prop :=
  ∀ a b : Int, ¬(a = 0 ∧ b = 0) →
    ((Heading.radFloor a b : ℝ) ≤ theta a b * 65536 ∧
      theta a b * 65536 < (Heading.radFloor a b : ℝ) + 1 + (1 / 2 : ℝ) ^ 100) ∧
    ((Heading.centiRound a b : ℝ) - 1 / 2 ≤ theta a b * 18000 / Real.pi ∧
      theta a b * 18000 / Real.pi < (Heading.centiRound a b : ℝ) + 1 / 2 + (1 / 2 : ℝ) ^ 100) ∧
    (Heading.resolved a b = true →
      Heading.radFloor a b = ⌊theta a b * 65536⌋ ∧
      Heading.centiRound a b = ⌊theta a b * 18000 / Real.pi + 1 / 2⌋)

/-- R187, R188, R189: the ranges of the two outputs, `0..411774` and `0..36000`, for all operands; and at
the origin the two outputs are those of ONE angle in `[0, 2π)`, the parameter `HEADING_AT_ORIGIN` (held by
its images, log entry 5). -/
def Obligations.HeadingRanges : Prop :=
  ∀ (p : Config.Params) (a b : Int), p.wf = true →
    0 ≤ headingRad p a b ∧ headingRad p a b ≤ 411774 ∧
    0 ≤ headingCdeg p a b ∧ headingCdeg p a b ≤ 36000 ∧
    ∃ θ : ℝ, 0 ≤ θ ∧ θ < 2 * Real.pi ∧ headingRad p 0 0 = ⌊θ * 65536⌋ ∧
      headingCdeg p 0 0 = ⌊θ * 18000 / Real.pi + 1 / 2⌋

/-- R191: a heading depends only on the direction: `θ(k·a, k·b) = θ(a, b)` for `k > 0`, in both formats. -/
def Obligations.HeadingDependsOnDirectionOnly : Prop :=
  ∀ (p : Config.Params) (k a b : Int), 0 < k →
    headingRad p (k * a) (k * b) = headingRad p a b ∧
    headingCdeg p (k * a) (k * b) = headingCdeg p a b

/-- R191's table at the eight exact directions, for every length. -/
def Obligations.HeadingAtTheExactDirections : Prop :=
  ∀ (p : Config.Params) (k : Int), 0 < k →
    (headingRad p k 0 = 0 ∧ headingCdeg p k 0 = 0) ∧
    (headingRad p k k = 51471 ∧ headingCdeg p k k = 4500) ∧
    (headingRad p 0 k = 102943 ∧ headingCdeg p 0 k = 9000) ∧
    (headingRad p (-k) k = 154415 ∧ headingCdeg p (-k) k = 13500) ∧
    (headingRad p (-k) 0 = 205887 ∧ headingCdeg p (-k) 0 = 18000) ∧
    (headingRad p (-k) (-k) = 257359 ∧ headingCdeg p (-k) (-k) = 22500) ∧
    (headingRad p 0 (-k) = 308831 ∧ headingCdeg p 0 (-k) = 27000) ∧
    (headingRad p k (-k) = 360302 ∧ headingCdeg p k (-k) = 31500)

/-- R195: GETVALUES when its six reads are answered: one burst, the sample of RDAXES, and the headings in
hundredths of a degree of the raw and of the scaled `(x, y)` pair. -/
def Obligations.GetvaluesReturnsSampleAndHeadings : Prop :=
  ∀ s : State, s.Idle → s.Answered 6 →
    ∃ t d0 d1 d2 d3 d4 d5 v, exec .getvalues s = .next t ∧
      d0 = s.readByte 0 Config.aXHigh ∧ d1 = s.readByte 1 Config.aXLow ∧
      d2 = s.readByte 2 Config.aZHigh ∧ d3 = s.readByte 3 Config.aZLow ∧
      d4 = s.readByte 4 Config.aYHigh ∧ d5 = s.readByte 5 Config.aYLow ∧
      v = axes d0 d1 d2 d3 d4 d5 s.calX.toInt s.calY.toInt s.calZ.toInt ∧
      t.rsp = some ⟨.ok, s.inited,
        { q0 := BitVec.ofInt 32 v.x, q1 := BitVec.ofInt 32 v.y, q2 := BitVec.ofInt 32 v.z,
          q3 := BitVec.ofInt 32 (headingCdeg s.cfg v.x v.y),
          q4 := BitVec.ofInt 32 v.sx, q5 := BitVec.ofInt 32 v.sy, q6 := BitVec.ofInt 32 v.sz,
          q7 := BitVec.ofInt 32 (headingCdeg s.cfg v.sx v.sy) }⟩ ∧
      t.trace =
        [.read 0x03#8 (some d0), .read 0x04#8 (some d1), .read 0x05#8 (some d2),
         .read 0x06#8 (some d3), .read 0x07#8 (some d4), .read 0x08#8 (some d5)] ∧
      s.KeepsBlock t ∧ t.dev = s.devAt 6 ∧ t.env = s.env.drop 6

/-- R196: in every response of GETVALUES the two headings are equal. -/
def Obligations.GetvaluesHeadingsAreEqual : Prop :=
  ∀ (s t : State) (r : Response), exec .getvalues s = .next t → t.rsp = some r →
    r.lanes.q7 = r.lanes.q3

/-- R197: z takes no part in a heading: two GETVALUES whose samples differ only in the bytes of z and in
`CALZ` answer the same headings. -/
def Obligations.HeadingIgnoresZ : Prop :=
  ∀ (s s' t t' : State) (r r' : Response), s.Answered 6 → s'.Answered 6 → s'.cfg = s.cfg →
    s'.calX = s.calX → s'.calY = s.calY →
    s'.readByte 0 Config.aXHigh = s.readByte 0 Config.aXHigh →
    s'.readByte 1 Config.aXLow = s.readByte 1 Config.aXLow →
    s'.readByte 4 Config.aYHigh = s.readByte 4 Config.aYHigh →
    s'.readByte 5 Config.aYLow = s.readByte 5 Config.aYLow →
    exec .getvalues s = .next t → exec .getvalues s' = .next t' →
    t.rsp = some r → t'.rsp = some r' →
      r'.lanes.q3 = r.lanes.q3 ∧ r'.lanes.q7 = r.lanes.q7

/-! ### The whole machine -/

/-- R221: the statuses each command can end with, with a well-formed configuration record (R5). -/
def Obligations.StatusesFollowTheTable : Prop :=
  ∀ (i : Instr) (s t : State), s.cfg.wf = true → exec i s = .next t →
    ∃ r, t.rsp = some r ∧ r.status ∈ statuses i

/-- R214, R66: a failed response carries no data, whatever the command and the environment, and the
current value of `inited`; the block is idle after it, its calibration registers as before and `inited` as
before, except that a failed INIT leaves it 0 (R216). -/
def Obligations.FailureLeavesTheBlock : Prop :=
  ∀ (i : Instr) (s t : State) (r : Response), exec i s = .next t → t.rsp = some r →
    r.status ≠ .ok →
      r.lanes = {} ∧ r.inited = t.inited ∧ t.busy = false ∧
      t.calX = s.calX ∧ t.calY = s.calY ∧ t.calZ = s.calZ ∧
      t.inited = if i = .init then false else s.inited

/-- R65: the response to every command word, legal or not, carries the value `inited` has after it. -/
def Obligations.ResponseCarriesInited : Prop :=
  ∀ (s t : State) (w : Word) (rest : List HostInput), s.Idle → s.host = .command w :: rest →
    step s = .next t → ∃ r, t.rsp = some r ∧ r.inited = t.inited

/-- R12, R14: over one step, whatever it is (a command, a command in flight going on, an illegal word, a
wait for the host, a reset), a calibration register can change only by its SETCAL command, to its operand,
or by reset, to 0, and `inited` only by INIT or by reset, to 0. -/
def Obligations.BlockRegistersHaveOneWriter : Prop :=
  ∀ s t : State, step s = .next t →
    (t.calX ≠ s.calX → (s.Resets ∧ t.calX = 0#16) ∨ ∃ v, s.Runs (.setcalx v) ∧ t.calX = v) ∧
    (t.calY ≠ s.calY → (s.Resets ∧ t.calY = 0#16) ∨ ∃ v, s.Runs (.setcaly v) ∧ t.calY = v) ∧
    (t.calZ ≠ s.calZ → (s.Resets ∧ t.calZ = 0#16) ∨ ∃ v, s.Runs (.setcalz v) ∧ t.calZ = v) ∧
    (t.inited ≠ s.inited → (s.Resets ∧ t.inited = false) ∨ s.Runs .init)

/-- R141 and the command rules: every write event of a command, completed or failed, is aimed at one of the
command's own addresses (`reg` for WRF and WPACK, the item's register for a setter, `0x00..0x02` for INIT),
whatever the environment does; so the commands that have none, all but those, issue no write transaction. -/
def Obligations.OnlyWritersWrite : Prop :=
  ∀ (i : Instr) (s t : State), exec i s = .next t →
    (∀ a v done, .write a v done ∈ t.trace → a ∈ writeAddrs i) ∧
    (readOnly i = true → ∀ e ∈ t.trace, e.isWrite = false)

/-- The frame of the device: with no sensor and no other master acting, a command leaves every register
outside its own stored addresses as it was: reading any other address gives what it gave before. -/
def Obligations.CommandsLeaveOtherRegisters : Prop :=
  ∀ (i : Instr) (s t : State) (x : Nat), exec i s = .next t → s.Alone 6 → x ∉ storedAddrs i →
    Memory.read t.dev x = Memory.read s.dev x

/-- The frame of the rest: every command leaves the host's list and the configuration record, ends with no
command in flight (R15, R218), and leaves at most six entries in the port's record (R16's longest list; the
record is log entry 8). -/
def Obligations.CommandsLeaveHostAndConfiguration : Prop :=
  ∀ (i : Instr) (s t : State), exec i s = .next t →
    t.host = s.host ∧ t.cfg = s.cfg ∧ t.inflight = none ∧ t.trace.length ≤ 6

/-- R218, R198: what a command answers and leaves does not depend on the last response, the
port's record or what the host will issue later. -/
def Obligations.NoMemoryOfEarlierCommands : Prop :=
  ∀ (i : Instr) (s : State) (r : Option Response) (tr : List Event) (h : List HostInput) (t : State),
    exec i s = .next t → exec i { s with rsp := r, trace := tr, host := h } = .next { t with host := h }

/-- The invariant holds at reset. -/
def Obligations.InvariantAtReset : Prop := Inv State.reset

/-- The invariant is kept by every step, from every state that has it (HEADLINE): no command in flight
between steps, the device's memory canonical and listing only mapped registers, failed responses without
data, at most six port events, a well-formed configuration record. (The record of the port is log entry 8;
that no command is in flight between steps is log entry 7.) -/
def Obligations.EveryStepKeepsTheInvariant : Prop :=
  ∀ s t : State, Inv s → step s = .next t → Inv t
end

