-- ==== Sys2Proof/Laws/State.lean ====
section
/-! SUPPORT. One lemma for each field of State and each named update of it, true by definition. -/

namespace Sys2Proof.Machine.State

@[simp] theorem accept_calX (s : State) (i : Instr) : (s.accept i).calX = s.calX := rfl
@[simp] theorem accept_calY (s : State) (i : Instr) : (s.accept i).calY = s.calY := rfl
@[simp] theorem accept_calZ (s : State) (i : Instr) : (s.accept i).calZ = s.calZ := rfl
@[simp] theorem accept_inited (s : State) (i : Instr) : (s.accept i).inited = s.inited := rfl
@[simp] theorem accept_inflight (s : State) (i : Instr) : (s.accept i).inflight = some ⟨i, 0#3, []⟩ := rfl
@[simp] theorem accept_rsp (s : State) (i : Instr) : (s.accept i).rsp = none := rfl
@[simp] theorem accept_trace (s : State) (i : Instr) : (s.accept i).trace = [] := rfl
@[simp] theorem accept_host (s : State) (i : Instr) : (s.accept i).host = s.host := rfl
@[simp] theorem accept_dev (s : State) (i : Instr) : (s.accept i).dev = s.dev := rfl
@[simp] theorem accept_env (s : State) (i : Instr) : (s.accept i).env = s.env := rfl
@[simp] theorem accept_draws (s : State) (i : Instr) : (s.accept i).draws = s.draws := rfl
@[simp] theorem accept_cfg (s : State) (i : Instr) : (s.accept i).cfg = s.cfg := rfl

@[simp] theorem respond_calX (s : State) (st : Status) (ls : Lanes) : (s.respond st ls).calX = s.calX := rfl
@[simp] theorem respond_calY (s : State) (st : Status) (ls : Lanes) : (s.respond st ls).calY = s.calY := rfl
@[simp] theorem respond_calZ (s : State) (st : Status) (ls : Lanes) : (s.respond st ls).calZ = s.calZ := rfl
@[simp] theorem respond_inited (s : State) (st : Status) (ls : Lanes) : (s.respond st ls).inited = s.inited := rfl
@[simp] theorem respond_inflight (s : State) (st : Status) (ls : Lanes) : (s.respond st ls).inflight = none := rfl
@[simp] theorem respond_rsp (s : State) (st : Status) (ls : Lanes) : (s.respond st ls).rsp = some ⟨st, s.inited, ls⟩ := rfl
@[simp] theorem respond_trace (s : State) (st : Status) (ls : Lanes) : (s.respond st ls).trace = s.trace := rfl
@[simp] theorem respond_host (s : State) (st : Status) (ls : Lanes) : (s.respond st ls).host = s.host := rfl
@[simp] theorem respond_dev (s : State) (st : Status) (ls : Lanes) : (s.respond st ls).dev = s.dev := rfl
@[simp] theorem respond_env (s : State) (st : Status) (ls : Lanes) : (s.respond st ls).env = s.env := rfl
@[simp] theorem respond_draws (s : State) (st : Status) (ls : Lanes) : (s.respond st ls).draws = s.draws := rfl
@[simp] theorem respond_cfg (s : State) (st : Status) (ls : Lanes) : (s.respond st ls).cfg = s.cfg := rfl

@[simp] theorem failWith_calX (s : State) (st : Status) : (s.failWith st).calX = s.calX := rfl
@[simp] theorem failWith_calY (s : State) (st : Status) : (s.failWith st).calY = s.calY := rfl
@[simp] theorem failWith_calZ (s : State) (st : Status) : (s.failWith st).calZ = s.calZ := rfl
@[simp] theorem failWith_inited (s : State) (st : Status) : (s.failWith st).inited = s.inited := rfl
@[simp] theorem failWith_inflight (s : State) (st : Status) : (s.failWith st).inflight = none := rfl
@[simp] theorem failWith_rsp (s : State) (st : Status) : (s.failWith st).rsp = some ⟨st, s.inited, {}⟩ := rfl
@[simp] theorem failWith_trace (s : State) (st : Status) : (s.failWith st).trace = s.trace := rfl
@[simp] theorem failWith_host (s : State) (st : Status) : (s.failWith st).host = s.host := rfl
@[simp] theorem failWith_dev (s : State) (st : Status) : (s.failWith st).dev = s.dev := rfl
@[simp] theorem failWith_env (s : State) (st : Status) : (s.failWith st).env = s.env := rfl
@[simp] theorem failWith_draws (s : State) (st : Status) : (s.failWith st).draws = s.draws := rfl
@[simp] theorem failWith_cfg (s : State) (st : Status) : (s.failWith st).cfg = s.cfg := rfl

@[simp] theorem illegalWord_calX (s : State) : s.illegalWord.calX = s.calX := rfl
@[simp] theorem illegalWord_calY (s : State) : s.illegalWord.calY = s.calY := rfl
@[simp] theorem illegalWord_calZ (s : State) : s.illegalWord.calZ = s.calZ := rfl
@[simp] theorem illegalWord_inited (s : State) : s.illegalWord.inited = s.inited := rfl
@[simp] theorem illegalWord_inflight (s : State) : s.illegalWord.inflight = none := rfl
@[simp] theorem illegalWord_rsp (s : State) : s.illegalWord.rsp = some ⟨.illegalCommand, s.inited, {}⟩ := rfl
@[simp] theorem illegalWord_trace (s : State) : s.illegalWord.trace = [] := rfl
@[simp] theorem illegalWord_host (s : State) : s.illegalWord.host = s.host := rfl
@[simp] theorem illegalWord_dev (s : State) : s.illegalWord.dev = s.dev := rfl
@[simp] theorem illegalWord_env (s : State) : s.illegalWord.env = s.env := rfl
@[simp] theorem illegalWord_draws (s : State) : s.illegalWord.draws = s.draws := rfl
@[simp] theorem illegalWord_cfg (s : State) : s.illegalWord.cfg = s.cfg := rfl

@[simp] theorem afterMoment_calX (s : State) : s.afterMoment.calX = s.calX := rfl
@[simp] theorem afterMoment_calY (s : State) : s.afterMoment.calY = s.calY := rfl
@[simp] theorem afterMoment_calZ (s : State) : s.afterMoment.calZ = s.calZ := rfl
@[simp] theorem afterMoment_inited (s : State) : s.afterMoment.inited = s.inited := rfl
@[simp] theorem afterMoment_inflight (s : State) : s.afterMoment.inflight = s.inflight := rfl
@[simp] theorem afterMoment_rsp (s : State) : s.afterMoment.rsp = s.rsp := rfl
@[simp] theorem afterMoment_trace (s : State) : s.afterMoment.trace = s.trace := rfl
@[simp] theorem afterMoment_host (s : State) : s.afterMoment.host = s.host := rfl
@[simp] theorem afterMoment_dev (s : State) : s.afterMoment.dev = applyActs s.cfg s.nextMoment.acts s.dev := rfl
@[simp] theorem afterMoment_env (s : State) : s.afterMoment.env = s.env.tail := rfl
@[simp] theorem afterMoment_draws (s : State) : s.afterMoment.draws = s.draws := rfl
@[simp] theorem afterMoment_cfg (s : State) : s.afterMoment.cfg = s.cfg := rfl

@[simp] theorem log_calX (s : State) (e : Event) : (s.log e).calX = s.calX := rfl
@[simp] theorem log_calY (s : State) (e : Event) : (s.log e).calY = s.calY := rfl
@[simp] theorem log_calZ (s : State) (e : Event) : (s.log e).calZ = s.calZ := rfl
@[simp] theorem log_inited (s : State) (e : Event) : (s.log e).inited = s.inited := rfl
@[simp] theorem log_inflight (s : State) (e : Event) : (s.log e).inflight = s.inflight := rfl
@[simp] theorem log_rsp (s : State) (e : Event) : (s.log e).rsp = s.rsp := rfl
@[simp] theorem log_trace (s : State) (e : Event) : (s.log e).trace = s.trace ++ [e] := rfl
@[simp] theorem log_host (s : State) (e : Event) : (s.log e).host = s.host := rfl
@[simp] theorem log_dev (s : State) (e : Event) : (s.log e).dev = s.dev := rfl
@[simp] theorem log_env (s : State) (e : Event) : (s.log e).env = s.env := rfl
@[simp] theorem log_draws (s : State) (e : Event) : (s.log e).draws = s.draws := rfl
@[simp] theorem log_cfg (s : State) (e : Event) : (s.log e).cfg = s.cfg := rfl

@[simp] theorem advance_calX (s : State) (got : List Byte) : (s.advance got).calX = s.calX := rfl
@[simp] theorem advance_calY (s : State) (got : List Byte) : (s.advance got).calY = s.calY := rfl
@[simp] theorem advance_calZ (s : State) (got : List Byte) : (s.advance got).calZ = s.calZ := rfl
@[simp] theorem advance_inited (s : State) (got : List Byte) : (s.advance got).inited = s.inited := rfl
@[simp] theorem advance_inflight (s : State) (got : List Byte) : (s.advance got).inflight = s.inflight.map fun f => { f with seq := f.seq + 1#3, temps := f.temps ++ got } := rfl
@[simp] theorem advance_rsp (s : State) (got : List Byte) : (s.advance got).rsp = s.rsp := rfl
@[simp] theorem advance_trace (s : State) (got : List Byte) : (s.advance got).trace = s.trace := rfl
@[simp] theorem advance_host (s : State) (got : List Byte) : (s.advance got).host = s.host := rfl
@[simp] theorem advance_dev (s : State) (got : List Byte) : (s.advance got).dev = s.dev := rfl
@[simp] theorem advance_env (s : State) (got : List Byte) : (s.advance got).env = s.env := rfl
@[simp] theorem advance_draws (s : State) (got : List Byte) : (s.advance got).draws = s.draws := rfl
@[simp] theorem advance_cfg (s : State) (got : List Byte) : (s.advance got).cfg = s.cfg := rfl

@[simp] theorem clearInited_calX (s : State) : s.clearInited.calX = s.calX := rfl
@[simp] theorem clearInited_calY (s : State) : s.clearInited.calY = s.calY := rfl
@[simp] theorem clearInited_calZ (s : State) : s.clearInited.calZ = s.calZ := rfl
@[simp] theorem clearInited_inited (s : State) : s.clearInited.inited = false := rfl
@[simp] theorem clearInited_inflight (s : State) : s.clearInited.inflight = s.inflight := rfl
@[simp] theorem clearInited_rsp (s : State) : s.clearInited.rsp = s.rsp := rfl
@[simp] theorem clearInited_trace (s : State) : s.clearInited.trace = s.trace := rfl
@[simp] theorem clearInited_host (s : State) : s.clearInited.host = s.host := rfl
@[simp] theorem clearInited_dev (s : State) : s.clearInited.dev = s.dev := rfl
@[simp] theorem clearInited_env (s : State) : s.clearInited.env = s.env := rfl
@[simp] theorem clearInited_draws (s : State) : s.clearInited.draws = s.draws := rfl
@[simp] theorem clearInited_cfg (s : State) : s.clearInited.cfg = s.cfg := rfl

@[simp] theorem setInited_calX (s : State) : s.setInited.calX = s.calX := rfl
@[simp] theorem setInited_calY (s : State) : s.setInited.calY = s.calY := rfl
@[simp] theorem setInited_calZ (s : State) : s.setInited.calZ = s.calZ := rfl
@[simp] theorem setInited_inited (s : State) : s.setInited.inited = true := rfl
@[simp] theorem setInited_inflight (s : State) : s.setInited.inflight = s.inflight := rfl
@[simp] theorem setInited_rsp (s : State) : s.setInited.rsp = s.rsp := rfl
@[simp] theorem setInited_trace (s : State) : s.setInited.trace = s.trace := rfl
@[simp] theorem setInited_host (s : State) : s.setInited.host = s.host := rfl
@[simp] theorem setInited_dev (s : State) : s.setInited.dev = s.dev := rfl
@[simp] theorem setInited_env (s : State) : s.setInited.env = s.env := rfl
@[simp] theorem setInited_draws (s : State) : s.setInited.draws = s.draws := rfl
@[simp] theorem setInited_cfg (s : State) : s.setInited.cfg = s.cfg := rfl

@[simp] theorem takeInput_calX (s : State) : s.takeInput.calX = s.calX := rfl
@[simp] theorem takeInput_calY (s : State) : s.takeInput.calY = s.calY := rfl
@[simp] theorem takeInput_calZ (s : State) : s.takeInput.calZ = s.calZ := rfl
@[simp] theorem takeInput_inited (s : State) : s.takeInput.inited = s.inited := rfl
@[simp] theorem takeInput_inflight (s : State) : s.takeInput.inflight = s.inflight := rfl
@[simp] theorem takeInput_rsp (s : State) : s.takeInput.rsp = s.rsp := rfl
@[simp] theorem takeInput_trace (s : State) : s.takeInput.trace = s.trace := rfl
@[simp] theorem takeInput_host (s : State) : s.takeInput.host = s.host.tail := rfl
@[simp] theorem takeInput_dev (s : State) : s.takeInput.dev = s.dev := rfl
@[simp] theorem takeInput_env (s : State) : s.takeInput.env = s.env := rfl
@[simp] theorem takeInput_draws (s : State) : s.takeInput.draws = s.draws := rfl
@[simp] theorem takeInput_cfg (s : State) : s.takeInput.cfg = s.cfg := rfl

theorem busy_eq (s : State) : s.busy = s.inflight.isSome := rfl
@[simp] theorem seq_accept (s : State) (i : Instr) : (s.accept i).seq = 0#3 := rfl
@[simp] theorem temps_accept (s : State) (i : Instr) : (s.accept i).temps = [] := rfl

end Sys2Proof.Machine.State
end

