-- ==== Sys2Proof/Laws/Memory.lean ====
section
/-! SUPPORT. The laws of the device's memory: read after write, everything else left alone, and the
canonical form kept by every operation. -/

namespace Sys2Proof.Machine.Memory

@[simp] theorem read_nil (a : Nat) : read [] a = unlisted a := rfl

@[simp] theorem read_cons_same (a : Nat) (b : Byte) (m : Memory) : read ((a, b) :: m) a = b := by
  simp [read]

theorem read_cons_ne {a k : Nat} (h : a ≠ k) (b : Byte) (m : Memory) :
    read ((k, b) :: m) a = read m a := by simp [read, h]

/-- An address below every listed one is unlisted. -/
theorem read_of_lt {a : Nat} : ∀ {m : Memory}, (∀ c ∈ m, a < c.1) → read m a = unlisted a
  | [], _ => rfl
  | (k, b) :: m, h => by
    have hk : a < k := h (k, b) (by simp)
    rw [read_cons_ne (by omega), read_of_lt fun c hc => h c (by simp [hc])]

/-- Writing one register leaves every other register alone. -/
theorem read_write_ne {a x : Nat} (h : x ≠ a) (v : Byte) :
    ∀ m : Memory, read (write m a v) x = read m x
  | [] => by simp only [write, cons]; split <;> simp [read, h]
  | (k, b) :: m => by
    have ih := read_write_ne h v m
    simp only [write, cons]
    (repeat' split) <;> subst_vars <;> simp_all [read]

theorem wf_cons_iff {k : Nat} {b : Byte} {m : Memory} :
    wf ((k, b) :: m) = true ↔ b ≠ unlisted k ∧ (∀ c ∈ m, k < c.1) ∧ wf m = true := by
  simp [wf, and_assoc]

/-- A register reads as what was written to it last. -/
theorem read_write_same (a : Nat) (v : Byte) :
    ∀ m : Memory, wf m = true → read (write m a v) a = v
  | [], _ => by simp only [write, cons]; split <;> simp_all [read]
  | (k, b) :: m, h => by
    obtain ⟨_, hlt, hm⟩ := wf_cons_iff.1 h
    have ih := read_write_same a v m hm
    simp only [write, cons]
    split
    · rename_i hak
      split
      · rename_i hv
        rw [read_cons_ne (by omega), read_of_lt fun c hc => by have := hlt c hc; omega, hv]
      · simp
    · split
      · rename_i hak
        subst hak
        split
        · rename_i hv
          rw [read_of_lt hlt, hv]
        · simp
      · rename_i _ hak
        rw [read_cons_ne hak, ih]

theorem mem_write {m : Memory} {a : Nat} {v : Byte} {c : Host.Cell} (h : c ∈ write m a v) :
    c = (a, v) ∨ c ∈ m := by
  induction m with
  | nil => simp only [write, cons] at h; split at h <;> simp_all
  | cons kb m ih =>
    obtain ⟨k, b⟩ := kb
    simp only [write, cons] at h
    (repeat' split at h) <;> simp_all <;> tauto

/-- A write keeps the canonical form. -/
theorem wf_write (a : Nat) (v : Byte) : ∀ m : Memory, wf m = true → wf (write m a v) = true
  | [], _ => by simp only [write, cons]; split <;> simp_all [wf]
  | (k, b) :: m, h => by
    obtain ⟨hb, hlt, hm⟩ := wf_cons_iff.1 h
    have ih := wf_write a v m hm
    simp only [write, cons]
    split
    · rename_i hak
      split
      · exact h
      · rename_i hv
        refine wf_cons_iff.2 ⟨hv, ?_, h⟩
        intro c hc
        rcases List.mem_cons.1 hc with rfl | hc
        · exact hak
        · have := hlt c hc; omega
    · split
      · rename_i hak
        subst hak
        split
        · exact hm
        · rename_i hv
          exact wf_cons_iff.2 ⟨hv, hlt, hm⟩
      · rename_i h1 h2
        refine wf_cons_iff.2 ⟨hb, ?_, ih⟩
        intro c hc
        rcases mem_write hc with rfl | hc
        · show k < a; omega
        · exact hlt c hc

end Sys2Proof.Machine.Memory

namespace Sys2Proof.Machine

open Memory

/-- The registers a device may list: those the source maps. -/
def Memory.MappedOnly (d : Memory) : Prop := ∀ c ∈ d, c.1 ≤ 0x0C

theorem devStore_wf {d : Memory} (a : Addr) (v : Byte) (h : Memory.wf d = true) :
    Memory.wf (devStore a v d) = true := by
  unfold devStore; split
  · exact wf_write _ _ _ h
  · exact h

theorem devStore_mapped {d : Memory} (a : Addr) (v : Byte) (h : d.MappedOnly) :
    (devStore a v d).MappedOnly := by
  unfold devStore; split
  · rename_i hs
    intro c hc
    rcases mem_write hc with rfl | hc
    · simp only [storesWrites, decide_eq_true_eq] at hs; show a.toNat ≤ _; omega
    · exact h c hc
  · exact h

/-- A completed write changes no register but its own. -/
theorem read_devStore_ne {x : Nat} (a : Addr) (v : Byte) (d : Memory) (h : x ≠ a.toNat) :
    Memory.read (devStore a v d) x = Memory.read d x := by
  unfold devStore; split
  · exact read_write_ne h v d
  · rfl

/-- A completed write to a configuration register is kept (R40). -/
theorem read_devStore_same {a : Addr} (v : Byte) {d : Memory} (hs : storesWrites a = true)
    (h : Memory.wf d = true) : Memory.read (devStore a v d) a.toNat = v := by
  simp [devStore, hs, read_write_same _ _ _ h]

/-- A completed write to any other register changes nothing (R41, R43). -/
theorem devStore_of_not_stores {a : Addr} (v : Byte) (d : Memory) (hs : storesWrites a = false) :
    devStore a v d = d := by simp [devStore, hs]

theorem applyAct_wf (p : Config.Params) {d : Memory} (x : EnvAct) (h : Memory.wf d = true) :
    Memory.wf (applyAct p d x) = true := by
  cases x with
  | sensor a v => simp only [applyAct]; split
                  · exact wf_write _ _ _ h
                  · exact h
  | masterWrite a v => exact devStore_wf a v h
  | masterRead a => exact h
  | deviceReset a b m => exact devStore_wf _ _ (devStore_wf _ _ (devStore_wf _ _ h))

theorem applyAct_mapped (p : Config.Params) {d : Memory} (x : EnvAct) (h : d.MappedOnly) :
    (applyAct p d x).MappedOnly := by
  cases x with
  | sensor a v =>
    simp only [applyAct]; split
    · rename_i hs
      intro c hc
      rcases mem_write hc with rfl | hc
      · simp only [sensorDriven, Bool.and_eq_true, decide_eq_true_eq] at hs
        show a.toNat ≤ _; omega
      · exact h c hc
    · exact h
  | masterWrite a v => exact devStore_mapped a v h
  | masterRead a => exact h
  | deviceReset a b m => exact devStore_mapped _ _ (devStore_mapped _ _ (devStore_mapped _ _ h))

theorem applyActs_wf (p : Config.Params) (xs : List EnvAct) :
    ∀ {d : Memory}, Memory.wf d = true → Memory.wf (applyActs p xs d) = true := by
  induction xs with
  | nil => exact fun h => h
  | cons x xs ih => exact fun h => ih (applyAct_wf p x h)

theorem applyActs_mapped (p : Config.Params) (xs : List EnvAct) :
    ∀ {d : Memory}, d.MappedOnly → (applyActs p xs d).MappedOnly := by
  induction xs with
  | nil => exact fun h => h
  | cons x xs ih => exact fun h => ih (applyAct_mapped p x h)

@[simp] theorem applyActs_nil (p : Config.Params) (d : Memory) : applyActs p [] d = d := rfl

/-- No agent changes an identification register (R41). -/
theorem read_applyAct_id (p : Config.Params) (d : Memory) (x : EnvAct) {a : Nat} (h : 0x0A ≤ a) :
    Memory.read (applyAct p d x) a = Memory.read d a := by
  have store : ∀ (r : Addr) (v : Byte) (d : Memory),
      Memory.read (devStore r v d) a = Memory.read d a := by
    intro r v d
    unfold devStore; split
    · rename_i hs
      simp only [storesWrites, decide_eq_true_eq] at hs
      exact read_write_ne (by omega) v d
    · rfl
  cases x with
  | sensor r v =>
    simp only [applyAct]; split
    · rename_i hs
      simp only [sensorDriven, Bool.and_eq_true, decide_eq_true_eq] at hs
      exact read_write_ne (by omega) v d
    · rfl
  | masterWrite r v => exact store r v d
  | masterRead r => rfl
  | deviceReset x y m => simp only [applyAct, store]

theorem read_applyActs_id (p : Config.Params) (xs : List EnvAct) {a : Nat} (h : 0x0A ≤ a) :
    ∀ d : Memory, Memory.read (applyActs p xs d) a = Memory.read d a := by
  induction xs with
  | nil => exact fun _ => rfl
  | cons x xs ih => exact fun d => (ih _).trans (read_applyAct_id p d x h)

/-- The sensor and another master's read leave the configuration registers (R41, R42). -/
theorem read_applyAct_config (p : Config.Params) (d : Memory) {x : EnvAct} {a : Nat}
    (hx : x.leavesConfiguration = true) (h : a ≤ 2) : Memory.read (applyAct p d x) a = Memory.read d a := by
  cases x with
  | sensor r v =>
    simp only [applyAct]; split
    · rename_i hs
      simp only [sensorDriven, Bool.and_eq_true, decide_eq_true_eq] at hs
      exact read_write_ne (by omega) v d
    · rfl
  | masterRead r => rfl
  | masterWrite r v => cases hx
  | deviceReset x y m => cases hx

theorem read_applyActs_config (p : Config.Params) {a : Nat} (xs : List EnvAct)
    (hx : ∀ x ∈ xs, x.leavesConfiguration = true) (h : a ≤ 2) (d : Memory) :
    Memory.read (applyActs p xs d) a = Memory.read d a := by
  induction xs generalizing d with
  | nil => rfl
  | cons x xs ih =>
    exact (ih (fun y hy => hx y (by simp [hy])) _).trans (read_applyAct_config p d (hx x (by simp)) h)

end Sys2Proof.Machine
end

