-- ==== Sys2Proof/Laws/Ops.lean ====
section
/-! SUPPORT. What the shared operations can do, said once: one entry of a transaction list, a whole list,
a plan, `issue`, and `exec` as `issue` of its command's plan. -/

namespace Sys2Proof.Machine

@[simp] theorem waitForHost_eq (s : State) : s.waitForHost = s.afterMoment := rfl

/-- The two ways a read transaction ends (R32). -/
theorem memRead_eq (a : Addr) (s : State) :
    memRead a s =
      ((s.answer a).isSome,
        let t := { s.afterMoment with draws := if s.drawsFree a then s.draws + 1 else s.draws }.log
          (.read a (s.answer a))
        match s.answer a with
        | none => t
        | some b => t.advance [b]) := by
  unfold memRead
  cases h : s.answer a <;> simp

/-- What every transaction and every wait leaves alone, and the one moment it uses. -/
structure Between (s t : State) : Prop where
  calX : t.calX = s.calX
  calY : t.calY = s.calY
  calZ : t.calZ = s.calZ
  inited : t.inited = s.inited
  busy : t.inflight.isSome = s.inflight.isSome
  rsp : t.rsp = s.rsp
  host : t.host = s.host
  cfg : t.cfg = s.cfg

theorem Between.refl (s : State) : Between s s := ⟨rfl, rfl, rfl, rfl, rfl, rfl, rfl, rfl⟩

theorem Between.trans {s t u : State} (h : Between s t) (k : Between t u) : Between s u :=
  ⟨k.calX.trans h.calX, k.calY.trans h.calY, k.calZ.trans h.calZ, k.inited.trans h.inited,
    k.busy.trans h.busy, k.rsp.trans h.rsp, k.host.trans h.host, k.cfg.trans h.cfg⟩

/-- Everything one entry of a transaction list can do to the state it does not say itself. -/
theorem perform_between (m : Micro) (s : State) : Between s (m.perform s).2 := by
  cases m with
  | read a =>
    simp only [Micro.perform, memRead_eq]
    cases s.answer a <;> constructor <;> simp
  | write a v =>
    simp only [Micro.perform, memWrite]
    split <;> constructor <;> simp
  | wait t => constructor <;> simp [Micro.perform, waitFor]

/-- One entry adds one event to the port's record. -/
theorem perform_trace (m : Micro) (s : State) :
    ∃ e, (m.perform s).2.trace = s.trace ++ [e] := by
  cases m with
  | read a =>
    simp only [Micro.perform, memRead_eq]
    cases h : s.answer a <;> exact ⟨_, rfl⟩
  | write a v =>
    simp only [Micro.perform, memWrite]
    split <;> exact ⟨_, rfl⟩
  | wait t => exact ⟨_, rfl⟩

/-- The device after one entry: the environment's actions, then the byte of a completed write. -/
theorem perform_dev (m : Micro) (s : State) :
    (m.perform s).2.dev = s.afterMoment.dev ∨
      ∃ a v, m = .write a v ∧ (m.perform s).1 = true ∧
        (m.perform s).2.dev = devStore a (v s.temps) s.afterMoment.dev := by
  cases m with
  | read a =>
    left
    simp only [Micro.perform, memRead_eq]
    cases s.answer a <;> rfl
  | write a v =>
    simp only [Micro.perform, memWrite]
    split
    · exact .inl rfl
    · exact .inr ⟨a, v, rfl, rfl, rfl⟩
  | wait t => exact .inl rfl

theorem runMicros_nil (s : State) : runMicros [] s = (true, s) := rfl

theorem runMicros_cons (m : Micro) (ms : List Micro) (s : State) :
    runMicros (m :: ms) s =
      if (m.perform s).1 then runMicros ms (m.perform s).2 else (false, (m.perform s).2) := by
  rw [runMicros]
  rcases h : m.perform s with ⟨b, s'⟩
  cases b <;> simp

theorem runMicros_between (ms : List Micro) : ∀ s : State, Between s (runMicros ms s).2 := by
  induction ms with
  | nil => exact Between.refl
  | cons m ms ih =>
    intro s
    rw [runMicros_cons]
    split
    · exact (perform_between m s).trans (ih _)
    · exact perform_between m s

theorem runMicros_trace_length (ms : List Micro) :
    ∀ s : State, (runMicros ms s).2.trace.length ≤ s.trace.length + ms.length := by
  induction ms with
  | nil => intro s; simp [runMicros_nil]
  | cons m ms ih =>
    intro s
    obtain ⟨e, he⟩ := perform_trace m s
    have hl : (m.perform s).2.trace.length = s.trace.length + 1 := by simp [he]
    rw [runMicros_cons]
    split
    · have := ih (m.perform s).2
      simp only [List.length_cons]; omega
    · simp only [List.length_cons]; omega

/-- A property of the device kept by the environment's actions and by the block's writes is kept by a
transaction list. -/
theorem runMicros_dev {P : Memory → Prop} (ms : List Micro)
    (hact : ∀ (p : Config.Params) (xs : List EnvAct) (d : Memory), P d → P (applyActs p xs d))
    (hst : ∀ m ∈ ms, ∀ a v, m = .write a v → ∀ (b : Byte) (d : Memory), P d → P (devStore a b d)) :
    ∀ s : State, P s.dev → P (runMicros ms s).2.dev := by
  induction ms with
  | nil => exact fun s h => h
  | cons m ms ih =>
    intro s h
    have h1 : P (m.perform s).2.dev := by
      rcases perform_dev m s with e | ⟨a, v, hm, _, e⟩
      · rw [e]; exact hact _ _ _ h
      · rw [e]; exact hst m (by simp) a v hm _ _ (hact _ _ _ h)
    rw [runMicros_cons]
    split
    · exact ih (fun m' hm' => hst m' (by simp [hm'])) _ h1
    · exact h1

/-- How a plan ends. -/
theorem Plan.run_eq (p : Plan) (s : State) :
    p.run s =
      if p.valid then
        if (runMicros (p.micros.drop s.seq.toNat) s).1 then
          (p.finish (runMicros (p.micros.drop s.seq.toNat) s).2).respond .ok
            (p.lanes (runMicros (p.micros.drop s.seq.toNat) s).2.temps
              (runMicros (p.micros.drop s.seq.toNat) s).2)
        else (runMicros (p.micros.drop s.seq.toNat) s).2.failWith .transportError
      else s.failWith .configurationError := by
  unfold Plan.run
  rcases h : runMicros (p.micros.drop s.seq.toNat) s with ⟨b, s'⟩
  cases b <;> simp

/-- After any run of a plan the block is idle (R218). -/
theorem Plan.run_idle (p : Plan) (s : State) : (p.run s).inflight = none := by
  rw [Plan.run_eq]
  split
  · split <;> rfl
  · rfl

theorem issue_of_idle {s : State} (h : s.inflight = none) (i : Instr) (p : Plan) :
    issue i p s = .next (p.run (p.start (s.accept i))) := by
  simp [issue, State.busy, h]

/-- Every meaning is `issue` of its command's plan. -/
theorem exec_eq_issue (i : Instr) (s : State) : exec i s = issue i (planOf s.cfg i) s := by
  cases i <;> rfl

/-- What `exec` can answer. -/
theorem exec_next_iff {i : Instr} {s t : State} :
    exec i s = .next t ↔
      s.inflight = none ∧ t = (planOf s.cfg i).run ((planOf s.cfg i).start (s.accept i)) := by
  rw [exec_eq_issue]
  unfold issue
  cases h : s.inflight with
  | none => simp [State.busy, h, eq_comm]
  | some f => simp [State.busy, h]

theorem exec_of_idle {s : State} (h : s.inflight = none) (i : Instr) :
    exec i s = .next ((planOf s.cfg i).run ((planOf s.cfg i).start (s.accept i))) :=
  exec_next_iff.2 ⟨h, rfl⟩

end Sys2Proof.Machine
end

