-- ==== Sys2Proof/Laws/Environment.lean ====
section
/-! SUPPORT. The environment's moments seen from a state and from the states after it, and the two ends of
each transaction in those terms. -/

namespace Sys2Proof.Machine

namespace State

theorem nextMoment_eq (s : State) : s.nextMoment = s.moment 0 := by
  unfold nextMoment moment
  cases s.env <;> rfl

/-- The moments depend on the environment's list alone. -/
theorem moment_of_env {s t : State} {n : Nat} (h : t.env = s.env.drop n) (k : Nat) :
    t.moment k = s.moment (n + k) := by
  simp [moment, h, List.getD_eq_getElem?_getD]

@[simp] theorem afterMoment_moment (s : State) (k : Nat) :
    s.afterMoment.moment k = s.moment (k + 1) := by
  rw [moment_of_env (s := s) (n := 1) (by simp [List.drop_one]), Nat.add_comm]

theorem devAt_succ (s : State) (n : Nat) :
    s.devAt (n + 1) = applyActs s.cfg (s.moment n).acts (s.devAt n) := rfl

theorem afterMoment_dev_eq (s : State) : s.afterMoment.dev = s.devAt 1 := by
  simp [devAt, nextMoment_eq]

/-- With nobody acting the device is as it was. -/
theorem devAt_of_alone {s : State} {n : Nat} (h : s.Alone n) : ∀ k, k ≤ n → s.devAt k = s.dev
  | 0, _ => rfl
  | k + 1, hk => by
    rw [devAt_succ, h k hk, applyActs_nil, devAt_of_alone h k (by omega)]

/-- With no other writer the configuration registers are as they were, whatever the sensor does. -/
theorem read_devAt_config {s : State} {n x : Nat} (h : s.NoOtherWriter n) (hx : x ≤ 2) :
    ∀ k, k ≤ n → Memory.read (s.devAt k) x = Memory.read s.dev x
  | 0, _ => rfl
  | k + 1, hk => by
    rw [devAt_succ, read_applyActs_config _ _ (h k hk) hx, read_devAt_config h hx k (by omega)]

theorem Alone.noOtherWriter {s : State} {n : Nat} (h : s.Alone n) : s.NoOtherWriter n :=
  fun k hk x hx => by simp [h k hk] at hx

theorem Undisturbed.answered {s : State} {n : Nat} (h : s.Undisturbed n) : s.Answered n :=
  fun k hk => (h.1 k hk).1

/-- The environment keeps the canonical form. -/
theorem devAt_wf {s : State} (h : Memory.wf s.dev = true) : ∀ n, Memory.wf (s.devAt n) = true
  | 0 => h
  | n + 1 => applyActs_wf _ _ (devAt_wf h n)

/-- The byte a read of `a` finds now if it is answered. -/
def found (s : State) (a : Addr) : Byte :=
  (s.moment 0).data.getD
    (if mapped a then Memory.read s.afterMoment.dev a.toNat else Config.freeByte s.draws)

theorem found_eq_readByte (s : State) (a : Addr) : s.found a = s.readByte 0 a := by
  rw [found, readByte, afterMoment_dev_eq]

@[simp] theorem accept_moment (s : State) (i : Instr) (k : Nat) : (s.accept i).moment k = s.moment k := rfl

@[simp] theorem accept_busy (s : State) (i : Instr) : (s.accept i).busy = true := rfl

@[simp] theorem accept_devAt (s : State) (i : Instr) (k : Nat) : (s.accept i).devAt k = s.devAt k := by
  induction k with
  | zero => rfl
  | succ k ih => simp [devAt_succ, ih]

/-- What the first read of a command finds. -/
theorem found_accept (s : State) (i : Instr) (a : Addr) : (s.accept i).found a = s.readByte 0 a := by
  rw [found_eq_readByte]
  simp [readByte]

theorem answer_of_ok {s : State} (h : (s.moment 0).fail = false) (a : Addr) :
    s.answer a = some (s.found a) := by
  simp [answer, found, nextMoment_eq, h]

theorem answer_of_fail {s : State} (h : (s.moment 0).fail = true) (a : Addr) :
    s.answer a = none := by
  simp [answer, nextMoment_eq, h]

end State

/-- The state after an answered read of `a`. -/
def readDone (a : Addr) (s : State) : State :=
  ({ s.afterMoment with draws := if s.drawsFree a then s.draws + 1 else s.draws }.log
    (.read a (some (s.found a)))).advance [s.found a]

/-- The state after a completed write of `v` to `a`. -/
def writeDone (a : Addr) (v : Byte) (s : State) : State :=
  ({ s.afterMoment with dev := devStore a v s.afterMoment.dev }.log (.write a v true)).advance []

/-- An answered read. -/
theorem perform_read_ok {s : State} (h : (s.moment 0).fail = false) (a : Addr) :
    (Micro.read a).perform s = (true, readDone a s) := by
  simp [Micro.perform, memRead_eq, State.answer_of_ok h, readDone]

/-- A failed read: no byte, and only the environment has acted. -/
theorem perform_read_fail {s : State} (h : (s.moment 0).fail = true) (a : Addr) :
    (Micro.read a).perform s = (false, s.afterMoment.log (.read a none)) := by
  have hd : s.drawsFree a = false := by simp [State.drawsFree, State.nextMoment_eq, h]
  rw [Micro.perform, memRead_eq, State.answer_of_fail h, hd]
  rfl

/-- A completed write. -/
theorem perform_write_ok {s : State} (h : (s.moment 0).fail = false) (a : Addr)
    (v : List Byte → Byte) : (Micro.write a v).perform s = (true, writeDone a (v s.temps) s) := by
  simp [Micro.perform, memWrite, State.nextMoment_eq, h, writeDone]

/-- A failed write: no effect on the device of its own (R47). -/
theorem perform_write_fail {s : State} (h : (s.moment 0).fail = true) (a : Addr)
    (v : List Byte → Byte) :
    (Micro.write a v).perform s = (false, s.afterMoment.log (.write a (v s.temps) false)) := by
  simp [Micro.perform, memWrite, State.nextMoment_eq, h]

/-- The wait always ends; only the environment acts in it (R252). -/
theorem perform_wait (n : Nat) (s : State) : (Micro.wait n).perform s = (true, waitFor n s) := rfl

@[simp] theorem waitFor_calX (n : Nat) (s : State) : (waitFor n s).calX = s.calX := rfl
@[simp] theorem waitFor_calY (n : Nat) (s : State) : (waitFor n s).calY = s.calY := rfl
@[simp] theorem waitFor_calZ (n : Nat) (s : State) : (waitFor n s).calZ = s.calZ := rfl
@[simp] theorem waitFor_inited (n : Nat) (s : State) : (waitFor n s).inited = s.inited := rfl
@[simp] theorem waitFor_host (n : Nat) (s : State) : (waitFor n s).host = s.host := rfl
@[simp] theorem waitFor_cfg (n : Nat) (s : State) : (waitFor n s).cfg = s.cfg := rfl
@[simp] theorem waitFor_env (n : Nat) (s : State) : (waitFor n s).env = s.env.tail := rfl
@[simp] theorem waitFor_dev (n : Nat) (s : State) : (waitFor n s).dev = s.afterMoment.dev := rfl
@[simp] theorem waitFor_temps (n : Nat) (s : State) : (waitFor n s).temps = s.temps := rfl
@[simp] theorem waitFor_busy (n : Nat) (s : State) : (waitFor n s).busy = s.busy := rfl
@[simp] theorem waitFor_trace (n : Nat) (s : State) : (waitFor n s).trace = s.trace ++ [.wait n] := rfl

@[simp] theorem clearInited_moment (s : State) (k : Nat) : s.clearInited.moment k = s.moment k := rfl
@[simp] theorem clearInited_found (s : State) (a : Addr) : s.clearInited.found a = s.found a := rfl
@[simp] theorem clearInited_temps (s : State) : s.clearInited.temps = s.temps := rfl
@[simp] theorem clearInited_busy (s : State) : s.clearInited.busy = s.busy := rfl
@[simp] theorem clearInited_dev (s : State) : s.clearInited.dev = s.dev := rfl
@[simp] theorem clearInited_afterMoment_dev (s : State) :
    s.clearInited.afterMoment.dev = s.afterMoment.dev := rfl

@[simp] theorem readDone_calX (a : Addr) (s : State) : (readDone a s).calX = s.calX := rfl
@[simp] theorem readDone_calY (a : Addr) (s : State) : (readDone a s).calY = s.calY := rfl
@[simp] theorem readDone_calZ (a : Addr) (s : State) : (readDone a s).calZ = s.calZ := rfl
@[simp] theorem readDone_inited (a : Addr) (s : State) : (readDone a s).inited = s.inited := rfl
@[simp] theorem readDone_host (a : Addr) (s : State) : (readDone a s).host = s.host := rfl
@[simp] theorem readDone_cfg (a : Addr) (s : State) : (readDone a s).cfg = s.cfg := rfl
@[simp] theorem readDone_env (a : Addr) (s : State) : (readDone a s).env = s.env.tail := rfl
@[simp] theorem readDone_dev (a : Addr) (s : State) : (readDone a s).dev = s.afterMoment.dev := rfl
@[simp] theorem readDone_trace (a : Addr) (s : State) :
    (readDone a s).trace = s.trace ++ [.read a (some (s.found a))] := rfl
@[simp] theorem readDone_moment (a : Addr) (s : State) (k : Nat) :
    (readDone a s).moment k = s.moment (k + 1) := s.afterMoment_moment k
@[simp] theorem writeDone_calX (a : Addr) (v : Byte) (s : State) : (writeDone a v s).calX = s.calX := rfl
@[simp] theorem writeDone_calY (a : Addr) (v : Byte) (s : State) : (writeDone a v s).calY = s.calY := rfl
@[simp] theorem writeDone_calZ (a : Addr) (v : Byte) (s : State) : (writeDone a v s).calZ = s.calZ := rfl
@[simp] theorem writeDone_inited (a : Addr) (v : Byte) (s : State) :
    (writeDone a v s).inited = s.inited := rfl
@[simp] theorem writeDone_host (a : Addr) (v : Byte) (s : State) : (writeDone a v s).host = s.host := rfl
@[simp] theorem writeDone_cfg (a : Addr) (v : Byte) (s : State) : (writeDone a v s).cfg = s.cfg := rfl
@[simp] theorem writeDone_env (a : Addr) (v : Byte) (s : State) :
    (writeDone a v s).env = s.env.tail := rfl
@[simp] theorem writeDone_dev (a : Addr) (v : Byte) (s : State) :
    (writeDone a v s).dev = devStore a v s.afterMoment.dev := rfl
@[simp] theorem writeDone_trace (a : Addr) (v : Byte) (s : State) :
    (writeDone a v s).trace = s.trace ++ [.write a v true] := rfl
@[simp] theorem writeDone_moment (a : Addr) (v : Byte) (s : State) (k : Nat) :
    (writeDone a v s).moment k = s.moment (k + 1) := s.afterMoment_moment k

/-- The bytes kept after an answered read: one more, if a command is in flight. -/
theorem readDone_temps (a : Addr) (s : State) :
    (readDone a s).temps = if s.busy then s.temps ++ [s.found a] else [] := by
  cases hf : s.inflight <;> simp [readDone, State.temps, State.busy, hf]

/-- A write keeps the bytes read so far. -/
@[simp] theorem writeDone_temps (a : Addr) (v : Byte) (s : State) : (writeDone a v s).temps = s.temps := by
  cases hf : s.inflight <;> simp [writeDone, State.temps, hf]

@[simp] theorem readDone_busy (a : Addr) (s : State) : (readDone a s).busy = s.busy := by
  simp [readDone, State.busy]

@[simp] theorem writeDone_busy (a : Addr) (v : Byte) (s : State) : (writeDone a v s).busy = s.busy := by
  simp [writeDone, State.busy]

end Sys2Proof.Machine
end

