-- ==== Sys2Proof/Laws/Commands.lean ====
section
/-! SUPPORT. What the 25 plans are, read off once, and from it what `exec` can answer, whatever the command
and the environment: the inversion that whole-machine claims cite. -/

namespace Sys2Proof.Machine

/-- Only INIT does anything before its first transaction (R131). -/
theorem plan_start (p : Config.Params) (i : Instr) (s : State) :
    (planOf p i).start s = if i = .init then s.clearInited else s := by
  cases i <;> simp [planOf, rdfPlan, wrfPlan, readFieldPlan, writeFieldPlan, wpackPlan, dec16Plan,
    initPlan, setbiasPlan, setratePlan, setavgPlan, setgainPlan, setmodePlan, getbiasPlan, getratePlan,
    getavgPlan, getgainPlan, getmodePlan, rdidaPlan, rdidbPlan, rdidcPlan, rdstatPlan, passThroughPlan,
    setcalxPlan, setcalyPlan, setcalzPlan, rdaxesPlan, headingPlan, getvaluesPlan]

/-- No list is longer than six entries (R16). -/
theorem plan_length (p : Config.Params) (i : Instr) : (planOf p i).micros.length ≤ 6 := by
  cases i <;> simp [planOf, rdfPlan, wrfPlan, readFieldPlan, writeFieldPlan, wpackPlan, dec16Plan,
    initPlan, setbiasPlan, setratePlan, setavgPlan, setgainPlan, setmodePlan, getbiasPlan, getratePlan,
    getavgPlan, getgainPlan, getmodePlan, rdidaPlan, rdidbPlan, rdidcPlan, rdstatPlan, passThroughPlan,
    setcalxPlan, setcalyPlan, setcalzPlan, rdaxesPlan, headingPlan, getvaluesPlan,
    burst]

theorem mem_storedAddrs {i : Instr} {a : Addr} (h : a ∈ writeAddrs i) (hs : storesWrites a = true) :
    a.toNat ∈ storedAddrs i :=
  List.mem_map.2 ⟨a, List.mem_filter.2 ⟨h, hs⟩, rfl⟩

/-- A write in a command's list is aimed at one of the command's write addresses. -/
theorem plan_writes (p : Config.Params) {i : Instr} {a : Addr} {v : List Byte → Byte}
    (h : Micro.write a v ∈ (planOf p i).micros) : a ∈ writeAddrs i := by
  cases i <;> simp [planOf, rdfPlan, wrfPlan, readFieldPlan, writeFieldPlan, wpackPlan, dec16Plan,
    initPlan, setbiasPlan, setratePlan, setavgPlan, setgainPlan, setmodePlan, getbiasPlan, getratePlan,
    getavgPlan, getgainPlan, getmodePlan, rdidaPlan, rdidbPlan, rdidcPlan, rdstatPlan, passThroughPlan,
    setcalxPlan, setcalyPlan, setcalzPlan, rdaxesPlan, headingPlan, getvaluesPlan,
    burst, writeAddrs] at h ⊢ <;>
    rcases h with _ | _ | _ <;> simp_all

/-- What a command's end writes: `inited` by INIT, an offset by its SETCAL command, nothing else. -/
theorem plan_finish (p : Config.Params) (i : Instr) (s : State) :
    ((planOf p i).finish s).dev = s.dev ∧ ((planOf p i).finish s).trace = s.trace ∧
    ((planOf p i).finish s).host = s.host ∧ ((planOf p i).finish s).cfg = s.cfg ∧
    ((planOf p i).finish s).env = s.env ∧
    ((planOf p i).finish s).inited = (if i = .init then true else s.inited) ∧
    (((planOf p i).finish s).calX = s.calX ∨
      ∃ v, i = .setcalx v ∧ ((planOf p i).finish s).calX = v) ∧
    (((planOf p i).finish s).calY = s.calY ∨
      ∃ v, i = .setcaly v ∧ ((planOf p i).finish s).calY = v) ∧
    (((planOf p i).finish s).calZ = s.calZ ∨
      ∃ v, i = .setcalz v ∧ ((planOf p i).finish s).calZ = v) := by
  cases i <;> simp [planOf, rdfPlan, wrfPlan, readFieldPlan, writeFieldPlan, wpackPlan, dec16Plan,
    initPlan, setbiasPlan, setratePlan, setavgPlan, setgainPlan, setmodePlan, getbiasPlan, getratePlan,
    getavgPlan, getgainPlan, getmodePlan, rdidaPlan, rdidbPlan, rdidcPlan, rdstatPlan, passThroughPlan,
    setcalxPlan, setcalyPlan, setcalzPlan, rdaxesPlan, headingPlan, getvaluesPlan]

/-- The state a command's list starts from. -/
def startState (i : Instr) (s : State) : State := (planOf s.cfg i).start (s.accept i)

@[simp] theorem startState_seq (i : Instr) (s : State) : (startState i s).seq = 0#3 := by
  rw [startState, plan_start]; split <;> rfl
@[simp] theorem startState_temps (i : Instr) (s : State) : (startState i s).temps = [] := by
  rw [startState, plan_start]; split <;> rfl
@[simp] theorem startState_busy (i : Instr) (s : State) : (startState i s).busy = true := by
  rw [startState, plan_start]; split <;> rfl
@[simp] theorem startState_trace (i : Instr) (s : State) : (startState i s).trace = [] := by
  rw [startState, plan_start]; split <;> rfl
@[simp] theorem startState_dev (i : Instr) (s : State) : (startState i s).dev = s.dev := by
  rw [startState, plan_start]; split <;> rfl
@[simp] theorem startState_env (i : Instr) (s : State) : (startState i s).env = s.env := by
  rw [startState, plan_start]; split <;> rfl
@[simp] theorem startState_draws (i : Instr) (s : State) : (startState i s).draws = s.draws := by
  rw [startState, plan_start]; split <;> rfl
@[simp] theorem startState_host (i : Instr) (s : State) : (startState i s).host = s.host := by
  rw [startState, plan_start]; split <;> rfl
@[simp] theorem startState_cfg (i : Instr) (s : State) : (startState i s).cfg = s.cfg := by
  rw [startState, plan_start]; split <;> rfl
@[simp] theorem startState_calX (i : Instr) (s : State) : (startState i s).calX = s.calX := by
  rw [startState, plan_start]; split <;> rfl
@[simp] theorem startState_calY (i : Instr) (s : State) : (startState i s).calY = s.calY := by
  rw [startState, plan_start]; split <;> rfl
@[simp] theorem startState_calZ (i : Instr) (s : State) : (startState i s).calZ = s.calZ := by
  rw [startState, plan_start]; split <;> rfl
theorem startState_inited (i : Instr) (s : State) :
    (startState i s).inited = if i = .init then false else s.inited := by
  rw [startState, plan_start]; split <;> rfl

/-- THE INVERSION: the three ways a command ends. -/
theorem exec_cases {i : Instr} {s t : State} (h : exec i s = .next t) :
    s.inflight = none ∧
    (((planOf s.cfg i).valid = false ∧ t = (startState i s).failWith .configurationError) ∨
     ((planOf s.cfg i).valid = true ∧
        (runMicros (planOf s.cfg i).micros (startState i s)).1 = false ∧
        t = (runMicros (planOf s.cfg i).micros (startState i s)).2.failWith .transportError) ∨
     ((planOf s.cfg i).valid = true ∧
        (runMicros (planOf s.cfg i).micros (startState i s)).1 = true ∧
        t = ((planOf s.cfg i).finish (runMicros (planOf s.cfg i).micros (startState i s)).2).respond .ok
          ((planOf s.cfg i).lanes (runMicros (planOf s.cfg i).micros (startState i s)).2.temps
            (runMicros (planOf s.cfg i).micros (startState i s)).2))) := by
  obtain ⟨hi, ht⟩ := exec_next_iff.1 h
  refine ⟨hi, ?_⟩
  change t = (planOf s.cfg i).run (startState i s) at ht
  rw [Plan.run_eq, startState_seq] at ht
  simp only [BitVec.toNat_ofNat, Nat.zero_mod, List.drop_zero] at ht
  split at ht
  · rename_i hv
    split at ht
    · rename_i hb; exact .inr (.inr ⟨hv, hb, ht⟩)
    · rename_i hb; exact .inr (.inl ⟨hv, by simpa using hb, ht⟩)
  · rename_i hv; exact .inl ⟨by simpa using hv, ht⟩

/-- A property of the device kept by the environment and by writes to the command's own registers is kept
by the command. -/
theorem exec_dev {P : Memory → Prop} {i : Instr} {s t : State} (h : exec i s = .next t)
    (hact : ∀ (p : Config.Params) (xs : List EnvAct) (d : Memory), P d → P (applyActs p xs d))
    (hst : ∀ a, (storesWrites a = true → a.toNat ∈ storedAddrs i) → ∀ (b : Byte) (d : Memory), P d →
      P (devStore a b d))
    (h0 : P s.dev) : P t.dev := by
  have hr := runMicros_dev (planOf s.cfg i).micros hact
    (fun m hm a v e => hst a (mem_storedAddrs (plan_writes s.cfg (e ▸ hm)))) (startState i s) (by simpa using h0)
  obtain ⟨_, ⟨_, rfl⟩ | ⟨_, _, rfl⟩ | ⟨_, _, rfl⟩⟩ := exec_cases h
  · simpa using h0
  · exact hr
  · simpa [(plan_finish s.cfg i _).1] using hr

end Sys2Proof.Machine
end

