-- ==== Sys2Proof/Laws/Encoding.lean ====
section
/-! SUPPORT. The fields of the six command formats: each field of a formatted word reads back as what was
put there, and each zero field reads as zero (30_encoding.md rule R60). -/

namespace Sys2Proof

@[simp] theorem formatN_op (op : BitVec 8) :
    (formatN op).extractLsb' 56 8 = op := by
  unfold formatN
  apply BitVec.eq_of_getLsbD_eq
  intro i hi
  simp only [BitVec.getLsbD_extractLsb', hi, decide_true, Bool.true_and]
  erw [BitVec.getLsbD_append]
  rw [if_neg (by omega)]
  congr 1
  omega

@[simp] theorem formatN_zero (op : BitVec 8) :
    (formatN op).extractLsb' 0 56 = 0#56 := by
  unfold formatN
  apply BitVec.eq_of_getLsbD_eq
  intro i hi
  simp only [BitVec.getLsbD_extractLsb', hi, decide_true, Bool.true_and]
  erw [BitVec.getLsbD_append]
  rw [if_pos (by omega)]
  rw [Nat.zero_add]

@[simp] theorem formatF_op (op : BitVec 8) (reg : Addr) (hb len : Nat) (val : Byte) :
    (formatF op reg hb len val).extractLsb' 56 8 = op := by
  unfold formatF
  apply BitVec.eq_of_getLsbD_eq
  intro i hi
  simp only [BitVec.getLsbD_extractLsb', hi, decide_true, Bool.true_and]
  erw [BitVec.getLsbD_append, BitVec.getLsbD_append, BitVec.getLsbD_append, BitVec.getLsbD_append, BitVec.getLsbD_append]
  rw [if_neg (by omega), if_neg (by omega), if_neg (by omega), if_neg (by omega), if_neg (by omega)]
  congr 1
  omega

@[simp] theorem formatF_reg (op : BitVec 8) (reg : Addr) (hb len : Nat) (val : Byte) :
    (formatF op reg hb len val).extractLsb' 48 8 = reg := by
  unfold formatF
  apply BitVec.eq_of_getLsbD_eq
  intro i hi
  simp only [BitVec.getLsbD_extractLsb', hi, decide_true, Bool.true_and]
  erw [BitVec.getLsbD_append, BitVec.getLsbD_append, BitVec.getLsbD_append, BitVec.getLsbD_append, BitVec.getLsbD_append]
  rw [if_neg (by omega), if_neg (by omega), if_neg (by omega), if_neg (by omega), if_pos (by omega)]
  congr 1
  omega

@[simp] theorem formatF_hb (op : BitVec 8) (reg : Addr) (hb len : Nat) (val : Byte) :
    (formatF op reg hb len val).extractLsb' 40 8 = BitVec.ofNat 8 hb := by
  unfold formatF
  apply BitVec.eq_of_getLsbD_eq
  intro i hi
  simp only [BitVec.getLsbD_extractLsb', hi, decide_true, Bool.true_and]
  erw [BitVec.getLsbD_append, BitVec.getLsbD_append, BitVec.getLsbD_append, BitVec.getLsbD_append]
  rw [if_neg (by omega), if_neg (by omega), if_neg (by omega), if_pos (by omega)]
  congr 1
  omega

@[simp] theorem formatF_len (op : BitVec 8) (reg : Addr) (hb len : Nat) (val : Byte) :
    (formatF op reg hb len val).extractLsb' 32 8 = BitVec.ofNat 8 len := by
  unfold formatF
  apply BitVec.eq_of_getLsbD_eq
  intro i hi
  simp only [BitVec.getLsbD_extractLsb', hi, decide_true, Bool.true_and]
  erw [BitVec.getLsbD_append, BitVec.getLsbD_append, BitVec.getLsbD_append]
  rw [if_neg (by omega), if_neg (by omega), if_pos (by omega)]
  congr 1
  omega

@[simp] theorem formatF_val (op : BitVec 8) (reg : Addr) (hb len : Nat) (val : Byte) :
    (formatF op reg hb len val).extractLsb' 24 8 = val := by
  unfold formatF
  apply BitVec.eq_of_getLsbD_eq
  intro i hi
  simp only [BitVec.getLsbD_extractLsb', hi, decide_true, Bool.true_and]
  erw [BitVec.getLsbD_append, BitVec.getLsbD_append]
  rw [if_neg (by omega), if_pos (by omega)]
  congr 1
  omega

@[simp] theorem formatF_zero (op : BitVec 8) (reg : Addr) (hb len : Nat) (val : Byte) :
    (formatF op reg hb len val).extractLsb' 0 24 = 0#24 := by
  unfold formatF
  apply BitVec.eq_of_getLsbD_eq
  intro i hi
  simp only [BitVec.getLsbD_extractLsb', hi, decide_true, Bool.true_and]
  erw [BitVec.getLsbD_append]
  rw [if_pos (by omega)]
  rw [Nat.zero_add]

@[simp] theorem formatP_op (op : BitVec 8) (reg : Addr) (b0 b1 b2 b3 : Byte) :
    (formatP op reg b0 b1 b2 b3).extractLsb' 56 8 = op := by
  unfold formatP
  apply BitVec.eq_of_getLsbD_eq
  intro i hi
  simp only [BitVec.getLsbD_extractLsb', hi, decide_true, Bool.true_and]
  erw [BitVec.getLsbD_append, BitVec.getLsbD_append, BitVec.getLsbD_append, BitVec.getLsbD_append, BitVec.getLsbD_append, BitVec.getLsbD_append]
  rw [if_neg (by omega), if_neg (by omega), if_neg (by omega), if_neg (by omega), if_neg (by omega), if_neg (by omega)]
  congr 1
  omega

@[simp] theorem formatP_reg (op : BitVec 8) (reg : Addr) (b0 b1 b2 b3 : Byte) :
    (formatP op reg b0 b1 b2 b3).extractLsb' 48 8 = reg := by
  unfold formatP
  apply BitVec.eq_of_getLsbD_eq
  intro i hi
  simp only [BitVec.getLsbD_extractLsb', hi, decide_true, Bool.true_and]
  erw [BitVec.getLsbD_append, BitVec.getLsbD_append, BitVec.getLsbD_append, BitVec.getLsbD_append, BitVec.getLsbD_append, BitVec.getLsbD_append]
  rw [if_neg (by omega), if_neg (by omega), if_neg (by omega), if_neg (by omega), if_neg (by omega), if_pos (by omega)]
  congr 1
  omega

@[simp] theorem formatP_b0 (op : BitVec 8) (reg : Addr) (b0 b1 b2 b3 : Byte) :
    (formatP op reg b0 b1 b2 b3).extractLsb' 40 8 = b0 := by
  unfold formatP
  apply BitVec.eq_of_getLsbD_eq
  intro i hi
  simp only [BitVec.getLsbD_extractLsb', hi, decide_true, Bool.true_and]
  erw [BitVec.getLsbD_append, BitVec.getLsbD_append, BitVec.getLsbD_append, BitVec.getLsbD_append, BitVec.getLsbD_append]
  rw [if_neg (by omega), if_neg (by omega), if_neg (by omega), if_neg (by omega), if_pos (by omega)]
  congr 1
  omega

@[simp] theorem formatP_b1 (op : BitVec 8) (reg : Addr) (b0 b1 b2 b3 : Byte) :
    (formatP op reg b0 b1 b2 b3).extractLsb' 32 8 = b1 := by
  unfold formatP
  apply BitVec.eq_of_getLsbD_eq
  intro i hi
  simp only [BitVec.getLsbD_extractLsb', hi, decide_true, Bool.true_and]
  erw [BitVec.getLsbD_append, BitVec.getLsbD_append, BitVec.getLsbD_append, BitVec.getLsbD_append]
  rw [if_neg (by omega), if_neg (by omega), if_neg (by omega), if_pos (by omega)]
  congr 1
  omega

@[simp] theorem formatP_b2 (op : BitVec 8) (reg : Addr) (b0 b1 b2 b3 : Byte) :
    (formatP op reg b0 b1 b2 b3).extractLsb' 24 8 = b2 := by
  unfold formatP
  apply BitVec.eq_of_getLsbD_eq
  intro i hi
  simp only [BitVec.getLsbD_extractLsb', hi, decide_true, Bool.true_and]
  erw [BitVec.getLsbD_append, BitVec.getLsbD_append, BitVec.getLsbD_append]
  rw [if_neg (by omega), if_neg (by omega), if_pos (by omega)]
  congr 1
  omega

@[simp] theorem formatP_b3 (op : BitVec 8) (reg : Addr) (b0 b1 b2 b3 : Byte) :
    (formatP op reg b0 b1 b2 b3).extractLsb' 16 8 = b3 := by
  unfold formatP
  apply BitVec.eq_of_getLsbD_eq
  intro i hi
  simp only [BitVec.getLsbD_extractLsb', hi, decide_true, Bool.true_and]
  erw [BitVec.getLsbD_append, BitVec.getLsbD_append]
  rw [if_neg (by omega), if_pos (by omega)]
  congr 1
  omega

@[simp] theorem formatP_zero (op : BitVec 8) (reg : Addr) (b0 b1 b2 b3 : Byte) :
    (formatP op reg b0 b1 b2 b3).extractLsb' 0 16 = 0#16 := by
  unfold formatP
  apply BitVec.eq_of_getLsbD_eq
  intro i hi
  simp only [BitVec.getLsbD_extractLsb', hi, decide_true, Bool.true_and]
  erw [BitVec.getLsbD_append]
  rw [if_pos (by omega)]
  rw [Nat.zero_add]

@[simp] theorem formatV8_op (op : BitVec 8) (val : Byte) :
    (formatV8 op val).extractLsb' 56 8 = op := by
  unfold formatV8
  apply BitVec.eq_of_getLsbD_eq
  intro i hi
  simp only [BitVec.getLsbD_extractLsb', hi, decide_true, Bool.true_and]
  erw [BitVec.getLsbD_append, BitVec.getLsbD_append]
  rw [if_neg (by omega), if_neg (by omega)]
  congr 1
  omega

@[simp] theorem formatV8_zero (op : BitVec 8) (val : Byte) :
    (formatV8 op val).extractLsb' 8 48 = 0#48 := by
  unfold formatV8
  apply BitVec.eq_of_getLsbD_eq
  intro i hi
  simp only [BitVec.getLsbD_extractLsb', hi, decide_true, Bool.true_and]
  erw [BitVec.getLsbD_append, BitVec.getLsbD_append]
  rw [if_neg (by omega), if_pos (by omega)]
  congr 1
  omega

@[simp] theorem formatV8_val (op : BitVec 8) (val : Byte) :
    (formatV8 op val).extractLsb' 0 8 = val := by
  unfold formatV8
  apply BitVec.eq_of_getLsbD_eq
  intro i hi
  simp only [BitVec.getLsbD_extractLsb', hi, decide_true, Bool.true_and]
  erw [BitVec.getLsbD_append]
  rw [if_pos (by omega)]
  rw [Nat.zero_add]

@[simp] theorem formatV16_op (op : BitVec 8) (imm16 : Half) :
    (formatV16 op imm16).extractLsb' 56 8 = op := by
  unfold formatV16
  apply BitVec.eq_of_getLsbD_eq
  intro i hi
  simp only [BitVec.getLsbD_extractLsb', hi, decide_true, Bool.true_and]
  erw [BitVec.getLsbD_append, BitVec.getLsbD_append]
  rw [if_neg (by omega), if_neg (by omega)]
  congr 1
  omega

@[simp] theorem formatV16_zero (op : BitVec 8) (imm16 : Half) :
    (formatV16 op imm16).extractLsb' 16 40 = 0#40 := by
  unfold formatV16
  apply BitVec.eq_of_getLsbD_eq
  intro i hi
  simp only [BitVec.getLsbD_extractLsb', hi, decide_true, Bool.true_and]
  erw [BitVec.getLsbD_append, BitVec.getLsbD_append]
  rw [if_neg (by omega), if_pos (by omega)]
  congr 1
  omega

@[simp] theorem formatV16_imm16 (op : BitVec 8) (imm16 : Half) :
    (formatV16 op imm16).extractLsb' 0 16 = imm16 := by
  unfold formatV16
  apply BitVec.eq_of_getLsbD_eq
  intro i hi
  simp only [BitVec.getLsbD_extractLsb', hi, decide_true, Bool.true_and]
  erw [BitVec.getLsbD_append]
  rw [if_pos (by omega)]
  rw [Nat.zero_add]

@[simp] theorem formatH_op (op : BitVec 8) (a b : Op24) :
    (formatH op a b).extractLsb' 56 8 = op := by
  unfold formatH
  apply BitVec.eq_of_getLsbD_eq
  intro i hi
  simp only [BitVec.getLsbD_extractLsb', hi, decide_true, Bool.true_and]
  erw [BitVec.getLsbD_append, BitVec.getLsbD_append, BitVec.getLsbD_append]
  rw [if_neg (by omega), if_neg (by omega), if_neg (by omega)]
  congr 1
  omega

@[simp] theorem formatH_zero (op : BitVec 8) (a b : Op24) :
    (formatH op a b).extractLsb' 48 8 = 0#8 := by
  unfold formatH
  apply BitVec.eq_of_getLsbD_eq
  intro i hi
  simp only [BitVec.getLsbD_extractLsb', hi, decide_true, Bool.true_and]
  erw [BitVec.getLsbD_append, BitVec.getLsbD_append, BitVec.getLsbD_append]
  rw [if_neg (by omega), if_neg (by omega), if_pos (by omega)]
  congr 1
  omega

@[simp] theorem formatH_a (op : BitVec 8) (a b : Op24) :
    (formatH op a b).extractLsb' 24 24 = a := by
  unfold formatH
  apply BitVec.eq_of_getLsbD_eq
  intro i hi
  simp only [BitVec.getLsbD_extractLsb', hi, decide_true, Bool.true_and]
  erw [BitVec.getLsbD_append, BitVec.getLsbD_append]
  rw [if_neg (by omega), if_pos (by omega)]
  congr 1
  omega

@[simp] theorem formatH_b (op : BitVec 8) (a b : Op24) :
    (formatH op a b).extractLsb' 0 24 = b := by
  unfold formatH
  apply BitVec.eq_of_getLsbD_eq
  intro i hi
  simp only [BitVec.getLsbD_extractLsb', hi, decide_true, Bool.true_and]
  erw [BitVec.getLsbD_append]
  rw [if_pos (by omega)]
  rw [Nat.zero_add]

/-- RDF has no `val` operand: its low 32 bits are zero (R61). -/
@[simp] theorem formatF_rdf_zero (op : BitVec 8) (reg : Addr) (hb len : Nat) :
    (formatF op reg hb len 0#8).extractLsb' 0 32 = 0#32 := by
  unfold formatF
  apply BitVec.eq_of_getLsbD_eq
  intro i hi
  simp only [BitVec.getLsbD_extractLsb', hi, decide_true, Bool.true_and]
  erw [BitVec.getLsbD_append, BitVec.getLsbD_append]
  by_cases h : 0 + i < 24
  · rw [if_pos h]; simp
  · rw [if_neg h, if_pos (by omega)]; simp

end Sys2Proof
end

