-- ==== Sys2Proof/Laws/Heading.lean ====
section
/-! SUPPORT. The heading functions against real analysis: the partial sums enclose the arctangent and π/4,
the octant is a residual of the same direction, and `theta` is its turns plus the residual's arctangent. -/

namespace Sys2Proof.Machine.Heading

/-- The tail as a sum. -/
theorem tail_eq (n : Nat) : ∀ (j : Nat) (w : ℚ),
    ((arctanTail n j w : ℚ) : ℝ) = ∑ i ∈ Finset.range n, (-1 : ℝ) ^ i * ((w : ℝ) ^ i / ((2 * (j + i) + 1 : Nat) : ℝ)) := by
  induction n with
  | zero => intro j w; simp [arctanTail]
  | succ n ih =>
    intro j w
    rw [arctanTail, Finset.sum_range_succ']
    push_cast [ih]
    rw [Finset.mul_sum, sub_eq_add_neg, add_comm, ← Finset.sum_neg_distrib]
    congr 1
    · apply Finset.sum_congr rfl
      intro i _
      have : (2 * (j + 1 + i : ℝ) + 1) = 2 * (j + (i + 1)) + 1 := by ring
      rw [this]; ring
    · simp
 
/-- `arctanSum` is the partial sum of the arctangent series. -/
theorem sum_eq (n : Nat) (v : ℚ) :
    ((arctanSum n v : ℚ) : ℝ) = ∑ i ∈ Finset.range n, (-1 : ℝ) ^ i * ((v : ℝ) ^ (2 * i + 1) / ((2 * i + 1 : Nat) : ℝ)) := by
  rw [arctanSum, Rat.cast_mul, tail_eq, Finset.mul_sum]
  apply Finset.sum_congr rfl
  intro i _
  push_cast
  rw [zero_add, pow_succ, pow_mul, pow_two]
  ring

theorem powers_antitone {v : ℝ} (h0 : 0 ≤ v) (h1 : v ≤ 1) :
    Antitone fun i : Nat => v ^ (2 * i + 1) / ((2 * i + 1 : Nat) : ℝ) := by
  intro i j h
  have hp : v ^ (2 * j + 1) ≤ v ^ (2 * i + 1) := pow_le_pow_of_le_one h0 h1 (by omega)
  have hd : ((2 * i + 1 : Nat) : ℝ) ≤ ((2 * j + 1 : Nat) : ℝ) := by exact_mod_cast (by omega : 2 * i + 1 ≤ 2 * j + 1)
  exact div_le_div₀ (by positivity) hp (by positivity) hd

theorem series {v : ℝ} (h0 : 0 ≤ v) (h1 : v < 1) :
    Filter.Tendsto (fun n : Nat => ∑ i ∈ Finset.range n, (-1 : ℝ) ^ i * (v ^ (2 * i + 1) / ((2 * i + 1 : Nat) : ℝ)))
      Filter.atTop (nhds (Real.arctan v)) := by
  have h := (Real.hasSum_arctan (x := v) (by rw [Real.norm_of_nonneg h0]; exact h1)).tendsto_sum_nat
  refine h.congr fun n => Finset.sum_congr rfl fun i _ => by rw [mul_div_assoc]

/-- An even partial sum is a lower bound. -/
theorem arctanLo_le {v : ℚ} (h0 : 0 ≤ v) (h1 : v < 1) : ((arctanLo v : ℚ) : ℝ) ≤ Real.arctan v := by
  have h0' : (0 : ℝ) ≤ v := by exact_mod_cast h0
  have h1' : (v : ℝ) < 1 := by exact_mod_cast h1
  rw [arctanLo, sum_eq]
  exact (powers_antitone h0' h1'.le).alternating_series_le_tendsto (series h0' h1') 32

/-- An odd partial sum is an upper bound. -/
theorem le_arctanHi {v : ℚ} (h0 : 0 ≤ v) (h1 : v < 1) : Real.arctan v ≤ ((arctanHi v : ℚ) : ℝ) := by
  have h0' : (0 : ℝ) ≤ v := by exact_mod_cast h0
  have h1' : (v : ℝ) < 1 := by exact_mod_cast h1
  rw [arctanHi, sum_eq]
  exact (powers_antitone h0' h1'.le).tendsto_le_alternating_series (series h0' h1') 32

/-- The two bounds differ by one term of the series. -/
theorem arctan_width (v : ℚ) : arctanHi v - arctanLo v = v ^ 129 / 129 := by
  have : (((arctanHi v - arctanLo v : ℚ)) : ℝ) = ((v ^ 129 / 129 : ℚ) : ℝ) := by
    push_cast
    rw [arctanHi, arctanLo, sum_eq, sum_eq, Finset.sum_range_succ]
    norm_num
  exact_mod_cast this

theorem quarter_le : ((quarterLo : ℚ) : ℝ) ≤ Real.pi / 4 := by
  have a := arctanLo_le (v := 1/2) (by norm_num) (by norm_num)
  have b := arctanLo_le (v := 1/3) (by norm_num) (by norm_num)
  have c := Real.arctan_inv_2_add_arctan_inv_3
  rw [quarterLo]
  push_cast at a b ⊢
  rw [one_div] at a b
  rw [one_div, one_div]
  linarith
theorem le_quarter : Real.pi / 4 ≤ ((quarterHi : ℚ) : ℝ) := by
  have a := le_arctanHi (v := 1/2) (by norm_num) (by norm_num)
  have b := le_arctanHi (v := 1/3) (by norm_num) (by norm_num)
  have c := Real.arctan_inv_2_add_arctan_inv_3
  rw [quarterHi]
  push_cast at a b ⊢
  rw [one_div] at a b
  rw [one_div, one_div]
  linarith

/-- What `octant` answers: a residual vector of slope at most 1/2, at most eight turns, not below the axis
without a turn and below it after eight. -/
structure Residual (o : Octant) : Prop where
  right : 0 < o.a
  flat : 2 * (o.b.natAbs : Int) ≤ o.a
  few : o.k ≤ 8
  start : o.k = 0 → 0 ≤ o.b
  last : o.k = 8 → o.b < 0

theorem isResidual_iff (k : Nat) (a b : Int) :
    isResidual k a b = true ↔ (0 < a ∧ 2 * (b.natAbs : Int) ≤ a) ∧ (k ≠ 0 ∨ 0 ≤ b) := by
  simp [isResidual]

/-- The vector points right and its slope is at most 1/2 in size. -/
def Flat (a b : Int) : Prop := 0 < a ∧ 2 * (b.natAbs : Int) ≤ a

theorem Flat.scale {n a b : Int} (hn : 0 < n) (h : Flat a b) : Flat (n * a) (n * b) := by
  obtain ⟨h1, h2⟩ := h
  refine ⟨Int.mul_pos hn h1, ?_⟩
  rw [Int.natAbs_mul, Nat.cast_mul, Int.natAbs_of_nonneg hn.le]
  nlinarith

/-- Every direction is within 26° of a multiple of 45°. -/
theorem flat_cover {a b : Int} (h : ¬(a = 0 ∧ b = 0)) :
    Flat a b ∨ Flat (a + b) (b - a) ∨ Flat b (-a) ∨ Flat (b - a) (-a - b) ∨ Flat (-a) (-b) ∨
      Flat (-a - b) (a - b) ∨ Flat (-b) a ∨ Flat (a - b) (a + b) := by
  unfold Flat
  by_cases h0 : 2 * (b.natAbs : Int) ≤ a
  · exact .inl (by omega)
  by_cases h4 : 2 * (b.natAbs : Int) ≤ -a
  · exact .inr (.inr (.inr (.inr (.inl (by omega)))))
  by_cases h2 : 2 * (a.natAbs : Int) ≤ b
  · exact .inr (.inr (.inl (by omega)))
  by_cases h6 : 2 * (a.natAbs : Int) ≤ -b
  · exact .inr (.inr (.inr (.inr (.inr (.inr (.inl (by omega)))))))
  by_cases ha : 0 < a <;> by_cases hb : 0 < b
  · exact .inr (.inl (by omega))
  · exact .inr (.inr (.inr (.inr (.inr (.inr (.inr (by omega)))))))
  · exact .inr (.inr (.inr (.inl (by omega))))
  · exact .inr (.inr (.inr (.inr (.inr (.inl (by omega))))))

theorem findOctant_step (n k : Nat) (a b : Int) :
    (isResidual k a b = true ∧ findOctant (n + 1) k a b = ⟨k, a, b⟩) ∨
      (¬(Flat a b ∧ (k ≠ 0 ∨ 0 ≤ b)) ∧ findOctant (n + 1) k a b = findOctant n (k + 1) (a + b) (b - a)) := by
  rw [findOctant]
  by_cases h : isResidual k a b = true
  · exact .inl ⟨h, by rw [if_pos h]⟩
  · exact .inr ⟨fun g => h ((isResidual_iff k a b).2 g), by rw [if_neg h]⟩

theorem residual_of {k : Nat} {a b : Int} (h : isResidual k a b = true) (hk : k < 8) : Residual ⟨k, a, b⟩ := by
  obtain ⟨⟨h1, h2⟩, h3⟩ := (isResidual_iff k a b).1 h
  exact ⟨h1, h2, by dsimp only; omega, fun e => by dsimp only at e ⊢; omega, fun e => by dsimp only at e; omega⟩

/-- Eight turns are enough for every vector. -/
theorem octant_residual {a b : Int} (h : ¬(a = 0 ∧ b = 0)) : Residual (octant a b) := by
  unfold octant
  rcases findOctant_step 7 0 a b with ⟨h0, e⟩ | ⟨h0, e⟩
  · rw [e]; exact residual_of h0 (by omega)
  rw [e]
  rcases findOctant_step 6 1 (a + b) (b - a) with ⟨h1, e⟩ | ⟨h1, e⟩
  · rw [e]; exact residual_of h1 (by omega)
  rw [e, show a + b + (b - a) = 2 * b by ring, show b - a - (a + b) = 2 * -a by ring]
  rcases findOctant_step 5 2 (2 * b) (2 * -a) with ⟨h2, e⟩ | ⟨h2, e⟩
  · rw [e]; exact residual_of h2 (by omega)
  rw [e, show 2 * b + 2 * -a = 2 * (b - a) by ring, show 2 * -a - 2 * b = 2 * (-a - b) by ring]
  rcases findOctant_step 4 3 (2 * (b - a)) (2 * (-a - b)) with ⟨h3, e⟩ | ⟨h3, e⟩
  · rw [e]; exact residual_of h3 (by omega)
  rw [e, show 2 * (b - a) + 2 * (-a - b) = 4 * -a by ring, show 2 * (-a - b) - 2 * (b - a) = 4 * -b by ring]
  rcases findOctant_step 3 4 (4 * -a) (4 * -b) with ⟨h4, e⟩ | ⟨h4, e⟩
  · rw [e]; exact residual_of h4 (by omega)
  rw [e, show 4 * -a + 4 * -b = 4 * (-a - b) by ring, show 4 * -b - 4 * -a = 4 * (a - b) by ring]
  rcases findOctant_step 2 5 (4 * (-a - b)) (4 * (a - b)) with ⟨h5, e⟩ | ⟨h5, e⟩
  · rw [e]; exact residual_of h5 (by omega)
  rw [e, show 4 * (-a - b) + 4 * (a - b) = 8 * -b by ring, show 4 * (a - b) - 4 * (-a - b) = 8 * a by ring]
  rcases findOctant_step 1 6 (8 * -b) (8 * a) with ⟨h6, e⟩ | ⟨h6, e⟩
  · rw [e]; exact residual_of h6 (by omega)
  rw [e, show 8 * -b + 8 * a = 8 * (a - b) by ring, show 8 * a - 8 * -b = 8 * (a + b) by ring]
  rcases findOctant_step 0 7 (8 * (a - b)) (8 * (a + b)) with ⟨h7, e⟩ | ⟨h7, e⟩
  · rw [e]; exact residual_of h7 (by omega)
  rw [e, findOctant, show 8 * (a - b) + 8 * (a + b) = 16 * a by ring, show 8 * (a + b) - 8 * (a - b) = 16 * b by ring]
  rcases flat_cover h with p | p | p | p | p | p | p | p
  · have hb : ¬0 ≤ b := fun hb => h0 ⟨p, .inr hb⟩
    obtain ⟨q1, q2⟩ := p
    constructor <;> dsimp only <;> omega
  · exact absurd ⟨p, .inl (by omega)⟩ h1
  · exact absurd ⟨p.scale (by omega), .inl (by omega)⟩ h2
  · exact absurd ⟨p.scale (by omega), .inl (by omega)⟩ h3
  · exact absurd ⟨p.scale (by omega), .inl (by omega)⟩ h4
  · exact absurd ⟨p.scale (by omega), .inl (by omega)⟩ h5
  · exact absurd ⟨p.scale (by omega), .inl (by omega)⟩ h6
  · exact absurd ⟨p.scale (by omega), .inl (by omega)⟩ h7

theorem findOctant_turned (n : Nat) : ∀ (k : Nat) (a b : Int) (z : ℂ),
    z * (1 - Complex.I) ^ k = (a : ℂ) + b * Complex.I →
    z * (1 - Complex.I) ^ (findOctant n k a b).k =
      ((findOctant n k a b).a : ℂ) + (findOctant n k a b).b * Complex.I := by
  induction n with
  | zero => intro k a b z h; exact h
  | succ n ih =>
    intro k a b z h
    rw [findOctant]
    split
    · exact h
    · apply ih
      rw [pow_succ, ← mul_assoc, h]
      push_cast
      linear_combination (-(b : ℂ)) * Complex.I_sq

/-- Each turn multiplies the vector, as a complex number, by `1 - i`. -/
theorem octant_turned (a b : Int) :
    ((a : ℂ) + b * Complex.I) * (1 - Complex.I) ^ (octant a b).k =
      ((octant a b).a : ℂ) + (octant a b).b * Complex.I :=
  findOctant_turned 8 0 a b _ (by simp)

/-- The angle of a direction in `[0, 2π)` is unique (R186). -/
theorem arg_unique {z : ℂ} {r φ : ℝ} (hr : 0 < r) (h0 : 0 ≤ φ) (h1 : φ < 2 * Real.pi)
    (hz : z = r * Complex.exp (φ * Complex.I)) :
    (if z.arg < 0 then z.arg + 2 * Real.pi else z.arg) = φ := by
  by_cases hp : φ ≤ Real.pi
  · have : z.arg = φ := by
      rw [hz, Complex.exp_mul_I]
      exact Complex.arg_mul_cos_add_sin_mul_I hr ⟨by linarith [Real.pi_pos], hp⟩
    rw [this, if_neg (by linarith)]
  · have : z.arg = φ - 2 * Real.pi := by
      have e : Complex.exp (φ * Complex.I) = Complex.exp (((φ - 2 * Real.pi : ℝ) : ℂ) * Complex.I) := by
        push_cast
        rw [sub_mul, Complex.exp_sub, Complex.exp_two_pi_mul_I, div_one]
      rw [hz, e, Complex.exp_mul_I]
      exact Complex.arg_mul_cos_add_sin_mul_I hr ⟨by linarith, by linarith [Real.pi_pos]⟩
    rw [this, if_pos (by linarith)]
    ring

theorem one_sub_I : (1 - Complex.I : ℂ) = (Real.sqrt 2 : ℝ) * Complex.exp (-(Real.pi / 4) * Complex.I) := by
  rw [Complex.exp_mul_I, Complex.cos_neg, Complex.sin_neg]
  have c : Complex.cos (Real.pi / 4) = ((Real.sqrt 2 / 2 : ℝ) : ℂ) := by
    rw [← Real.cos_pi_div_four]; push_cast; rfl
  have s : Complex.sin (Real.pi / 4) = ((Real.sqrt 2 / 2 : ℝ) : ℂ) := by
    rw [← Real.sin_pi_div_four]; push_cast; rfl
  have q : ((Real.sqrt 2 : ℝ) : ℂ) * (Real.sqrt 2 : ℝ) = 2 := by
    rw [← Complex.ofReal_mul, Real.mul_self_sqrt (by norm_num)]; norm_num
  rw [c, s]
  push_cast
  linear_combination ((1 - Complex.I) / -2) * q

theorem polar {x y : ℝ} (hx : 0 < x) :
    (x : ℂ) + y * Complex.I = (‖(x : ℂ) + y * Complex.I‖ : ℝ) * Complex.exp ((Real.arctan (y / x) : ℝ) * Complex.I) := by
  set z : ℂ := (x : ℂ) + y * Complex.I with hz
  have hre : z.re = x := by simp [hz]
  have him : z.im = y := by simp [hz]
  have : z.arg = Real.arctan (y / x) := by
    rw [Complex.arg_of_re_nonneg (by rw [hre]; exact hx.le), him, Real.arctan_eq_arcsin]
    congr 1
    have hn : ‖z‖ = Real.sqrt (x ^ 2 + y ^ 2) := by
      rw [Complex.norm_def, Complex.normSq_apply, hre, him]; congr 1; ring
    rw [hn]
    have e : Real.sqrt (1 + (y / x) ^ 2) = Real.sqrt (x ^ 2 + y ^ 2) / x := by
      rw [eq_div_iff hx.ne', ← Real.sqrt_sq hx.le, ← Real.sqrt_mul (by positivity), Real.sqrt_sq hx.le]
      congr 1; field_simp
    rw [e]; field_simp
  rw [← this]
  exact (Complex.norm_mul_exp_arg_mul_I z).symm

/-- The exact angle: `k` turns of π/4 and the residual's arctangent (R186). -/
theorem theta_octant {a b : Int} (h : ¬(a = 0 ∧ b = 0)) :
    theta a b = (octant a b).k * (Real.pi / 4) +
      Real.arctan (((octant a b).b : ℝ) / ((octant a b).a : ℝ)) := by
  have hr := octant_residual h
  have ht := octant_turned a b
  revert ht hr
  generalize octant a b = o
  intro hr ht
  have hx : (0 : ℝ) < o.a := by exact_mod_cast hr.right
  have hp := polar (y := (o.b : ℝ)) hx
  have hlt : |Real.arctan ((o.b : ℝ) / o.a)| < Real.pi / 4 := by
    have h1 : |(o.b : ℝ) / o.a| < 1 := by
      rw [abs_div, abs_of_pos hx, div_lt_one hx]
      have : |o.b| < o.a := by
        have := hr.flat; have := hr.right; rw [Int.abs_eq_natAbs]; omega
      exact_mod_cast this
    rw [abs_lt] at h1 ⊢
    rw [← Real.arctan_one, ← Real.arctan_neg]
    exact ⟨Real.arctan_strictMono h1.1, Real.arctan_strictMono h1.2⟩
  rw [abs_lt] at hlt
  have hpi := Real.pi_pos
  unfold theta bearing
  have hne : ((o.a : ℂ) + o.b * Complex.I) ≠ 0 := by
    intro e
    have := congrArg Complex.re e
    simp at this
    have := hr.right; omega
  apply arg_unique (r := ‖((o.a : ℝ) : ℂ) + (o.b : ℝ) * Complex.I‖ / Real.sqrt 2 ^ o.k)
  · apply div_pos
    · rw [norm_pos_iff]; exact_mod_cast hne
    · positivity
  · rcases Nat.eq_zero_or_pos o.k with hk | hk
    · have : (0 : ℝ) ≤ o.b := by exact_mod_cast hr.start hk
      have := Real.arctan_nonneg.2 (div_nonneg this hx.le)
      rw [hk]; simpa using this
    · have : (1 : ℝ) ≤ o.k := by exact_mod_cast hk
      nlinarith
  · rcases Nat.lt_or_ge o.k 8 with hk | hk
    · have : (o.k : ℝ) ≤ 7 := by exact_mod_cast (by omega : o.k ≤ 7)
      nlinarith
    · have hk8 : o.k = 8 := le_antisymm hr.few hk
      have : (o.b : ℝ) < 0 := by exact_mod_cast hr.last hk8
      have := Real.arctan_lt_zero.2 (div_neg_of_neg_of_pos this hx)
      rw [hk8]; push_cast; linarith
  · have hz : (⟨(a : ℝ), (b : ℝ)⟩ : ℂ) = (a : ℂ) + b * Complex.I := by
      apply Complex.ext <;> simp
    rw [hz]
    have hs : ((Real.sqrt 2 : ℝ) : ℂ) ^ o.k ≠ 0 := by
      apply pow_ne_zero; norm_cast; positivity
    have hI : (1 - Complex.I : ℂ) ^ o.k ≠ 0 := by
      rw [one_sub_I]; exact pow_ne_zero _ (mul_ne_zero (by norm_cast; positivity) (Complex.exp_ne_zero _))
    apply mul_right_cancel₀ hI
    rw [ht]
    have hp' : (o.a : ℂ) + o.b * Complex.I = (‖((o.a : ℝ) : ℂ) + (o.b : ℝ) * Complex.I‖ : ℝ) *
        Complex.exp ((Real.arctan ((o.b : ℝ) / o.a) : ℝ) * Complex.I) := by
      rw [← hp]; push_cast; rfl
    rw [hp', one_sub_I, mul_pow, ← Complex.exp_nat_mul]
    have hsp : Complex.exp (((o.k * (Real.pi / 4) + Real.arctan ((o.b : ℝ) / o.a) : ℝ) : ℂ) * Complex.I) *
        Complex.exp ((o.k : ℂ) * (-(Real.pi / 4) * Complex.I)) =
          Complex.exp ((Real.arctan ((o.b : ℝ) / o.a) : ℝ) * Complex.I) := by
      rw [← Complex.exp_add]; congr 1; push_cast; ring
    rw [← hsp]
    push_cast
    field_simp

theorem slope_cast (o : Octant) (h : Residual o) :
    ((o.slope : ℚ) : ℝ) = |(o.b : ℝ) / o.a| := by
  have hx : (0 : ℝ) < o.a := by exact_mod_cast h.right
  rw [Octant.slope, abs_div, abs_of_pos hx]
  push_cast
  rw [Nat.cast_natAbs]
  push_cast
  rfl

theorem slope_range (o : Octant) (h : Residual o) : 0 ≤ o.slope ∧ o.slope ≤ 1 / 2 := by
  have hx : (0 : ℚ) < o.a := by exact_mod_cast h.right
  refine ⟨by unfold Octant.slope; positivity, ?_⟩
  rw [Octant.slope, div_le_iff₀ hx]
  have : (((2 * (o.b.natAbs : Int)) : Int) : ℚ) ≤ ((o.a : Int) : ℚ) := Int.cast_le.2 h.flat
  rw [Int.cast_mul, Int.cast_natCast, Int.cast_ofNat] at this
  linarith

/-- The enclosure of the exact angle, in radians and in hundredths of a degree. -/
theorem thetaLo_le {a b : Int} (h : ¬(a = 0 ∧ b = 0)) :
    (((octant a b).thetaLo : ℚ) : ℝ) ≤ theta a b := by
  have hr := octant_residual h
  rw [theta_octant h]
  generalize octant a b = o at hr ⊢
  obtain ⟨s0, s1⟩ := slope_range o hr
  have l := arctanLo_le s0 (by linarith)
  have u := le_arctanHi s0 (by linarith)
  have hk : (0 : ℝ) ≤ o.k := by positivity
  have q := mul_le_mul_of_nonneg_left quarter_le hk
  have hx : (0 : ℝ) < o.a := by exact_mod_cast hr.right
  rw [slope_cast o hr] at l u
  unfold Octant.thetaLo
  split
  · rename_i hb
    have : (0 : ℝ) ≤ o.b := by exact_mod_cast hb
    rw [abs_of_nonneg (div_nonneg this hx.le)] at l
    push_cast; linarith
  · rename_i hb
    have : (o.b : ℝ) < 0 := by exact_mod_cast not_le.1 hb
    rw [abs_of_neg (div_neg_of_neg_of_pos this hx), Real.arctan_neg] at u
    push_cast; linarith

theorem le_thetaHi {a b : Int} (h : ¬(a = 0 ∧ b = 0)) :
    theta a b ≤ (((octant a b).thetaHi : ℚ) : ℝ) := by
  have hr := octant_residual h
  rw [theta_octant h]
  generalize octant a b = o at hr ⊢
  obtain ⟨s0, s1⟩ := slope_range o hr
  have l := arctanLo_le s0 (by linarith)
  have u := le_arctanHi s0 (by linarith)
  have hk : (0 : ℝ) ≤ o.k := by positivity
  have q := mul_le_mul_of_nonneg_left le_quarter hk
  have hx : (0 : ℝ) < o.a := by exact_mod_cast hr.right
  rw [slope_cast o hr] at l u
  unfold Octant.thetaHi
  split
  · rename_i hb
    have : (0 : ℝ) ≤ o.b := by exact_mod_cast hb
    rw [abs_of_nonneg (div_nonneg this hx.le)] at u
    push_cast; linarith
  · rename_i hb
    have : (o.b : ℝ) < 0 := by exact_mod_cast not_le.1 hb
    rw [abs_of_neg (div_neg_of_neg_of_pos this hx), Real.arctan_neg] at l
    push_cast; linarith

theorem quarterLo_pos : (0 : ℝ) < ((quarterLo : ℚ) : ℝ) := by
  have : (0 : ℚ) < quarterLo := by decide +kernel
  exact_mod_cast this

/-- A real number between the two bounds of arctan, over one between the two bounds of π/4. -/
theorem ratio_bounds {x lo hi : ℝ} (h0 : 0 ≤ x) (hl : lo ≤ x) (hh : x ≤ hi) :
    lo / ((quarterHi : ℚ) : ℝ) ≤ x / (Real.pi / 4) ∧
      x / (Real.pi / 4) ≤ hi / ((quarterLo : ℚ) : ℝ) := by
  have hpi : 0 < Real.pi / 4 := by positivity
  have hq := quarterLo_pos
  have hq' := lt_of_lt_of_le hpi le_quarter
  refine ⟨?_, div_le_div₀ (h0.trans hh) hh hq quarter_le⟩
  rw [div_le_div_iff₀ hq' hpi]
  nlinarith [le_quarter]

theorem centiLo_le {a b : Int} (h : ¬(a = 0 ∧ b = 0)) :
    (((octant a b).centiLo : ℚ) : ℝ) ≤ theta a b * 18000 / Real.pi := by
  have hr := octant_residual h
  rw [theta_octant h]
  generalize octant a b = o at hr ⊢
  obtain ⟨s0, s1⟩ := slope_range o hr
  have l := arctanLo_le s0 (by linarith)
  have u := le_arctanHi s0 (by linarith)
  have hx : (0 : ℝ) < o.a := by exact_mod_cast hr.right
  have hn : 0 ≤ Real.arctan ((o.slope : ℚ) : ℝ) := Real.arctan_nonneg.2 (by exact_mod_cast s0)
  obtain ⟨r1, r2⟩ := ratio_bounds hn l u
  have e : ∀ y : ℝ, ((o.k : ℝ) * (Real.pi / 4) + y) * 18000 / Real.pi = 4500 * o.k + 4500 * (y / (Real.pi / 4)) := by
    intro y; have := Real.pi_ne_zero; field_simp; ring
  rw [e]
  unfold Octant.centiLo
  split
  · rename_i hb
    have : (0 : ℝ) ≤ o.b := by exact_mod_cast hb
    rw [slope_cast o hr, abs_of_nonneg (div_nonneg this hx.le)] at r1
    push_cast; linarith
  · rename_i hb
    have : (o.b : ℝ) < 0 := by exact_mod_cast not_le.1 hb
    rw [slope_cast o hr, abs_of_neg (div_neg_of_neg_of_pos this hx), Real.arctan_neg, neg_div] at r2
    push_cast; linarith

theorem le_centiHi {a b : Int} (h : ¬(a = 0 ∧ b = 0)) :
    theta a b * 18000 / Real.pi ≤ (((octant a b).centiHi : ℚ) : ℝ) := by
  have hr := octant_residual h
  rw [theta_octant h]
  generalize octant a b = o at hr ⊢
  obtain ⟨s0, s1⟩ := slope_range o hr
  have l := arctanLo_le s0 (by linarith)
  have u := le_arctanHi s0 (by linarith)
  have hx : (0 : ℝ) < o.a := by exact_mod_cast hr.right
  have hn : 0 ≤ Real.arctan ((o.slope : ℚ) : ℝ) := Real.arctan_nonneg.2 (by exact_mod_cast s0)
  obtain ⟨r1, r2⟩ := ratio_bounds hn l u
  have e : ∀ y : ℝ, ((o.k : ℝ) * (Real.pi / 4) + y) * 18000 / Real.pi = 4500 * o.k + 4500 * (y / (Real.pi / 4)) := by
    intro y; have := Real.pi_ne_zero; field_simp; ring
  rw [e]
  unfold Octant.centiHi
  split
  · rename_i hb
    have : (0 : ℝ) ≤ o.b := by exact_mod_cast hb
    rw [slope_cast o hr, abs_of_nonneg (div_nonneg this hx.le)] at r2
    push_cast; linarith
  · rename_i hb
    have : (o.b : ℝ) < 0 := by exact_mod_cast not_le.1 hb
    rw [slope_cast o hr, abs_of_neg (div_neg_of_neg_of_pos this hx), Real.arctan_neg, neg_div] at r1
    push_cast; linarith

theorem findOctant_scale (c : Int) (hc : 0 < c) (n : Nat) : ∀ (k : Nat) (a b : Int),
    findOctant n k (c * a) (c * b) =
      ⟨(findOctant n k a b).k, c * (findOctant n k a b).a, c * (findOctant n k a b).b⟩ := by
  induction n with
  | zero => intro k a b; rfl
  | succ n ih =>
    intro k a b
    have e : isResidual k (c * a) (c * b) = isResidual k a b := by
      rw [Bool.eq_iff_iff, isResidual_iff, isResidual_iff, Int.natAbs_mul, Nat.cast_mul,
        Int.natAbs_of_nonneg hc.le, mul_left_comm, mul_pos_iff_of_pos_left hc, mul_nonneg_iff_of_pos_left hc,
        mul_le_mul_iff_right₀ hc]
    rw [findOctant, findOctant, e]
    split
    · rfl
    · rw [← ih, mul_add, mul_sub]

/-- A longer vector of the same direction has the same octant and slope (R191). -/
theorem octant_scale {c a b : Int} (hc : 0 < c) :
    octant (c * a) (c * b) = ⟨(octant a b).k, c * (octant a b).a, c * (octant a b).b⟩ :=
  findOctant_scale c hc 8 0 a b

theorem slope_scale {c : Int} (hc : 0 < c) (k : Nat) (a b : Int) :
    (Octant.mk k (c * a) (c * b)).slope = (Octant.mk k a b).slope := by
  have hc' : (c : ℚ) ≠ 0 := by exact_mod_cast hc.ne'
  have e : ((c.natAbs : Nat) : ℚ) = (c : ℚ) := by
    rw [← Int.cast_natCast, Int.natAbs_of_nonneg hc.le]
  simp only [Octant.slope, Int.natAbs_mul]
  rw [Nat.cast_mul, Int.cast_mul, e, mul_div_mul_left _ _ hc']

end Sys2Proof.Machine.Heading
end

