-- ==== Sys2Proof/Laws/PerInstr.lean ====
section
/-! SUPPORT. Statements about every command as syntax, one lemma per constructor of Instr. -/

namespace Sys2Proof.Laws.EncodingMatchesTable

/-- The command's word carries the opcode of the table's row that has its mnemonic (R68). -/
def Statement (i : Instr) : Prop :=
  ∃ r ∈ opcodeTable, r.mnemonic = i.mnemonic ∧ opcodeOf (encode i) = opcodeOf r.value

/-- A row of the table settles the statement. -/
theorem of_row {i : Instr} (k : Nat) (hk : k < opcodeTable.length) {op : BitVec 8}
    (hm : opcodeTable[k].mnemonic = i.mnemonic) (hr : opcodeOf opcodeTable[k].value = op)
    (hi : (encode i).extractLsb' 56 8 = op) : Statement i :=
  ⟨opcodeTable[k], List.getElem_mem hk, hm, hi.trans hr.symm⟩

theorem rdf (reg : Addr) (hb : Nat) (len : Nat) : Statement (.rdf reg hb len) :=
  of_row 0 (by decide) rfl rfl (by simp [encode]; rfl)
theorem wrf (reg : Addr) (hb : Nat) (len : Nat) (val : Byte) : Statement (.wrf reg hb len val) :=
  of_row 1 (by decide) rfl rfl (by simp [encode]; rfl)
theorem wpack (reg : Addr) (b0 : Byte) (b1 : Byte) (b2 : Byte) (b3 : Byte) : Statement (.wpack reg b0 b1 b2 b3) :=
  of_row 2 (by decide) rfl rfl (by simp [encode]; rfl)
theorem dec16 (imm16 : Half) : Statement (.dec16 imm16) :=
  of_row 3 (by decide) rfl rfl (by simp [encode]; rfl)
theorem init : Statement .init := of_row 4 (by decide) rfl rfl (by simp [encode]; rfl)
theorem setbias (val : Byte) : Statement (.setbias val) :=
  of_row 5 (by decide) rfl rfl (by simp [encode]; rfl)
theorem setrate (val : Byte) : Statement (.setrate val) :=
  of_row 6 (by decide) rfl rfl (by simp [encode]; rfl)
theorem setavg (val : Byte) : Statement (.setavg val) :=
  of_row 7 (by decide) rfl rfl (by simp [encode]; rfl)
theorem setgain (val : Byte) : Statement (.setgain val) :=
  of_row 8 (by decide) rfl rfl (by simp [encode]; rfl)
theorem setmode (val : Byte) : Statement (.setmode val) :=
  of_row 9 (by decide) rfl rfl (by simp [encode]; rfl)
theorem getbias : Statement .getbias := of_row 10 (by decide) rfl rfl (by simp [encode]; rfl)
theorem getrate : Statement .getrate := of_row 11 (by decide) rfl rfl (by simp [encode]; rfl)
theorem getavg : Statement .getavg := of_row 12 (by decide) rfl rfl (by simp [encode]; rfl)
theorem getgain : Statement .getgain := of_row 13 (by decide) rfl rfl (by simp [encode]; rfl)
theorem getmode : Statement .getmode := of_row 14 (by decide) rfl rfl (by simp [encode]; rfl)
theorem rdida : Statement .rdida := of_row 15 (by decide) rfl rfl (by simp [encode]; rfl)
theorem rdidb : Statement .rdidb := of_row 16 (by decide) rfl rfl (by simp [encode]; rfl)
theorem rdidc : Statement .rdidc := of_row 17 (by decide) rfl rfl (by simp [encode]; rfl)
theorem rdstat : Statement .rdstat := of_row 18 (by decide) rfl rfl (by simp [encode]; rfl)
theorem setcalx (imm16 : Half) : Statement (.setcalx imm16) :=
  of_row 19 (by decide) rfl rfl (by simp [encode]; rfl)
theorem setcaly (imm16 : Half) : Statement (.setcaly imm16) :=
  of_row 20 (by decide) rfl rfl (by simp [encode]; rfl)
theorem setcalz (imm16 : Half) : Statement (.setcalz imm16) :=
  of_row 21 (by decide) rfl rfl (by simp [encode]; rfl)
theorem rdaxes : Statement .rdaxes := of_row 22 (by decide) rfl rfl (by simp [encode]; rfl)
theorem heading (a : Op24) (b : Op24) : Statement (.heading a b) :=
  of_row 23 (by decide) rfl rfl (by simp [encode]; rfl)
theorem getvalues : Statement .getvalues := of_row 24 (by decide) rfl rfl (by simp [encode]; rfl)

end Sys2Proof.Laws.EncodingMatchesTable
end

