-- ==== Sys2Proof/Laws/Step.lean ====
section
/-! SUPPORT. What a step can do, said once. -/

namespace Sys2Proof.Machine

/-- The five ways a step answers a next state. -/
theorem step_cases {s t : State} (h : step s = .next t) :
    (∃ f, s.inflight = some f ∧ t = resume f s) ∨
    (s.inflight = none ∧ s.host = [] ∧ t = s.afterMoment) ∨
    (∃ rest, s.inflight = none ∧ s.host = .reset :: rest ∧ resetBlock s.takeInput = .next t) ∨
    (∃ w rest e, s.inflight = none ∧ s.host = .command w :: rest ∧ decode w = .error e ∧
      t = s.takeInput.illegalWord) ∨
    (∃ w rest i, s.inflight = none ∧ s.host = .command w :: rest ∧ decode w = .ok i ∧
      exec i s.takeInput = .next t) := by
  unfold step at h
  cases hf : s.inflight with
  | some f => rw [hf] at h; cases h; exact .inl ⟨f, rfl, rfl⟩
  | none =>
    rw [hf] at h
    right
    rcases hh : s.host with _ | ⟨x, rest⟩
    · rw [hh] at h; cases h; exact .inl ⟨rfl, rfl, rfl⟩
    · rw [hh] at h
      right
      cases x with
      | reset => exact .inl ⟨rest, rfl, rfl, h⟩
      | command w =>
        right
        dsimp only at h
        cases hd : decode w with
        | error e => rw [hd] at h; cases h; exact .inl ⟨w, rest, e, rfl, rfl, hd, rfl⟩
        | ok i => rw [hd] at h; exact .inr ⟨w, rest, i, rfl, rfl, hd, h⟩

end Sys2Proof.Machine
end

