-- ==== Sys2Proof/Tests/Slice0.lean ====
section
/-! SUPPORT. Tests and witnesses. Expected words, bytes, responses and traces are those of the spec's own
tables and vectors (30_encoding.md R72, 95_test_vectors.md: the identifier stands in each comment); the
witnesses show concrete states that meet the hypotheses of the obligations. -/

namespace Sys2Proof.Tests

open Sys2Proof.Machine

/-! ### Decoding: a word for every constructor, from the formats of R60 and the opcodes of R68 -/

/-- F1, F14, K1: `op reg hb len val 000000` and `op reg b0 b1 b2 b3 0000`. -/
theorem test_decode_accessor :
    decode 0x1001070300000000#64 = .ok (.rdf 0x01#8 7 3) ∧
    decode 0x1101070301000000#64 = .ok (.wrf 0x01#8 7 3 0x01#8) ∧
    decode 0x1200020103000000#64 = .ok (.wpack 0x00#8 2#8 1#8 3#8 0#8) := by decide

/-- Q7, and INIT's word. -/
theorem test_decode_decoder_init :
    decode 0x2000000000001234#64 = .ok (.dec16 0x1234#16) ∧
    decode 0x3000000000000000#64 = .ok .init := by decide

/-- G8 to G17: format V8. -/
theorem test_decode_setters :
    decode 0x4000000000000007#64 = .ok (.setbias 7#8) ∧
    decode 0x410000000000000C#64 = .ok (.setrate 0x0C#8) ∧
    decode 0x4200000000000003#64 = .ok (.setavg 3#8) ∧
    decode 0x4300000000000007#64 = .ok (.setgain 7#8) ∧
    decode 0x44000000000000FF#64 = .ok (.setmode 0xFF#8) := by decide

/-- G1 to G5: format N. -/
theorem test_decode_getters :
    decode 0x4800000000000000#64 = .ok .getbias ∧
    decode 0x4900000000000000#64 = .ok .getrate ∧
    decode 0x4A00000000000000#64 = .ok .getavg ∧
    decode 0x4B00000000000000#64 = .ok .getgain ∧
    decode 0x4C00000000000000#64 = .ok .getmode := by decide

/-- G19 to G22. -/
theorem test_decode_fixed_reads :
    decode 0x5000000000000000#64 = .ok .rdida ∧
    decode 0x5100000000000000#64 = .ok .rdidb ∧
    decode 0x5200000000000000#64 = .ok .rdidc ∧
    decode 0x5300000000000000#64 = .ok .rdstat := by decide

/-- G23, G24, G25: format V16, two's complement. -/
theorem test_decode_calibration :
    decode 0x580000000000FFFD#64 = .ok (.setcalx (BitVec.ofInt 16 (-3))) ∧
    decode 0x5900000000000064#64 = .ok (.setcaly 100#16) ∧
    decode 0x5A00000000007FFF#64 = .ok (.setcalz 0x7FFF#16) := by decide

/-- RDAXES, H11 (`HEADING -5, 12`) and GETVALUES. -/
theorem test_decode_sampling :
    decode 0x6000000000000000#64 = .ok .rdaxes ∧
    decode 0x7000FFFFFB00000C#64 = .ok (.heading (BitVec.ofInt 24 (-5)) 12#24) ∧
    decode 0x7100000000000000#64 = .ok .getvalues := by decide

/-- X1, X2, X3, X12: opcodes that are not assigned. -/
theorem test_decode_unassigned :
    decode 0x0000000000000000#64 = .error (.unassignedOpcode 0x00#8) ∧
    decode 0x1300000000000000#64 = .error (.unassignedOpcode 0x13#8) ∧
    decode 0xFF00000000000000#64 = .error (.unassignedOpcode 0xFF#8) ∧
    decode 0x4500000000000000#64 = .error (.unassignedOpcode 0x45#8) := by decide

/-- X4 to X11 and X13: a bit set in a zero field. -/
theorem test_decode_zero_fields :
    decode 0x3000000000000001#64 = .error (.nonzeroZeroField 0x30#8) ∧
    decode 0x1001070301000000#64 = .error (.nonzeroZeroField 0x10#8) ∧
    decode 0x1101070301000001#64 = .error (.nonzeroZeroField 0x11#8) ∧
    decode 0x1200010300000001#64 = .error (.nonzeroZeroField 0x12#8) ∧
    decode 0x2000000000010000#64 = .error (.nonzeroZeroField 0x20#8) ∧
    decode 0x4300000000000100#64 = .error (.nonzeroZeroField 0x43#8) ∧
    decode 0x5800000000010000#64 = .error (.nonzeroZeroField 0x58#8) ∧
    decode 0x7001000000000000#64 = .error (.nonzeroZeroField 0x70#8) ∧
    decode 0x1000080100000001#64 = .error (.nonzeroZeroField 0x10#8) := by decide

/-- The encoder on three words of R72, F18 and H16. -/
theorem test_encode_words :
    encode (.wrf 0x00#8 7 8 0x5A#8) = 0x110007085A000000#64 ∧
    encode (.heading 5#24 (BitVec.ofInt 24 (-2))) = 0x7000000005FFFFFE#64 ∧
    decodeTableWord 64 0x1200010300000000 = some (.wpack 0x00#8 1#8 3#8 0#8 0#8) := by decide

/-- No word is two rows' command (R68). -/
theorem test_opcode_rows_disjoint :
    opcodeTable.Pairwise (fun r q => (r.mask &&& q.mask) &&& (r.value ^^^ q.value) ≠ 0#64) := by decide

/-- R73: the pseudo-commands' expansions, and R72: a command's text. -/
theorem test_assembler :
    Pseudo.expand Config.defaults .rdlock = [.rdf 0x09#8 1 1] ∧
    Pseudo.expand Config.defaults .setmodeIdle = [.setmode 2#8] ∧
    Instr.asm (.wpack 0x00#8 1#8 3#8 0#8 0#8) = "WPACK 0, 1, 3, 0, 0" ∧
    Instr.asm (.heading 0#24 (BitVec.ofInt 24 (-1))) = "HEADING 0, -1" ∧ Instr.asm .init = "INIT" := by
  decide +kernel

/-! ### WellFormed refuses -/

theorem test_wf_instr :
    Instr.wf (.rdf 0#8 256 1) = false ∧ Instr.wf (.rdf 0#8 1 256) = false ∧
    Instr.wf (.wrf 0#8 256 1 0#8) = false ∧ Instr.wf (.wrf 0#8 1 256 0#8) = false ∧
    Instr.wf (.rdf 0#8 255 255) = true := by decide

/-- R5: each item refuses a record that breaks it, and the default record passes, with `INIT_CFGA` 0x70. -/
theorem test_wf_params :
    ({ Config.defaults with fLock := ⟨0, 2⟩ } : Config.Params).fieldsValid = false ∧
    ({ Config.defaults with fRate := ⟨5, 3⟩ } : Config.Params).fieldsDisjoint = false ∧
    ({ Config.defaults with fRate := ⟨3, 2⟩ } : Config.Params).codesFit = false ∧
    ({ Config.defaults with modeIdle := 1#8 } : Config.Params).codesFit = false ∧
    ({ Config.defaults with originCdeg := 36001 } : Config.Params).originInRange = false ∧
    ({ Config.defaults with originCdeg := 18000 } : Config.Params).originOneAngle = false ∧
    ({ Config.defaults with originRad := 411769, originCdeg := 36000 } : Config.Params).wf = true ∧
    Config.defaults.wf = true ∧ initCfgA Config.defaults = 0x70#8 := by decide

/-! ### The state the tests run on, and what they look at -/

/-- A device with ConfigA 0x70, ConfigB 0xBF, the sample of the source (A1) and status 0x03, its other
registers as at reset (Mode 0x01, the identification bytes 0x48, 0x34, 0x33). -/
def base : State :=
  { State.reset with
    dev := [(0x00, 0x70#8), (0x01, 0xBF#8), (0x04, 0x0A#8), (0x06, 0x14#8), (0x08, 0x1E#8), (0x09, 0x03#8)] }

/-- `base` with the offsets of A2. -/
def shifted : State := { base with calX := 5#16, calY := BitVec.ofInt 16 (-3), calZ := 100#16 }

/-- `base` with other register contents. -/
def withDev (d : Memory) : State := { base with dev := d }

/-- `base` with an environment in which transaction `k` is reported failed. -/
def failing (k : Nat) : State :=
  { base with env := List.replicate k Moment.quiet ++ [⟨[], true, none⟩] }

/-- `base` with the host about to issue a word. -/
def issuing (w : Word) : State := { base with host := [.command w] }

/-- The state after a command. -/
def after (i : Instr) (s : State) : Option State :=
  match exec i s with
  | .next t => some t
  | .fault _ => none
  | .refused _ => none

/-- The status and the lanes of the response. -/
def answered (i : Instr) (s : State) : Option (Status × Lanes) :=
  (after i s).bind fun t => t.rsp.map fun r => (r.status, r.lanes)

/-- The port's record. -/
def traceOf (i : Instr) (s : State) : Option (List Event) := (after i s).map State.trace

/-- A register of the device afterwards. -/
def regOf (i : Instr) (a : Nat) (s : State) : Option Byte := (after i s).map fun t => Memory.read t.dev a

/-! ### One or two vectors per command -/

/-- F1 on a device that reads 0xA5. -/
theorem test_rdf : answered (.rdf 0x01#8 7 3) (withDev [(0x01, 0xA5#8)]) = some (.ok, { q0 := 5#32 }) := by
  decide

/-- F12: an unmapped address, the transport answers 0xFF. -/
theorem test_rdf_unmapped :
    answered (.rdf 0x40#8 6 7) { base with env := [⟨[], false, some 0xFF#8⟩] } =
      some (.ok, { q0 := 127#32 }) := by decide

/-- F14: truncation and the two transactions. -/
theorem test_wrf :
    traceOf (.wrf 0x01#8 7 3 1#8) base =
      some [.read 0x01#8 (some 0xBF#8), .write 0x01#8 0x3F#8 true] := by decide

/-- F17: the value is truncated. -/
theorem test_wrf_truncates : regOf (.wrf 0x00#8 4 3 0x0C#8) 0x00 (withDev [(0x00, 0xFF#8)]) = some 0xF3#8 := by
  decide

/-- K10 and K5: operands are not masked; the byte is the low eight bits. -/
theorem test_wpack :
    regOf (.wpack 0x00#8 0#8 0#8 7#8 1#8) 0x00 base = some 0x1D#8 ∧
    traceOf (.wpack 0x00#8 5#8 0#8 0#8 0#8) base = some [.write 0x00#8 0x40#8 true] := by decide

/-- Q4 and Q3: the boundary of the comparison. -/
theorem test_dec16 :
    answered (.dec16 0x8000#16) base = some (.ok, { q0 := 0xFFFF8000#32 }) ∧
    answered (.dec16 0x7FFF#16) base = some (.ok, { q0 := 0x00007FFF#32 }) := by decide

/-- P1 step 4. -/
theorem test_init :
    traceOf .init (withDev [(0x00, 0x9F#8), (0x01, 0xFF#8)]) =
      some [.write 0x00#8 0x70#8 true, .read 0x01#8 (some 0xFF#8), .write 0x01#8 0x3F#8 true,
        .read 0x02#8 (some 0x01#8), .write 0x02#8 0x00#8 true, .wait 7] := by decide

/-- P5 step 1: INIT fails at transaction 3; the earlier writes stay, `inited` is 0. -/
theorem test_init_fails :
    (after .init { failing 3 with dev := [(0x00, 0x00#8), (0x01, 0xE0#8)], inited := true }).map
      (fun t => (t.inited, t.dev)) = some (false, [(0x00, 0x70#8)]) := by decide

/-- G9: SETBIAS. -/
theorem test_setbias : regOf (.setbias 7#8) 0x00 base = some 0x73#8 := by decide

/-- P4, the lost update: another master writes 0x71 between the read and the write of SETRATE 6. -/
theorem test_setrate_lost_update :
    regOf (.setrate 6#8) 0x00
      { base with env := [Moment.quiet, ⟨[.masterWrite 0x00#8 0x71#8], false, none⟩] } = some 0x78#8 := by
  decide

/-- G12: SETAVG keeps bit 7. -/
theorem test_setavg : regOf (.setavg 3#8) 0x00 (withDev [(0x00, 0x90#8)]) = some 0xF0#8 := by decide

/-- G13: SETGAIN. -/
theorem test_setgain : regOf (.setgain 1#8) 0x01 base = some 0x3F#8 := by decide

/-- G16: SETMODE keeps bit 7. -/
theorem test_setmode : regOf (.setmode 0#8) 0x02 (withDev [(0x02, 0x81#8)]) = some 0x80#8 := by decide

/-- G1: GETBIAS. -/
theorem test_getbias : answered .getbias (withDev [(0x00, 0x71#8)]) = some (.ok, { q0 := 1#32 }) := by decide

/-- G6: GETRATE. -/
theorem test_getrate : answered .getrate (withDev [(0x00, 0xFF#8)]) = some (.ok, { q0 := 7#32 }) := by decide

/-- G3: GETAVG. -/
theorem test_getavg : answered .getavg base = some (.ok, { q0 := 3#32 }) := by decide

/-- G4, and G7: the read fails. -/
theorem test_getgain :
    answered .getgain (withDev [(0x01, 0x3F#8)]) = some (.ok, { q0 := 1#32 }) ∧
    answered .getgain (failing 0) = some (.transportError, {}) := by decide

/-- G5: GETMODE on a device that has never been written (R151: it is SingleMeasurement). -/
theorem test_getmode : answered .getmode State.reset = some (.ok, { q0 := 1#32 }) := by decide

/-- G19 to G22. -/
theorem test_fixed_reads :
    answered .rdida base = some (.ok, { q0 := 0x48#32 }) ∧
    answered .rdidb base = some (.ok, { q0 := 0x34#32 }) ∧
    answered .rdidc base = some (.ok, { q0 := 0x33#32 }) ∧
    answered .rdstat base = some (.ok, { q0 := 3#32 }) := by decide

/-- G23 to G26. -/
theorem test_setcal :
    (after (.setcalx 0x8000#16) base).map (fun t => (t.calX.toInt, t.calY, t.calZ)) = some (-32768, 0, 0) ∧
    (after (.setcaly 100#16) base).map (fun t => (t.calX, t.calY.toInt, t.calZ)) = some (0, 100, 0) ∧
    (after (.setcalz 0x7FFF#16) base).map (fun t => (t.calX, t.calY, t.calZ.toInt)) = some (0, 0, 32767) := by
  decide

/-- A2: Z is the second pair, offsets before scaling. -/
theorem test_rdaxes :
    answered .rdaxes shifted =
      some (.ok, { q0 := 15#32, q1 := 27#32, q2 := 120#32, q3 := 1380#32, q4 := 2484#32, q5 := 11040#32 }) := by
  decide

/-- P6, the torn sample: the sensor replaces x = 255 by x = 256 between the first two reads. -/
theorem test_rdaxes_torn :
    answered .rdaxes
      { withDev [(0x04, 0xFF#8)] with
        env := [Moment.quiet, ⟨[.sensor 0x03#8 0x01#8, .sensor 0x04#8 0x00#8], false, none⟩] } =
      some (.ok, {}) := by decide

/-- H22 and H23: the two sides of the rounding boundary below 360.00 degrees. -/
theorem test_heading_boundary :
    answered (.heading 11459#24 (BitVec.ofInt 24 (-1))) base =
      some (.ok, { q0 := 411769#32, q1 := 35999#32 }) ∧
    answered (.heading 11460#24 (BitVec.ofInt 24 (-1))) base =
      some (.ok, { q0 := 411769#32, q1 := 36000#32 }) := by decide +kernel

/-- H11 and H30: the second and the third quadrant. -/
theorem test_heading_quadrants :
    answered (.heading (BitVec.ofInt 24 (-5)) 12#24) base =
      some (.ok, { q0 := 128816#32, q1 := 11262#32 }) ∧
    answered (.heading (BitVec.ofInt 24 (-65536)) (BitVec.ofInt 24 (-1))) base =
      some (.ok, { q0 := 205888#32, q1 := 18000#32 }) := by decide +kernel

/-- V2. -/
theorem test_getvalues :
    answered .getvalues shifted =
      some (.ok, { q0 := 15#32, q1 := 27#32, q2 := 120#32, q3 := 6095#32, q4 := 1380#32, q5 := 2484#32,
                   q6 := 11040#32, q7 := 6095#32 }) := by decide +kernel

/-- V11: the fifth read fails, the sixth is not issued. -/
theorem test_getvalues_fails :
    answered .getvalues (failing 4) = some (.transportError, {}) ∧
    (traceOf .getvalues (failing 4)).map List.length = some 5 := by decide

/-! ### Responses as bits, the step -/

/-- The state after a step. -/
def stepped (s : State) : Option State :=
  match step s with
  | .next t => some t
  | .fault _ => none
  | .refused _ => none

/-- The two whole responses that 2.7 writes out: A1 after a successful INIT, and F29 before any. -/
theorem test_response_bits :
    (((after .rdaxes { base with inited := true }).bind State.rsp).map fun r => r.bits.toNat) =
      some 0x4_00000000_00000000_00000730_00000AC8_00000398_00000014_0000001E_0000000A ∧
    (((after (.rdf 0x00#8 8 1) base).bind State.rsp).map fun r => r.bits.toNat) =
      some 0x2_00000000_00000000_00000000_00000000_00000000_00000000_00000000_00000000 := by decide

/-- X13 and X16: an illegal word wins over an invalid field, changes nothing and reports `inited`. -/
theorem test_step_illegal_word :
    stepped { issuing 0x1000080100000001#64 with inited := true } =
      some { base with inited := true, rsp := some ⟨.illegalCommand, true, {}⟩ } := by decide

/-- X14: the field check precedes the bus. -/
theorem test_step_invalid_field :
    stepped { failing 0 with host := [.command 0x1000080100000000#64] } =
      some { failing 0 with rsp := some ⟨.configurationError, false, {}⟩ } := by decide

/-- R240, R241: every register of the block after a reset input, the device kept. -/
theorem test_step_reset :
    stepped { shifted with host := [.reset], inited := true } = some base := by decide

/-- The host's entry: the word placed by `withFetchWord` runs in the very next step (G24). -/
theorem test_fetch_word :
    stepped (State.reset.withFetchWord 64 0x5900000000000064) =
      some { State.reset with calY := 100#16, rsp := some ⟨.ok, false, {}⟩ } := by decide

/-! ### Witnesses: states and operands that meet the hypotheses of the obligations -/

/-- The command in flight of the witnesses: INIT after `k` entries of its list. -/
def midInit (k : Nat) : Bool × State :=
  runMicros ((planOf base.cfg .init).micros.take k) ((planOf base.cfg .init).start (base.accept .init))

/-- No failure, no agent, at any moment: `base` meets every premise on a state of InitEndState,
InitMakesSamplesTrusted, SettersAreFieldWrites, SettersReplaceTheirField, GettersReadTheirField,
SetterThenGetter, Dec16SignExtends, CalibrationSetters, RdaxesReturnsTheSample and
GetvaluesReturnsSampleAndHeadings. -/
theorem test_witness_environment :
    base.Idle ∧ base.cfg.wf = true ∧ Memory.wf base.dev = true ∧ base.Answered 6 ∧ base.Alone 6 ∧
    base.Undisturbed 6 :=
  ⟨rfl, by decide, by decide, fun _ _ => rfl, fun _ _ => rfl, fun _ _ => ⟨rfl, rfl⟩, State.Alone.noOtherWriter fun _ _ => rfl⟩

/-- `base` with the sensor at work before every transaction and in the wait of INIT. -/
def sensing : State := { base with env := List.replicate 6 ⟨[.sensor 0x03#8 1#8, .masterRead 0x00#8], false, none⟩ }

/-- A busy sensor meets the premises of InitEndState, InitMakesSamplesTrusted, InitStopsAtTheFirstFailure,
WrfThenRdfRoundTrip and SetterThenGetter on the environment. -/
theorem test_witness_sensor_acts :
    Inv sensing ∧ sensing.Answered 6 ∧ sensing.OnRefDevice 6 ∧ sensing.NoOtherWriter 6 := by
  refine ⟨⟨rfl, by decide, by decide, (fun _ h => by cases h), by decide, by decide⟩, ?_, ?_, ?_⟩
  · exact (by decide : ∀ k, k < 6 → (sensing.moment k).fail = false)
  · exact (by decide : ∀ k, k < 6 → (sensing.moment k).fail = false ∧ (sensing.moment k).data = none)
  · exact (by decide : ∀ k, k < 6 → ∀ x ∈ (sensing.moment k).acts, x.leavesConfiguration = true)

/-- `sensing` with the host issuing INIT, SETGAIN `g`, SETGAIN 1 (the default gain) and DEC16 0. -/
def regaining (g : Byte) : State :=
  { sensing with host := [.command (encode .init), .command (encode (.setgain g)),
      .command (encode (.setgain 1#8)), .command (encode (.dec16 0#16))] }

/-- The state of `regaining g` after `k` steps. -/
def regained (g : Byte) : Nat → State
  | 0 => regaining g
  | k + 1 => (stepped (regained g k)).getD (regained g k)

/-- INIT makes the run of `regaining` trusted: a witness of InitMakesSamplesTrusted (1) and (2). -/
theorem test_witness_SampleTrusted (g : Byte) (hg : g = 1#8 ∨ g = 2#8) :
    SampleTrusted [regained g 1, regained g 0] := by
  have h := test_witness_sensor_acts
  rcases hg with rfl | rfl
  all_goals
    exact .init ⟨rfl, h.1.2, h.1.3, h.1.4, h.1.5, h.1.6⟩ ⟨_, _, rfl, by decide⟩ rfl rfl h.2.2.2

/-- R245 is a property of the run: INIT, SETGAIN 1, SETGAIN 1, DEC16 0 is trusted and INIT, SETGAIN 2,
SETGAIN 1, DEC16 0 is not, though both end in the same state. The trusted run's last step (DEC16 only reads)
meets the premises of InitMakesSamplesTrusted (3), and each of its last three steps those of (4). -/
theorem test_trust_of_the_run :
    regained 1#8 4 = regained 2#8 4 ∧
    SampleTrusted [regained 1#8 4, regained 1#8 3, regained 1#8 2, regained 1#8 1, regained 1#8 0] ∧
    ¬ SampleTrusted [regained 2#8 4, regained 2#8 3, regained 2#8 2, regained 2#8 1, regained 2#8 0] := by
  refine ⟨by decide, ?_, ?_⟩
  · have t1 := test_witness_SampleTrusted 1#8 (.inl rfl)
    have t2 : SampleTrusted [regained 1#8 2, _, _] := t1.later (n := 2) rfl rfl
      (State.Alone.noOtherWriter fun _ _ => rfl) (by decide) rfl
    have t3 : SampleTrusted [regained 1#8 3, _, _, _] := t2.later (n := 2) rfl rfl
      (State.Alone.noOtherWriter fun _ _ => rfl) (by decide) rfl
    exact t3.later (n := 0) rfl rfl (State.Alone.noOtherWriter fun _ _ => rfl) rfl rfl
  · have noInit : ∀ k, k = 1 ∨ k = 2 ∨ k = 3 → ¬ (regained 2#8 k).Runs .init := by
      rintro k (rfl | rfl | rfl) ⟨w, rest, hw, hd⟩ <;> cases hw <;> exact absurd hd (by decide)
    intro h
    cases h with
    | init _ b => exact noInit 3 (by decide) b
    | later h =>
      cases h with
      | init _ b => exact noInit 2 (by decide) b
      | later h =>
        cases h with
        | init _ b => exact noInit 1 (by decide) b
        | later _ _ _ _ same => exact absurd same (by decide)

/-- The failure premises of RdfReadsTheField, WrfFailuresLeaveTheDevice, WpackWritesThePackedByte,
InitStopsAtTheFirstFailure and BurstStopsAtTheFirstFailure: transaction `k` is the first to fail, at the
first and the last index of WRF, INIT and the burst. -/
theorem test_witness_first_failure :
    (failing 0).Idle ∧ ((failing 0).moment 0).fail = true ∧
    (failing 1).Idle ∧ (failing 1).Answered 1 ∧ ((failing 1).moment 1).fail = true ∧
    (failing 4).Idle ∧ (failing 4).Answered 4 ∧ ((failing 4).moment 4).fail = true ∧
    (failing 5).Idle ∧ (failing 5).Answered 5 ∧ ((failing 5).moment 5).fail = true := by
  refine ⟨rfl, rfl, rfl, ?_, rfl, rfl, ?_, rfl, rfl, ?_, rfl⟩
  · exact (by decide : ∀ k, k < 1 → ((failing 1).moment k).fail = false)
  · exact (by decide : ∀ k, k < 4 → ((failing 4).moment k).fail = false)
  · exact (by decide : ∀ k, k < 5 → ((failing 5).moment k).fail = false)

theorem test_witness_ResetTouchesOnlyTheBlock :
    ({ base with host := [.reset] } : State).Idle ∧
    ({ base with host := [.reset] } : State).host = .reset :: [] ∧ (base.accept .init).busy = true :=
  ⟨rfl, rfl, rfl⟩

theorem test_witness_StepRunsTheDecodedCommand :
    (issuing 0x6000000000000000#64).Idle ∧
    (issuing 0x6000000000000000#64).host = .command 0x6000000000000000#64 :: [] ∧
    decode 0x6000000000000000#64 = .ok .rdaxes := ⟨rfl, rfl, by decide⟩

/-- An unassigned opcode and a bit in a zero field. -/
theorem test_witness_IllegalWordChangesNothing :
    (issuing 0#64).Idle ∧ (issuing 0#64).host = .command 0#64 :: [] ∧
    (∀ r ∈ opcodeTable, 0#64 &&& r.mask ≠ r.value) ∧
    (∀ r ∈ opcodeTable, 0x3000000000000001#64 &&& r.mask ≠ r.value) := ⟨rfl, rfl, by decide, by decide⟩

theorem test_witness_BusyBlockAcceptsNothing : (base.accept .rdaxes).busy = true := rfl

/-- `k` at both ends of its range. -/
theorem test_witness_InFlightCommandRunsToItsEnd :
    base.Idle ∧ (planOf base.cfg .init).valid = true ∧
    5 ≤ ((planOf base.cfg .init).micros.filter Micro.isTransaction).length ∧
    midInit 5 = (true, (midInit 5).2) ∧ midInit 0 = (true, (midInit 0).2) := by
  refine ⟨rfl, rfl, by decide, ?_, ?_⟩ <;> exact Prod.ext (by decide) rfl

theorem test_witness_DecoderFollowsTheOpcodeMap :
    (⟨"RDF", 0x1000000000000000#64, 0xFF000000FFFFFFFF#64⟩ : OpcodeRow) ∈ opcodeTable ∧
    0x10FFFFFF00000000#64 &&& 0xFF000000FFFFFFFF#64 = 0x1000000000000000#64 := by decide

theorem test_witness_DecodeOfEncode :
    Instr.wf (.rdf 0xFF#8 255 255) = true ∧ Instr.wf (.wrf 0#8 0 0 0#8) = true := by decide

theorem test_witness_EncodeOfDecode :
    decode 0x1000FFFF00000000#64 = .ok (.rdf 0x00#8 255 255) := by decide

/-- A failed write; a completed write at the last storing register and at the first other one. -/
theorem test_witness_TransactionsOnTheDevice :
    (failing 0).nextMoment.fail = true ∧ base.nextMoment.fail = false ∧ Memory.wf base.dev = true ∧
    (2#8 : Addr).toNat ≤ 2 ∧ 2 < (3#8 : Addr).toNat := by decide

theorem test_witness_AgentsChangeOnlyTheirRegisters :
    Memory.wf base.dev = true ∧ Config.defaults.wf = true := by decide

/-- R243: a device reset with every free bit 1 sets the mode field to 1. -/
theorem test_device_reset :
    Memory.read (applyAct Config.defaults [(0x02, 0x00#8)] (.deviceReset 0xFF#8 0xFF#8 0xFF#8)) 0x02 = 0xFD#8 := by
  decide

theorem test_witness_IdentificationBytesAreConstant :
    (∃ t, step base = .next t) ∧ identification 0x0A#8 = true ∧ identification 0x0C#8 = true :=
  ⟨⟨_, rfl⟩, by decide, by decide⟩

/-- The two extreme valid fields, and the invalid fields F29, F31, F32: MaskHasExactlyTheFieldsBits,
InvalidFieldIsRejectedFirst, RdfReadsTheField, WrfMergesTheField. -/
theorem test_witness_fields :
    validField 7 8 = true ∧ validField 0 1 = true ∧ (7 < 8 ∨ 1 = 0 ∨ 8 + 1 < 1) ∧
    (7 < 7 ∨ 0 = 0 ∨ 7 + 1 < 0) ∧ (7 < 0 ∨ 2 = 0 ∨ 0 + 1 < 2) := by decide

/-- Both ends of the storing registers and of the valid fields. -/
theorem test_witness_WrfThenRdfRoundTrip :
    base.Idle ∧ Memory.wf base.dev = true ∧ base.Undisturbed 3 ∧ (0#8 : Addr).toNat ≤ 2 ∧
    (2#8 : Addr).toNat ≤ 2 ∧ validField 7 8 = true ∧ validField 0 1 = true :=
  ⟨rfl, by decide, ⟨fun _ _ => ⟨rfl, rfl⟩, State.Alone.noOtherWriter fun _ _ => rfl⟩, by decide, by decide,
    by decide, by decide⟩

/-- Bytes equal on the field only. -/
theorem test_witness_RdfResultIsTheFieldAlone :
    validField 0 1 = true ∧
    (∀ i, fieldShift 0 1 ≤ i → i ≤ 0 → (0xFE#8 : Byte).getLsbD i = (0x00#8 : Byte).getLsbD i) := by
  refine ⟨by decide, fun i _ h => ?_⟩
  obtain rfl : i = 0 := by omega
  decide

/-- Program P7's operands; a fourth slot that is already in place; INIT's three fields. -/
theorem test_witness_WpackAgainstFieldWrites :
    ([(7, 1#8), (5, 3#8), (3, 0#8), (1, 0#8)] : List (Nat × Byte)).Perm
      [(7, 1#8), (5, 3#8), (3, 0#8), (1, 0#8)] ∧
    readField 1 2 0xFC#8 = 0#8 ∧
    BitField.wf ⟨6, 2⟩ = true ∧ BitField.wf ⟨4, 3⟩ = true ∧ BitField.wf ⟨1, 2⟩ = true ∧
    BitField.disjoint ⟨6, 2⟩ ⟨4, 3⟩ = true ∧ BitField.disjoint ⟨6, 2⟩ ⟨1, 2⟩ = true ∧
    BitField.disjoint ⟨4, 3⟩ ⟨1, 2⟩ = true ∧ BitField.fits ⟨6, 2⟩ 3#8 = true ∧
    BitField.fits ⟨4, 3⟩ 4#8 = true ∧ BitField.fits ⟨1, 2⟩ 0#8 = true ∧
    0x7F#8 &&& ~~~(fieldMask 6 2 ||| fieldMask 4 3 ||| fieldMask 1 2) = 0#8 := by decide

/-- The boundary of the decoder's comparison. -/
theorem test_witness_Decode16Laws :
    (32767#16 : Half).toNat ≤ 32767 ∧ 32768 ≤ (32768#16 : Half).toNat ∧
    decode16 32768#16 = -32768 ∧ decode16 32767#16 = 32767 := by decide

/-- A sensor and another master at work during an INIT whose transactions are all answered. -/
theorem test_witness_InitRunsTheProtocol :
    ({ base with env := [⟨[.sensor 0x03#8 1#8, .masterWrite 0x01#8 2#8], false, some 5#8⟩] } : State).Idle ∧
    ({ base with env := [⟨[.sensor 0x03#8 1#8, .masterWrite 0x01#8 2#8], false, some 5#8⟩] } : State).Answered
      5 := by
  refine ⟨rfl, ?_⟩
  exact (by decide : ∀ k, k < 5 →
    (({ base with env := [⟨[.sensor 0x03#8 1#8, .masterWrite 0x01#8 2#8], false, some 5#8⟩] } : State).moment
      k).fail = false)

theorem test_witness_InitConfigAIsThePackedDefaults : Config.defaults.wf = true := by decide

/-- The write of SETMODE completes in `base` and fails in `failing 1`. -/
theorem test_witness_SetmodeMovesTheOperatingMode :
    (failing 1).NoOtherWriter 2 ∧ ((failing 1).moment 0).fail = false ∧ ((failing 1).moment 0).data = none ∧
    ((failing 1).moment 1).fail = true ∧ (failing 1).cfg.wf = true ∧ Memory.wf (failing 1).dev = true := by
  refine ⟨?_, by decide, by decide, by decide, by decide, by decide⟩
  exact (by decide : ∀ k, k < 2 → ∀ x ∈ ((failing 1).moment k).acts, x.leavesConfiguration = true)

theorem test_witness_LostUpdate :
    ({ base with env := [Moment.quiet, ⟨[.masterWrite 0x02#8 3#8], false, none⟩] } : State).moment 0 =
      Moment.quiet ∧
    ({ base with env := [Moment.quiet, ⟨[.masterWrite 0x02#8 3#8], false, none⟩] } : State).moment 1 =
      ⟨[.masterWrite ConfigItem.mode.reg 3#8], false, none⟩ := by decide

theorem test_witness_FixedReadsPassTheByteThrough :
    (Instr.rdida, Config.aIda) ∈ fixedReads ∧ (Instr.rdstat, Config.aStatus) ∈ fixedReads ∧
    (base.moment 0).fail = false ∧ ((failing 0).moment 0).fail = true := by decide

/-- The extreme samples A4 and A5. -/
theorem test_witness_SampleRangesFitTheLanes :
    (axes 0x80#8 0#8 0x80#8 0#8 0x80#8 0#8 (-32768) (-32768) (-32768)).sx = -6029312 ∧
    (axes 0x7F#8 0xFF#8 0x7F#8 0xFF#8 0x7F#8 0xFF#8 32767 32767 32767).x = 65534 := by decide

/-- A vector other than the origin whose enclosure settles both floors, just below 0 degrees. -/
theorem test_witness_HeadingBracketsTheExactAngle :
    ¬((11459 : Int) = 0 ∧ (-1 : Int) = 0) ∧ Heading.resolved 11459 (-1) = true := by decide +kernel

/-- Both cases of the origin test. -/
theorem test_witness_HeadingAnswersBothFormats :
    base.Idle ∧ (0#24 = (0#24 : Op24) ∧ 0#24 = (0#24 : Op24)) ∧ ¬(1#24 = (0#24 : Op24) ∧ 0#24 = (0#24 : Op24)) := by
  refine ⟨rfl, by decide, by decide⟩

/-- HeadingDependsOnDirectionOnly and HeadingAtTheExactDirections, with the factor of R174; HeadingRanges. -/
theorem test_witness_heading_premises : (0 : Int) < 92 ∧ Config.defaults.wf = true := by decide

theorem test_witness_GetvaluesHeadingsAreEqual :
    ∃ t r, exec .getvalues (failing 5) = .next t ∧ t.rsp = some r := ⟨_, _, rfl, rfl⟩

/-- Two states that differ in the bytes of z and in `CALZ`. -/
theorem test_witness_HeadingIgnoresZ :
    base.Answered 6 ∧ ({ withDev [(0x04, 0x0A#8), (0x05, 0x7F#8), (0x06, 0xFF#8), (0x08, 0x1E#8)] with
      calZ := 1#16 } : State).Answered 6 ∧
    ({ withDev [(0x04, 0x0A#8), (0x05, 0x7F#8), (0x06, 0xFF#8), (0x08, 0x1E#8)] with
      calZ := 1#16 } : State).readByte 5 Config.aYLow = base.readByte 5 Config.aYLow ∧
    (∃ t r, exec .getvalues base = .next t ∧ t.rsp = some r) := by
  refine ⟨fun _ _ => rfl, fun _ _ => rfl, by decide, ⟨_, _, rfl, rfl⟩⟩

/-- Every status of the table occurs. -/
theorem test_witness_StatusesFollowTheTable :
    base.cfg.wf = true ∧ (answered (.rdf 0#8 7 8) base).map Prod.fst = some .ok ∧
    (answered (.rdf 0#8 7 8) (failing 0)).map Prod.fst = some .transportError ∧
    (answered (.rdf 0#8 8 1) base).map Prod.fst = some .configurationError := by decide

/-- A failed INIT of an initialised block. -/
theorem test_witness_FailureLeavesTheBlock :
    ∃ t r, exec .init { failing 4 with inited := true } = .next t ∧ t.rsp = some r ∧ r.status ≠ .ok :=
  ⟨_, _, rfl, rfl, by decide⟩

/-- A legal and an illegal word. -/
theorem test_witness_ResponseCarriesInited :
    (∃ t, step (issuing 0x3000000000000000#64) = .next t) ∧ (∃ t, step (issuing 1#64) = .next t) :=
  ⟨⟨_, rfl⟩, ⟨_, rfl⟩⟩

/-- Steps that change each register of the block: by its command, by a command in flight, by reset. -/
theorem test_witness_BlockRegistersHaveOneWriter :
    (∃ t, step (issuing 0x5800000000000001#64) = .next t ∧ t.calX ≠ base.calX) ∧
    (∃ t, step (issuing 0x5900000000000001#64) = .next t ∧ t.calY ≠ base.calY) ∧
    (∃ t, step (base.accept (.setcalz 1#16)) = .next t ∧ t.calZ ≠ base.calZ) ∧
    (∃ t, step (issuing 0x3000000000000000#64) = .next t ∧ t.inited ≠ base.inited) ∧
    (∃ t, step { shifted with host := [.reset], inited := true } = .next t ∧ t.calX ≠ shifted.calX) :=
  ⟨⟨_, rfl, by decide⟩, ⟨_, rfl, by decide⟩, ⟨_, rfl, by decide⟩, ⟨_, rfl, by decide⟩, ⟨_, rfl, by decide⟩⟩

/-- A command that writes and one that never does. -/
theorem test_witness_OnlyWritersWrite :
    readOnly .getrate = true ∧ readOnly .init = false ∧
    ∃ t, exec (.setmode 2#8) base = .next t ∧ .write 0x02#8 0x02#8 true ∈ t.trace :=
  ⟨by decide, by decide, _, rfl, by decide⟩

/-- A register next to the one written. -/
theorem test_witness_CommandsLeaveOtherRegisters :
    (∃ t, exec (.setmode 2#8) base = .next t) ∧ base.Alone 6 ∧ 1 ∉ storedAddrs (.setmode 2#8) :=
  ⟨⟨_, rfl⟩, fun _ _ => rfl, by decide⟩

/-- The next state that CommandsLeaveHostAndConfiguration and NoMemoryOfEarlierCommands speak of. -/
theorem test_witness_next : ∃ t, exec .rdaxes base = .next t := ⟨_, rfl⟩

theorem test_witness_EveryStepKeepsTheInvariant : Inv base ∧ ∃ t, step base = .next t :=
  ⟨⟨rfl, by decide, by decide, (fun _ h => by cases h), by decide, by decide⟩, _, rfl⟩

end Sys2Proof.Tests
end

/-! The decoder against the opcode map (30_encoding.md rules R61, R68, R70), and the `inited` bit of a
response (R65). -/

namespace Sys2Proof

/-! ### A row of the opcode map as an opcode and a zero field -/

/-- The `n` bits from bit `lo` on, in the word's part below the opcode. -/
def zeroFieldMask (lo n : Nat) : BitVec 56 := (BitVec.allOnes n).setWidth 56 <<< lo

/-- The mask of a row: the whole opcode, and the `n` bits from bit `lo` on, which the row's format asks
to be zero (R61). -/
def rowMask (lo n : Nat) : Word := BitVec.allOnes 8 ++ zeroFieldMask lo n

theorem getLsbD_zeroFieldMask (lo n k : Nat) :
    (zeroFieldMask lo n).getLsbD k = decide (k < 56 ∧ lo ≤ k ∧ k < lo + n) := by
  simp only [zeroFieldMask, BitVec.getLsbD_shiftLeft, BitVec.getLsbD_setWidth, BitVec.getLsbD_allOnes]
  grind

/-- Bit `lo + k` of the word is bit `k` of the field, and outside the field the mask is zero. -/
theorem and_zeroFieldMask_eq_zero_iff {lo n : Nat} (hn : lo + n ≤ 56) (w : Word) :
    w.extractLsb' 0 56 &&& zeroFieldMask lo n = 0#56 ↔ w.extractLsb' lo n = 0 := by
  simp only [BitVec.eq_of_getLsbD_eq_iff, BitVec.getLsbD_and, BitVec.getLsbD_extractLsb',
    getLsbD_zeroFieldMask, BitVec.ofNat_eq_ofNat, BitVec.getLsbD_zero, Nat.zero_add]
  constructor
  · intro h k hk
    have := h (lo + k) (by omega)
    grind
  · intro h k hk
    have := h (k - lo)
    grind

theorem append_eq_append_iff {m n : Nat} {a c : BitVec m} {b d : BitVec n} :
    a ++ b = c ++ d ↔ a = c ∧ b = d := by
  refine ⟨fun h => ⟨?_, ?_⟩, fun ⟨ha, hb⟩ => ha ▸ hb ▸ rfl⟩
  · simpa only [BitVec.extractLsb'_append_eq_left] using congrArg (BitVec.extractLsb' n m) h
  · simpa only [BitVec.extractLsb'_append_eq_right] using congrArg (BitVec.extractLsb' 0 n) h

theorem opcodeOf_append_low (w : Word) : opcodeOf w ++ w.extractLsb' 0 56 = w :=
  (BitVec.extractLsb'_append_extractLsb'_eq_extractLsb' rfl).trans BitVec.extractLsb'_eq_self

/-- What matching a row says of a word: the row's opcode above, zeros in the row's zero field. -/
theorem and_rowMask_eq_formatN_iff {lo n : Nat} (hn : lo + n ≤ 56) (w : Word) (op : BitVec 8) :
    w &&& rowMask lo n = formatN op ↔ opcodeOf w = op ∧ w.extractLsb' lo n = 0 := by
  rw [← and_zeroFieldMask_eq_zero_iff hn, ← BitVec.and_allOnes (x := opcodeOf w),
    ← append_eq_append_iff, ← BitVec.and_append, opcodeOf_append_low, formatN, rowMask]

/-! ### The rows of the table -/

/-- The opcode column of rule R68. -/
theorem opcodeTable_opcodes : opcodeTable.map (fun r => (opcodeOf r.value).toNat) =
    [0x10, 0x11, 0x12, 0x20, 0x30, 0x40, 0x41, 0x42, 0x43, 0x44, 0x48, 0x49, 0x4A, 0x4B, 0x4C,
     0x50, 0x51, 0x52, 0x53, 0x58, 0x59, 0x5A, 0x60, 0x70, 0x71] := by decide

theorem opcodes_nodup : (opcodeTable.map fun r => (opcodeOf r.value).toNat).Nodup := by
  rw [opcodeTable_opcodes]
  decide

theorem mnemonics_nodup : (opcodeTable.map OpcodeRow.mnemonic).Nodup := by
  simp [opcodeTable]

theorem opcodeOf_mask : ∀ r ∈ opcodeTable, opcodeOf r.mask = BitVec.allOnes 8 := by decide

/-- A word that matches a row has the row's opcode, since every mask covers the opcode. -/
theorem opcodeOf_eq_of_match {w : Word} {r : OpcodeRow} (hr : r ∈ opcodeTable)
    (h : w &&& r.mask = r.value) : opcodeOf r.value = opcodeOf w := by
  have hm := opcodeOf_mask r hr
  unfold opcodeOf at *
  rw [← h, BitVec.extractLsb'_and, hm, BitVec.and_allOnes]

theorem row_eq_of_opcode {r r' : OpcodeRow} (hr : r ∈ opcodeTable) (hr' : r' ∈ opcodeTable)
    (h : opcodeOf r.value = opcodeOf r'.value) : r = r' :=
  List.inj_on_of_nodup_map opcodes_nodup hr hr' (congrArg BitVec.toNat h)

theorem row_eq_of_mnemonic {r r' : OpcodeRow} (hr : r ∈ opcodeTable) (hr' : r' ∈ opcodeTable)
    (h : r.mnemonic = r'.mnemonic) : r = r' :=
  List.inj_on_of_nodup_map mnemonics_nodup hr hr' h

/-! ### What the decoder does -/

theorem needZero_eq_ok_iff {lo n : Nat} {w : Word} {i j : Instr} :
    needZero lo n w i = .ok j ↔ w.extractLsb' lo n = 0 ∧ i = j := by
  unfold needZero
  split <;> simp_all

/-- On `w` the decoder follows row `r`: the row has `w`'s opcode and the name of command `i`, and `w` is
that command unless it is non-zero in the row's zero field. -/
def FollowsRow (w : Word) (r : OpcodeRow) (i : Instr) : Prop :=
  ∃ lo n, lo + n ≤ 56 ∧ r = ⟨i.mnemonic, formatN (opcodeOf w), rowMask lo n⟩ ∧
    decode w = needZero lo n w i

namespace FollowsRow

theorem intro {w : Word} {lo n op : Nat} {i : Instr} (hop : (opcodeOf w).toNat = op)
    (hd : decode w = needZero lo n w i) (hn : lo + n ≤ 56)
    (hr : ⟨i.mnemonic, formatN (BitVec.ofNat 8 op), rowMask lo n⟩ ∈ opcodeTable) :
    ∃ r ∈ opcodeTable, ∃ i, FollowsRow w r i := by
  subst hop
  rw [BitVec.ofNat_toNat, BitVec.setWidth_eq] at hr
  exact ⟨_, hr, i, lo, n, hn, rfl, hd⟩

variable {w : Word} {r : OpcodeRow} {i : Instr}

theorem mnemonic_eq (h : FollowsRow w r i) : i.mnemonic = r.mnemonic := by
  obtain ⟨_, _, _, rfl, _⟩ := h
  rfl

theorem opcode_eq (h : FollowsRow w r i) : opcodeOf r.value = opcodeOf w := by
  obtain ⟨_, _, _, rfl, _⟩ := h
  exact formatN_op _

theorem decode_eq_ok_iff (h : FollowsRow w r i) {j : Instr} :
    decode w = .ok j ↔ w &&& r.mask = r.value ∧ i = j := by
  obtain ⟨lo, n, hn, rfl, hd⟩ := h
  rw [hd, needZero_eq_ok_iff, and_rowMask_eq_formatN_iff hn, eq_self, true_and]

end FollowsRow

/-- What the decoder can do: reject a word whose opcode no row has, or follow a row. -/
theorem decode_cases (w : Word) :
    (decode w = .error (.unassignedOpcode (opcodeOf w)) ∧
      ∀ r ∈ opcodeTable, opcodeOf r.value ≠ opcodeOf w) ∨
    ∃ r ∈ opcodeTable, ∃ i, FollowsRow w r i := by
  have hd := decode.eq_def w
  split at hd
  case h_26 =>
    refine .inl ⟨hd, fun r hr hop => ?_⟩
    have hmem := opcodeTable_opcodes ▸ List.mem_map_of_mem hr
    rw [hop] at hmem
    simp_all
  all_goals
    refine .inr (FollowsRow.intro ‹_› hd (by decide) ?_)
    simp only [Instr.mnemonic]
    decide

/-- Settles O9: the decoder follows at most one row on a word, and both sides pick out that row, the left
by its opcode and the right by its mnemonic. -/
theorem decoderFollowsTheOpcodeMap : Obligations.DecoderFollowsTheOpcodeMap := by
  intro w r hr
  obtain ⟨hd, hno⟩ | ⟨r', hr', i, hi⟩ := decode_cases w
  · simp only [hd, reduceCtorEq, false_and, exists_false, iff_false]
    exact fun h => hno r hr (opcodeOf_eq_of_match hr h)
  · constructor
    · intro h
      obtain rfl := row_eq_of_opcode hr hr' ((opcodeOf_eq_of_match hr h).trans hi.opcode_eq.symm)
      exact ⟨i, hi.decode_eq_ok_iff.2 ⟨h, rfl⟩, hi.mnemonic_eq⟩
    · rintro ⟨j, hj, hm⟩
      obtain ⟨hmatch, rfl⟩ := hi.decode_eq_ok_iff.1 hj
      obtain rfl := row_eq_of_mnemonic hr hr' (hm.symm.trans hi.mnemonic_eq)
      exact hmatch

end Sys2Proof

namespace Sys2Proof.Machine

/-! ### The response's `inited` -/

/-- However a command ends, its response carries the `inited` of the state it leaves. -/
theorem exec_rsp_inited {i : Instr} {s t : State} (h : exec i s = .next t) :
    ∃ r, t.rsp = some r ∧ r.inited = t.inited := by
  obtain ⟨-, ⟨-, rfl⟩ | ⟨-, -, rfl⟩ | ⟨-, -, rfl⟩⟩ := exec_cases h
  all_goals exact ⟨_, rfl, rfl⟩

/-- Settles O53: with a command word offered to the idle block, the step is an illegal word's or a
command's; the other three cases of `step_cases` take no command. -/
theorem responseCarriesInited : Obligations.ResponseCarriesInited := by
  intro s t w rest hidle hhost hstep
  obtain ⟨f, hf, -⟩ | ⟨-, hh, -⟩ | ⟨_, -, hh, -⟩ | ⟨_, _, _, -, -, -, rfl⟩ | ⟨_, _, i, -, -, -, he⟩ :=
    step_cases hstep
  · simp [State.Idle, hf] at hidle
  · simp [hhost] at hh
  · simp [hhost] at hh
  · exact ⟨_, State.illegalWord_rsp _, rfl⟩
  · exact exec_rsp_inited he

end Sys2Proof.Machine

/-! The accessor (40_bitfield_accessor.md): the bits of a field's mask, reading and merging a field, and how
RDF and WRF end. -/

namespace Sys2Proof.Machine

/-! ### The mask of a field (R101) -/

theorem validField_iff {hb len : Nat} :
    validField hb len = true ↔ hb ≤ 7 ∧ 1 ≤ len ∧ len ≤ hb + 1 := by
  simp [validField, and_assoc]

/-- The field ends just above its highest bit. -/
theorem fieldShift_add_len {hb len : Nat} (h : validField hb len = true) :
    fieldShift hb len + len = hb + 1 :=
  Nat.sub_add_cancel (validField_iff.1 h).2.2

theorem fieldMask_lt {hb len : Nat} (h : validField hb len = true) :
    ((1 <<< len) - 1) <<< fieldShift hb len < 2 ^ 8 := by
  have hs := fieldShift_add_len h
  have hhb := (validField_iff.1 h).1
  calc ((1 <<< len) - 1) <<< fieldShift hb len
      < 2 ^ len * 2 ^ fieldShift hb len := by
        rw [Nat.shiftLeft_eq, Nat.one_shiftLeft]
        have := Nat.two_pow_pos len
        gcongr
        omega
    _ = 2 ^ (hb + 1) := by rw [← pow_add, Nat.add_comm, hs]
    _ ≤ 2 ^ 8 := Nat.pow_le_pow_right (by decide) (by omega)

/-- The mask's value needs no truncation. -/
theorem toNat_fieldMask {hb len : Nat} (h : validField hb len = true) :
    (fieldMask hb len).toNat = ((1 <<< len) - 1) <<< fieldShift hb len := by
  rw [fieldMask, BitVec.toNat_ofNat, Nat.mod_eq_of_lt (fieldMask_lt h)]

/-- The mask's one bits are the positions of the field. -/
theorem getLsbD_fieldMask {hb len : Nat} (h : validField hb len = true) (i : Nat) :
    (fieldMask hb len).getLsbD i = decide (fieldShift hb len ≤ i ∧ i ≤ hb) := by
  have hs := fieldShift_add_len h
  have hhb := (validField_iff.1 h).1
  simp only [fieldMask, BitVec.getLsbD_ofNat, Nat.testBit_shiftLeft, Nat.one_shiftLeft,
    Nat.testBit_two_pow_sub_one]
  grind

/-- Settles O16: the mask's bits are `getLsbD_fieldMask`, and it is not zero because bit `hb` is one. -/
theorem maskHasExactlyTheFieldsBits : Obligations.MaskHasExactlyTheFieldsBits := by
  intro hb len h
  obtain ⟨hhb, hlen, hle⟩ := validField_iff.1 h
  have hs := fieldShift_add_len h
  refine ⟨by omega, hs, toNat_fieldMask h, ?_, fun i _ => by simp [getLsbD_fieldMask h]⟩
  have hbit : (fieldMask hb len).toNat.testBit hb = true := by
    rw [BitVec.testBit_toNat, getLsbD_fieldMask h]
    exact decide_eq_true ⟨by omega, le_rfl⟩
  exact (Nat.two_pow_pos hb).trans_le (Nat.ge_two_pow_of_testBit hbit)

/-! ### Reading and merging a field (R102, R104) -/

/-- Bit `i` of a field is bit `i` above the shift of the byte. -/
theorem getLsbD_readField {hb len : Nat} (h : validField hb len = true) (byte : Byte) (i : Nat) :
    (readField hb len byte).getLsbD i =
      (decide (i < len) && byte.getLsbD (fieldShift hb len + i)) := by
  have hs := fieldShift_add_len h
  simp only [readField, BitVec.getLsbD_ushiftRight, BitVec.getLsbD_and, getLsbD_fieldMask h]
  grind

/-- The merged byte is the value inside the field and the old byte outside it. -/
theorem getLsbD_mergeField {hb len : Nat} (h : validField hb len = true) (old val : Byte) (i : Nat) :
    (mergeField hb len old val).getLsbD i =
      if fieldShift hb len ≤ i ∧ i ≤ hb then val.getLsbD (i - fieldShift hb len) else old.getLsbD i := by
  have hhb := (validField_iff.1 h).1
  simp only [mergeField, BitVec.getLsbD_or, BitVec.getLsbD_and, BitVec.getLsbD_not,
    BitVec.getLsbD_shiftLeft, getLsbD_fieldMask h]
  by_cases hi : i < 8
  · grind
  · grind [BitVec.getLsbD_of_ge old i (by omega)]

/-- Reading a field back after merging gives the value's low `len` bits. -/
theorem getLsbD_readField_mergeField {hb len : Nat} (h : validField hb len = true) (old val : Byte)
    (i : Nat) :
    (readField hb len (mergeField hb len old val)).getLsbD i =
      (decide (i < len) && val.getLsbD i) := by
  have hs := fieldShift_add_len h
  rw [getLsbD_readField h, getLsbD_mergeField h]
  grind

/-- R106 on a byte: the field read back is the truncated value. -/
theorem toNat_readField_mergeField {hb len : Nat} (h : validField hb len = true) (old val : Byte) :
    (readField hb len (mergeField hb len old val)).toNat = val.toNat &&& ((1 <<< len) - 1) := by
  apply Nat.eq_of_testBit_eq
  intro i
  rw [BitVec.testBit_toNat, getLsbD_readField_mergeField h, Nat.testBit_and, Nat.one_shiftLeft,
    Nat.testBit_two_pow_sub_one, BitVec.testBit_toNat, Bool.and_comm]

/-- R106 on a byte: the bits outside the field are the old ones. -/
theorem mergeField_outside {hb len : Nat} (h : validField hb len = true) (old val : Byte) :
    mergeField hb len old val &&& ~~~(fieldMask hb len) = old &&& ~~~(fieldMask hb len) := by
  apply BitVec.eq_of_getLsbD_eq
  intro i _
  rw [BitVec.getLsbD_and, BitVec.getLsbD_and, BitVec.getLsbD_not, getLsbD_mergeField h,
    getLsbD_fieldMask h]
  grind

/-- R102's formula, on numbers. -/
theorem toNat_readField {hb len : Nat} (h : validField hb len = true) (byte : Byte) :
    (readField hb len byte).toNat =
      (byte.toNat &&& (((1 <<< len) - 1) <<< fieldShift hb len)) >>> fieldShift hb len := by
  rw [readField, BitVec.toNat_ushiftRight, BitVec.toNat_and, toNat_fieldMask h]

theorem laneOfByte_eq_ofNat (b : Byte) : laneOfByte b = BitVec.ofNat 32 b.toNat :=
  (BitVec.ofNat_toNat 32 b).symm

/-! ### How a plan ends, from how its transaction list ends -/

section

variable {p : Plan} {s u : State}

theorem Plan.run_of_ok (hseq : s.seq = 0#3) (hv : p.valid = true) (h : runMicros p.micros s = (true, u)) :
    p.run s = (p.finish u).respond .ok (p.lanes u.temps u) := by
  simp [Plan.run_eq, hseq, hv, h]

theorem Plan.run_of_fail (hseq : s.seq = 0#3) (hv : p.valid = true)
    (h : runMicros p.micros s = (false, u)) : p.run s = u.failWith .transportError := by
  simp [Plan.run_eq, hseq, hv, h]

theorem Plan.run_of_invalid (hv : p.valid = false) : p.run s = s.failWith .configurationError := by
  simp [Plan.run_eq, hv]

end

/-! ### The device and the environment around a command's transactions -/

/-- The device at a command's first transaction: what the environment alone makes of it. -/
theorem accept_afterMoment_dev (s : State) (i : Instr) : (s.accept i).afterMoment.dev = s.devAt 1 := by
  rw [State.afterMoment_dev_eq, State.accept_devAt]

/-- The device after an answered read and a completed write: the environment's actions, then the byte. -/
theorem writeDone_readDone_dev (s : State) (i : Instr) (reg : Addr) (new : Byte) :
    (writeDone reg new (readDone reg (s.accept i))).dev = devStore reg new (s.devAt 2) := by
  simp [State.devAt, State.nextMoment_eq]

/-- What is undisturbed for `m + n` transactions is so for the last `n` of them, once `m` are done. -/
theorem State.Undisturbed.drop {s t : State} {m n : Nat} (h : s.Undisturbed (m + n))
    (henv : t.env = s.env.drop m) : t.Undisturbed n := by
  obtain ⟨hdevice, hwriter⟩ := h
  refine ⟨fun k hk => ?_, fun k hk => ?_⟩ <;> rw [State.moment_of_env henv]
  · exact hdevice (m + k) (by omega)
  · exact hwriter (m + k) (by omega)

/-- An undisturbed read of a configuration register finds the byte the register holds. -/
theorem State.Undisturbed.readByte_eq {s : State} {n k : Nat} (h : s.Undisturbed n) (hk : k < n)
    {reg : Addr} (hreg : reg.toNat ≤ 2) : s.readByte k reg = Memory.read s.dev reg.toNat := by
  obtain ⟨hdevice, hwriter⟩ := h
  have hmapped : mapped reg = true := decide_eq_true (by omega)
  simp [State.readByte, hdevice k hk, hmapped, State.read_devAt_config hwriter hreg (k + 1) hk]

/-! ### The field plans: one read, and one read with one write -/

section

variable {s : State} {hb len : Nat}

theorem readFieldPlan_run_ok (i : Instr) (reg : Addr) (hv : validField hb len = true)
    (h : (s.moment 0).fail = false) :
    (readFieldPlan reg hb len).run (s.accept i) =
      (readDone reg (s.accept i)).respond .ok { q0 := laneOfByte (readField hb len (s.readByte 0 reg)) } := by
  have hrun : runMicros (readFieldPlan reg hb len).micros (s.accept i) =
      (true, readDone reg (s.accept i)) := by
    simp [readFieldPlan, runMicros, perform_read_ok (s := s.accept i) h]
  have htemps : (readDone reg (s.accept i)).temps = [s.readByte 0 reg] := by
    simp [readDone_temps, State.found_accept]
  rw [Plan.run_of_ok rfl hv hrun, htemps]
  rfl

theorem readFieldPlan_run_fail (i : Instr) (reg : Addr) (hv : validField hb len = true)
    (h : (s.moment 0).fail = true) :
    (readFieldPlan reg hb len).run (s.accept i) =
      ((s.accept i).afterMoment.log (.read reg none)).failWith .transportError := by
  refine Plan.run_of_fail rfl hv ?_
  simp [readFieldPlan, runMicros, perform_read_fail (s := s.accept i) h]

theorem writeFieldPlan_run_ok (i : Instr) (reg : Addr) (val : Byte) (hv : validField hb len = true)
    (h : s.Answered 2) :
    (writeFieldPlan reg hb len val).run (s.accept i) =
      (writeDone reg (mergeField hb len (s.readByte 0 reg) val) (readDone reg (s.accept i))).respond .ok
        {} := by
  have hread := perform_read_ok (s := s.accept i) (h 0 (by decide)) reg
  have hwrite := perform_write_ok (s := readDone reg (s.accept i)) (by simpa using h 1 (by decide)) reg
    fun t => mergeField hb len (t.getD 0 0#8) val
  have htemps : (readDone reg (s.accept i)).temps = [s.readByte 0 reg] := by
    simp [readDone_temps, State.found_accept]
  rw [htemps] at hwrite
  refine Plan.run_of_ok rfl hv ?_
  simp only [writeFieldPlan, runMicros, hread, hwrite]
  rfl

end

/-! ### RDF (R102) -/

section

variable {s : State} {hb len : Nat}

theorem exec_rdf_ok (hidle : s.Idle) (reg : Addr) (hv : validField hb len = true)
    (h : (s.moment 0).fail = false) :
    exec (.rdf reg hb len) s = .next ((readDone reg (s.accept (.rdf reg hb len))).respond .ok
      { q0 := laneOfByte (readField hb len (s.readByte 0 reg)) }) :=
  (exec_of_idle hidle _).trans (congrArg _ (readFieldPlan_run_ok _ reg hv h))

theorem exec_rdf_fail (hidle : s.Idle) (reg : Addr) (hv : validField hb len = true)
    (h : (s.moment 0).fail = true) :
    exec (.rdf reg hb len) s = .next
      (((s.accept (.rdf reg hb len)).afterMoment.log (.read reg none)).failWith .transportError) :=
  (exec_of_idle hidle _).trans (congrArg _ (readFieldPlan_run_fail _ reg hv h))

theorem exec_rdf_invalid (hidle : s.Idle) (reg : Addr) (hv : validField hb len = false) :
    exec (.rdf reg hb len) s =
      .next ((s.accept (.rdf reg hb len)).failWith .configurationError) :=
  (exec_of_idle hidle _).trans (congrArg _ (Plan.run_of_invalid hv))

end

/-- Settles O18: the three ways RDF ends, each with its whole next state. -/
theorem rdfReadsTheField : Obligations.RdfReadsTheField := by
  intro s reg hb len hidle
  have hdev := accept_afterMoment_dev s (.rdf reg hb len)
  refine ⟨fun hhb hlen hle h => ?_, fun hhb hlen hle h => ?_, fun hinv => ?_⟩
  · have hv := validField_iff.2 ⟨hhb, hlen, hle⟩
    refine ⟨_, exec_rdf_ok hidle reg hv h, ?_, ?_, ⟨rfl, rfl, rfl, rfl, rfl, rfl, rfl⟩, hdev, ?_⟩
    · rw [laneOfByte_eq_ofNat, toNat_readField hv]
      rfl
    · simp [State.found_accept]
    · simp
  · have hv := validField_iff.2 ⟨hhb, hlen, hle⟩
    exact ⟨_, exec_rdf_fail hidle reg hv h, rfl, rfl, ⟨rfl, rfl, rfl, rfl, rfl, rfl, rfl⟩, hdev, by simp⟩
  · have hv : validField hb len = false := by
      rw [Bool.eq_false_iff, Ne, validField_iff]
      omega
    exact ⟨_, exec_rdf_invalid hidle reg hv, rfl, ⟨rfl, rfl, rfl, rfl, rfl, rfl, rfl⟩, rfl, rfl, rfl, rfl⟩

/-! ### WRF with both transactions answered (R104), and the round trip (R106) -/

/-- The block's registers are as before, two moments are used, and the device has the merged byte stored. -/
theorem exec_wrf_ok {s : State} {hb len : Nat} (hidle : s.Idle) (reg : Addr) (val : Byte)
    (hv : validField hb len = true) (h : s.Answered 2) :
    ∃ t, exec (.wrf reg hb len val) s = .next t ∧ s.KeepsBlock t ∧ t.env = s.env.drop 2 ∧
      t.dev = devStore reg (mergeField hb len (s.readByte 0 reg) val) (s.devAt 2) := by
  refine ⟨_, exec_of_idle hidle _, ?_⟩
  rw [plan_start, if_neg nofun, planOf, wrfPlan, writeFieldPlan_run_ok _ reg val hv h]
  exact ⟨by simp [State.KeepsBlock], by simp [← List.drop_one],
    by rw [State.respond_dev, writeDone_readDone_dev]⟩

/-- Settles O22: WRF leaves the merged byte in the register, RDF finds it there, and on that byte the round
trip is `toNat_readField_mergeField` with `mergeField_outside`. -/
theorem wrfThenRdfRoundTrip : Obligations.WrfThenRdfRoundTrip := by
  intro s reg hb len v hidle hwf hund hreg hv
  obtain ⟨hhb, hlen, hle⟩ := validField_iff.1 hv
  obtain ⟨t, hwrf, ⟨-, -, -, hinited, hidle', -⟩, henv, hdev⟩ :=
    exec_wrf_ok hidle reg v hv fun k hk => hund.answered k (by omega)
  have hund' : t.Undisturbed 1 := State.Undisturbed.drop hund henv
  have hkept : Memory.read t.dev reg.toNat = mergeField hb len (Memory.read s.dev reg.toNat) v := by
    rw [hdev, read_devStore_same _ (decide_eq_true hreg) (State.devAt_wf hwf 2),
      hund.readByte_eq (by decide) hreg]
  obtain ⟨u, hrdf, hrsp, -, -, hdev', -⟩ :=
    (rdfReadsTheField t reg hb len hidle').1 hhb hlen hle (hund'.answered 0 (by decide))
  refine ⟨t, u, hwrf, hrdf, ?_, ?_⟩
  · rw [hrsp, ← fieldShift, ← toNat_readField hv, hund'.readByte_eq (by decide) hreg, hkept,
      toNat_readField_mergeField hv, hinited]
  · rw [hdev', State.read_devAt_config hund'.2 hreg 1 (by decide), hkept, mergeField_outside hv]

end Sys2Proof.Machine

/-! The driver's configuration commands (42_driver_config.md): the setters are WRF, the getters and the
fixed reads are RDF, and the calibration setters run no transaction. -/

namespace Sys2Proof.Machine

/-! ### Two commands with the same plan do the same

The sequencer keeps the command in flight (R15), but no transaction reads it and no response carries it. -/

/-- The state with another command in the sequencer; `seq` and the temporaries are kept. -/
def State.relabel (i : Instr) (s : State) : State :=
  { s with inflight := s.inflight.map fun f => { f with cmd := i } }

@[simp] theorem State.relabel_temps (i : Instr) (s : State) : (s.relabel i).temps = s.temps := by
  cases h : s.inflight <;> simp [relabel, temps, h]

@[simp] theorem State.relabel_seq (i : Instr) (s : State) : (s.relabel i).seq = s.seq := by
  cases h : s.inflight <;> simp [relabel, seq, h]

theorem State.relabel_advance (i : Instr) (got : List Byte) (s : State) :
    (s.relabel i).advance got = (s.advance got).relabel i := by
  cases h : s.inflight <;> simp [relabel, advance, h]

theorem readDone_relabel (a : Addr) (i : Instr) (s : State) :
    readDone a (s.relabel i) = (readDone a s).relabel i := by
  rw [readDone, readDone, ← State.relabel_advance]
  rfl

theorem writeDone_relabel (a : Addr) (v : Byte) (i : Instr) (s : State) :
    writeDone a v (s.relabel i) = (writeDone a v s).relabel i := by
  rw [writeDone, writeDone, ← State.relabel_advance]
  rfl

theorem perform_relabel (m : Micro) (i : Instr) (s : State) :
    m.perform (s.relabel i) = ((m.perform s).1, (m.perform s).2.relabel i) := by
  have hmoment : (s.relabel i).moment 0 = s.moment 0 := rfl
  cases m with
  | read a =>
    cases h : (s.moment 0).fail with
    | false => rw [perform_read_ok h, perform_read_ok (hmoment ▸ h), readDone_relabel]
    | true =>
      rw [perform_read_fail h, perform_read_fail (hmoment ▸ h)]
      rfl
  | write a v =>
    cases h : (s.moment 0).fail with
    | false =>
      rw [perform_write_ok h, perform_write_ok (hmoment ▸ h), State.relabel_temps, writeDone_relabel]
    | true =>
      rw [perform_write_fail h, perform_write_fail (hmoment ▸ h), State.relabel_temps]
      rfl
  | wait t => rfl

theorem runMicros_relabel (ms : List Micro) (i : Instr) : ∀ s : State,
    runMicros ms (s.relabel i) = ((runMicros ms s).1, (runMicros ms s).2.relabel i) := by
  induction ms with
  | nil => exact fun _ => rfl
  | cons m ms ih =>
    intro s
    rw [runMicros_cons, runMicros_cons, perform_relabel]
    cases (m.perform s).1 with
    | false => rfl
    | true => exact ih _

/-- A plan whose only effects are its transactions, with lanes computed from the bytes read alone. -/
structure Plan.OnlyTransacts (p : Plan) : Prop where
  start : p.start = id
  finish : p.finish = id
  lanes : ∀ t s u, p.lanes t s = p.lanes t u

theorem Plan.OnlyTransacts.run_relabel {p : Plan} (hp : p.OnlyTransacts) (i : Instr) (s : State) :
    p.run (s.relabel i) = p.run s := by
  rw [Plan.run_eq, Plan.run_eq, State.relabel_seq, runMicros_relabel, State.relabel_temps, hp.finish,
    hp.lanes _ (State.relabel _ _)]
  rfl

/-- Two commands with one such plan do the same in every state, idle or not. -/
theorem exec_eq_of_planOf_eq {i j : Instr} {s : State} {p : Plan} (hi : planOf s.cfg i = p)
    (hj : planOf s.cfg j = p) (hp : p.OnlyTransacts) : exec i s = exec j s := by
  have hrun : p.run (s.accept i) = p.run (s.accept j) := hp.run_relabel i (s.accept j)
  rw [exec_eq_issue, exec_eq_issue, hi, hj, issue, issue, hp.start, id, id, hrun]

theorem readFieldPlan_onlyTransacts (reg : Addr) (hb len : Nat) :
    (readFieldPlan reg hb len).OnlyTransacts := ⟨rfl, rfl, fun _ _ _ => rfl⟩

theorem writeFieldPlan_onlyTransacts (reg : Addr) (hb len : Nat) (val : Byte) :
    (writeFieldPlan reg hb len val).OnlyTransacts := ⟨rfl, rfl, fun _ _ _ => rfl⟩

/-! ### The field map (R130): each setter is a WRF, each getter an RDF -/

namespace ConfigItem

theorem validField_field (c : ConfigItem) {p : Config.Params} (h : p.wf = true) :
    validField (c.field p).highBit (c.field p).length = true := by
  simp only [Config.Params.wf, Config.Params.fieldsValid, BitField.wf, Bool.and_eq_true] at h
  cases c <;> simp [field, h]

theorem planOf_setter (c : ConfigItem) (p : Config.Params) (val : Byte) :
    planOf p (c.setter val) = writeFieldPlan c.reg (c.field p).highBit (c.field p).length val := by
  cases c <;> rfl

theorem planOf_getter (c : ConfigItem) (p : Config.Params) :
    planOf p c.getter = readFieldPlan c.reg (c.field p).highBit (c.field p).length := by
  cases c <;> rfl

theorem exec_setter (c : ConfigItem) (val : Byte) (s : State) :
    exec (c.setter val) s = exec (.wrf c.reg (c.field s.cfg).highBit (c.field s.cfg).length val) s :=
  exec_eq_of_planOf_eq (c.planOf_setter s.cfg val) rfl (writeFieldPlan_onlyTransacts _ _ _ _)

theorem exec_getter (c : ConfigItem) (s : State) :
    exec c.getter s = exec (.rdf c.reg (c.field s.cfg).highBit (c.field s.cfg).length) s :=
  exec_eq_of_planOf_eq (c.planOf_getter s.cfg) rfl (readFieldPlan_onlyTransacts _ _ _)

end ConfigItem

/-- Settles O32: a setter and its WRF have one plan, and a well-formed record makes the field valid. -/
theorem settersAreFieldWrites : Obligations.SettersAreFieldWrites :=
  fun s c val hwf => ⟨c.exec_setter val s, c.validField_field hwf⟩

/-! ### RDF of a valid field in the terms of `readField`, and its record -/

theorem exec_rdf_answered {s : State} {hb len : Nat} (hidle : s.Idle) (reg : Addr)
    (hv : validField hb len = true) (h : (s.moment 0).fail = false) :
    ∃ t, exec (.rdf reg hb len) s = .next t ∧
      t.rsp = some ⟨.ok, s.inited, { q0 := laneOfByte (readField hb len (s.readByte 0 reg)) }⟩ ∧
      t.trace = [.read reg (some (s.readByte 0 reg))] ∧
      s.KeepsBlock t ∧ t.dev = s.devAt 1 ∧ t.env = s.env.drop 1 := by
  obtain ⟨hhb, hlen, hle⟩ := validField_iff.1 hv
  rw [laneOfByte_eq_ofNat, toNat_readField hv]
  obtain ⟨hok, -, -⟩ := rdfReadsTheField s reg hb len hidle
  exact hok hhb hlen hle h

theorem exec_rdf_unanswered {s : State} {hb len : Nat} (hidle : s.Idle) (reg : Addr)
    (hv : validField hb len = true) (h : (s.moment 0).fail = true) :
    ∃ t, exec (.rdf reg hb len) s = .next t ∧ t.rsp = some ⟨.transportError, s.inited, {}⟩ ∧
      t.trace = [.read reg none] ∧ s.KeepsBlock t ∧ t.dev = s.devAt 1 ∧ t.env = s.env.drop 1 := by
  obtain ⟨hhb, hlen, hle⟩ := validField_iff.1 hv
  obtain ⟨-, hfail, -⟩ := rdfReadsTheField s reg hb len hidle
  exact hfail hhb hlen hle h

/-- Whether its read is answered or fails, RDF of a valid field records that one read. -/
theorem exec_rdf_trace {s t : State} {reg : Addr} {hb len : Nat} (hv : validField hb len = true)
    (h : exec (.rdf reg hb len) s = .next t) : ∃ b, t.trace = [.read reg b] := by
  obtain ⟨hidle, -⟩ := exec_next_iff.1 h
  cases hf : (s.moment 0).fail with
  | false =>
    obtain ⟨u, hu, -, htrace, -⟩ := exec_rdf_answered hidle reg hv hf
    obtain rfl : t = u := by simpa [h] using hu
    exact ⟨_, htrace⟩
  | true =>
    obtain ⟨u, hu, -, htrace, -⟩ := exec_rdf_unanswered hidle reg hv hf
    obtain rfl : t = u := by simpa [h] using hu
    exact ⟨_, htrace⟩

/-- Settles O34: a getter and its RDF have one plan, so its record is one read and its answer the field. -/
theorem gettersReadTheirField : Obligations.GettersReadTheirField := by
  intro s c hwf
  have hv := c.validField_field hwf
  rw [c.exec_getter s]
  refine ⟨rfl, fun t ht e he => ?_, fun hidle h => exec_rdf_answered hidle c.reg hv (h 0 (by decide))⟩
  obtain ⟨b, htrace⟩ := exec_rdf_trace hv ht
  rw [htrace, List.mem_singleton] at he
  rw [he]
  rfl

/-! ### The fixed reads (R155 to R158): RDF of the field that is the whole byte -/

theorem readField_whole_byte (b : Byte) : readField 7 8 b = b := by
  have hmask : fieldMask 7 8 = BitVec.allOnes 8 := by decide
  rw [readField, hmask, BitVec.and_allOnes]
  exact BitVec.ushiftRight_zero b

theorem passThroughPlan_eq_readFieldPlan (reg : Addr) : passThroughPlan reg = readFieldPlan reg 7 8 := by
  simp only [passThroughPlan, readFieldPlan, readField_whole_byte]
  rfl

theorem planOf_fixedRead (p : Config.Params) {i : Instr} {a : Addr} (h : (i, a) ∈ fixedReads) :
    planOf p i = passThroughPlan a := by
  simp only [fixedReads, List.mem_cons, Prod.mk.injEq, List.not_mem_nil, or_false] at h
  obtain ⟨rfl, rfl⟩ | ⟨rfl, rfl⟩ | ⟨rfl, rfl⟩ | ⟨rfl, rfl⟩ := h <;> rfl

theorem exec_fixedRead {i : Instr} {a : Addr} (h : (i, a) ∈ fixedReads) (s : State) :
    exec i s = exec (.rdf a 7 8) s :=
  exec_eq_of_planOf_eq ((planOf_fixedRead s.cfg h).trans (passThroughPlan_eq_readFieldPlan a)) rfl
    (readFieldPlan_onlyTransacts _ _ _)

/-- Settles O38: a fixed read is RDF of the whole byte, on which `readField` is the identity. -/
theorem fixedReadsPassTheByteThrough : Obligations.FixedReadsPassTheByteThrough := by
  intro s i a hmem hidle
  rw [exec_fixedRead hmem s]
  refine ⟨fun h => ?_, exec_rdf_unanswered hidle a (by decide)⟩
  have hok := exec_rdf_answered hidle a (by decide : validField 7 8 = true) h
  rwa [readField_whole_byte] at hok

/-! ### The calibration setters (R160 to R162) -/

/-- A command that responds as soon as it is accepted leaves only its response and an empty record. -/
theorem State.Idle.respond_accept {s : State} (h : s.Idle) (i : Instr) (st : Status) (ls : Lanes) :
    (s.accept i).respond st ls = { s with trace := [], rsp := some ⟨st, s.inited, ls⟩ } := by
  cases s
  obtain rfl := h
  rfl

/-- Settles O39: writing an offset commutes with accepting the command, so each command ends in
`respond_accept` of the state with the new offset. -/
theorem calibrationSetters : Obligations.CalibrationSetters := by
  intro s imm16 hidle
  refine ⟨(exec_of_idle hidle _).trans (congrArg _ ?_), (exec_of_idle hidle _).trans (congrArg _ ?_),
    (exec_of_idle hidle _).trans (congrArg _ ?_)⟩
  · exact State.Idle.respond_accept (s := { s with calX := imm16 }) hidle _ _ _
  · exact State.Idle.respond_accept (s := { s with calY := imm16 }) hidle _ _ _
  · exact State.Idle.respond_accept (s := { s with calZ := imm16 }) hidle _ _ _

end Sys2Proof.Machine

/-! The axis samples (43_axis_sampling.md): the ranges of the sample function, and a list of reads of mapped
registers, of which the burst is one. -/

namespace Sys2Proof.Machine

/-! ### The sample function and its lanes (R171, R173, R174) -/

theorem decode16_range (u : Half) : -32768 ≤ decode16 u ∧ decode16 u ≤ 32767 := by
  have hlt := u.isLt
  unfold decode16
  split <;> omega

/-- R173: the sum of a decoded sample and a 16-bit offset. -/
theorem rawValue_range (u c : Half) : -65536 ≤ decode16 u + c.toInt ∧ decode16 u + c.toInt ≤ 65534 := by
  obtain ⟨hlo, hhi⟩ := decode16_range u
  have hclo : -2 ^ 15 ≤ c.toInt := c.le_toInt
  have hchi : c.toInt < 2 ^ 15 := c.toInt_lt
  omega

/-- A value of 32-bit two's complement survives its lane (R66). -/
theorem toInt_lane {v : Int} (hlo : -2 ^ 31 ≤ v) (hhi : v < 2 ^ 31) : (lane v).toInt = v :=
  BitVec.toInt_ofInt_eq_self (by decide) hlo hhi

/-- R44's pair as a number. -/
theorem joinPair_eq_ofNat (high low : Byte) :
    joinPair high low = BitVec.ofNat 16 (256 * high.toNat + low.toNat) := by
  apply BitVec.eq_of_toNat_eq
  have hhigh := high.isLt
  have hlow := low.isLt
  rw [joinPair, BitVec.toNat_append, ← Nat.shiftLeft_add_eq_or_of_lt hlow, Nat.shiftLeft_eq,
    BitVec.toNat_ofNat, Nat.mod_eq_of_lt (by omega), Nat.mul_comm]

/-- Settles O40: the three axes are one sum each, so `rawValue_range` bounds the raw values, the factor 92
carries its bounds to the scaled ones, and `toInt_lane` applies to both. -/
theorem sampleRangesFitTheLanes : Obligations.SampleRangesFitTheLanes := by
  rintro d0 d1 d2 d3 d4 d5 cx cy cz v rfl
  have hx := rawValue_range (joinPair d0 d1) cx
  have hz := rawValue_range (joinPair d2 d3) cz
  have hy := rawValue_range (joinPair d4 d5) cy
  refine ⟨fun r hr => ?_, fun r hr => ?_, rfl, rfl, rfl, rfl, rfl, rfl⟩
  · obtain ⟨hlo, hhi⟩ : -65536 ≤ r ∧ r ≤ 65534 := by
      obtain rfl | rfl | rfl := hr
      · exact hx
      · exact hy
      · exact hz
    exact ⟨hlo, hhi, toInt_lane (by omega) (by omega)⟩
  · obtain ⟨hlo, hhi⟩ : -6029312 ≤ r ∧ r ≤ 6029128 := by
      simp only [axes, Config.scaleNum] at hr
      omega
    exact ⟨hlo, hhi, toInt_lane (by omega) (by omega)⟩

/-! ### A list of reads, all answered -/

@[simp] theorem readDone_devAt (a : Addr) (s : State) (k : Nat) :
    (readDone a s).devAt k = s.devAt (k + 1) := by
  induction k with
  | zero => exact s.afterMoment_dev_eq
  | succ k ih => rw [State.devAt_succ, ih, readDone_cfg, readDone_moment, State.devAt_succ s (k + 1)]

/-- A read of a mapped register draws no free byte (R43). -/
theorem readDone_draws {a : Addr} (ha : mapped a = true) (s : State) : (readDone a s).draws = s.draws := by
  simp [readDone, State.drawsFree, ha]

/-- What a later transaction finds is not changed by an answered read of a mapped register. -/
theorem readDone_readByte {a : Addr} (ha : mapped a = true) (s : State) (k : Nat) (b : Addr) :
    (readDone a s).readByte k b = s.readByte (k + 1) b := by
  simp [State.readByte, readDone_draws ha]

theorem State.Answered.readDone {s : State} {n : Nat} (h : s.Answered (n + 1)) (a : Addr) :
    (readDone a s).Answered n := fun k hk => by
  rw [readDone_moment]
  exact h (k + 1) (by omega)

/-- The bytes that the next transactions find if they read the registers `as`, in order. -/
def State.bytesRead (s : State) (as : List Addr) : List Byte := as.mapIdx s.readByte

@[simp] theorem State.bytesRead_nil (s : State) : s.bytesRead [] = [] := rfl

theorem State.bytesRead_cons {a : Addr} (ha : mapped a = true) (s : State) (as : List Addr) :
    s.bytesRead (a :: as) = s.found a :: (readDone a s).bytesRead as := by
  simp [bytesRead, List.mapIdx_cons, found_eq_readByte, funext₂ (readDone_readByte ha s)]

@[simp] theorem State.accept_bytesRead (s : State) (i : Instr) (as : List Addr) :
    (s.accept i).bytesRead as = s.bytesRead as := by
  have hbyte : (s.accept i).readByte = s.readByte := by
    funext k a
    simp [readByte]
  rw [bytesRead, hbyte, bytesRead]

/-- The record of answered reads. -/
def readEvents (as : List Addr) (bs : List Byte) : List Event :=
  List.zipWith (fun a b => .read a (some b)) as bs

/-- Reads of mapped registers that are all answered: the list completes, its bytes are kept in order, and
each is what its own moment makes of the device. -/
theorem runMicros_reads_ok (as : List Addr) : ∀ s : State, s.busy = true →
    (∀ a ∈ as, mapped a = true) → s.Answered as.length →
    ∃ u, runMicros (as.map .read) s = (true, u) ∧ u.temps = s.temps ++ s.bytesRead as ∧
      u.trace = s.trace ++ readEvents as (s.bytesRead as) ∧
      u.dev = s.devAt as.length ∧ u.env = s.env.drop as.length := by
  induction as with
  | nil => exact fun s _ _ _ => ⟨s, rfl, by simp, by simp [readEvents], rfl, rfl⟩
  | cons a as ih =>
    intro s hbusy hmapped h
    obtain ⟨ha, has⟩ := List.forall_mem_cons.1 hmapped
    obtain ⟨u, hrun, htemps, htrace, hdev, henv⟩ :=
      ih (readDone a s) (by simpa using hbusy) has (h.readDone a)
    refine ⟨u, ?_, ?_, ?_, ?_, ?_⟩
    · rw [List.map_cons, runMicros_cons, perform_read_ok (h 0 (by simp))]
      exact hrun
    · simp [htemps, readDone_temps, hbusy, State.bytesRead_cons ha]
    · simp [htrace, readEvents, State.bytesRead_cons ha]
    · simp [hdev]
    · simp [henv]

/-! ### The burst (R170), for RDAXES and GETVALUES -/

/-- A command whose plan is the burst and whose lanes are computed from the sample, its six reads answered. -/
theorem exec_burst_ok {i : Instr} {s : State} {f : Axes → Lanes}
    (hplan : planOf s.cfg i = { micros := burst, lanes := fun t s => f (sampleOf t s) })
    (hidle : s.Idle) (h : s.Answered 6) :
    ∃ t, exec i s = .next t ∧ t.rsp = some ⟨.ok, s.inited, f (sampleOf (s.bytesRead burstAddrs) s)⟩ ∧
      t.trace = readEvents burstAddrs (s.bytesRead burstAddrs) ∧
      s.KeepsBlock t ∧ t.dev = s.devAt 6 ∧ t.env = s.env.drop 6 := by
  obtain ⟨u, hrun, htemps, htrace, hdev, henv⟩ :=
    runMicros_reads_ok burstAddrs (s.accept i) rfl (by decide) h
  rw [State.accept_bytesRead] at htemps htrace
  rw [State.accept_devAt] at hdev
  obtain ⟨hcalX, hcalY, hcalZ, hinited, -, -, hhost, hcfg⟩ : Between (s.accept i) u := by
    simpa only [hrun] using runMicros_between (burstAddrs.map .read) (s.accept i)
  have hsample : sampleOf u.temps u = sampleOf (s.bytesRead burstAddrs) s := by
    rw [sampleOf, htemps, hcalX, hcalY, hcalZ]
    rfl
  refine ⟨_, exec_of_idle hidle i, ?_⟩
  rw [hplan, Plan.run_of_ok (u := u) rfl rfl hrun]
  exact ⟨by simp [hsample, hinited], htrace, ⟨hcalX, hcalY, hcalZ, hinited, rfl, hcfg, hhost⟩, hdev, henv⟩

/-- Settles O41: RDAXES is the burst with the lanes of R67, and R171's big-endian pairs are
`joinPair_eq_ofNat`. -/
theorem rdaxesReturnsTheSample : Obligations.RdaxesReturnsTheSample := by
  intro s hidle h
  obtain ⟨t, hexec, hrsp, htrace, hkeeps, hdev, henv⟩ :=
    exec_burst_ok (i := .rdaxes) (f := axesLanes) rfl hidle h
  refine ⟨t, _, _, _, _, _, _, _, _, _, hexec, rfl, rfl, rfl, rfl, rfl, rfl, rfl, rfl, rfl, ?_, htrace,
    hkeeps, hdev, henv⟩
  simp only [← joinPair_eq_ofNat]
  exact hrsp

end Sys2Proof.Machine

/-! An illegal word (R70, R213): no row of the opcode map matches it, so the decoder rejects it and the step
ends it at once. -/

namespace Sys2Proof

/-- A decoded word matches a row: the one its decoder follows. -/
theorem exists_row_of_decode_eq_ok {w : Word} {i : Instr} (h : decode w = .ok i) :
    ∃ r ∈ opcodeTable, w &&& r.mask = r.value := by
  obtain ⟨he, -⟩ | ⟨r, hr, _, hi⟩ := decode_cases w
  · simp [h] at he
  · exact ⟨r, hr, (hi.decode_eq_ok_iff.1 h).1⟩

theorem decode_eq_error_of_no_row {w : Word} (h : ∀ r ∈ opcodeTable, w &&& r.mask ≠ r.value) :
    ∃ e, decode w = .error e := by
  cases hd : decode w with
  | error e => exact ⟨e, rfl⟩
  | ok i =>
    obtain ⟨r, hr, hmatch⟩ := exists_row_of_decode_eq_ok hd
    exact absurd hmatch (h r hr)

end Sys2Proof

namespace Sys2Proof.Machine

theorem step_of_decode_eq_error {s : State} {w : Word} {rest : List HostInput} {e : Reject}
    (hidle : s.Idle) (hhost : s.host = .command w :: rest) (hd : decode w = .error e) :
    step s = .next s.takeInput.illegalWord := by
  rw [State.Idle] at hidle
  simp only [step, hidle, hhost, hd]

/-- In an idle block an illegal word moves the host on, empties the record and responds; nothing else. -/
theorem State.takeInput_illegalWord {s : State} {x : HostInput} {rest : List HostInput}
    (hidle : s.Idle) (hhost : s.host = x :: rest) :
    s.takeInput.illegalWord =
      { s with host := rest, trace := [], rsp := some ⟨.illegalCommand, s.inited, {}⟩ } := by
  rw [State.Idle] at hidle
  simp [State.illegalWord, State.failWith, State.respond, State.takeInput, hidle, hhost]

/-- Settles O4: no row matches the word, so the decoder rejects it, whichever the cause, and the step is the
illegal word's. -/
theorem illegalWordChangesNothing : Obligations.IllegalWordChangesNothing := by
  intro s w rest hidle hhost hno
  obtain ⟨e, hd⟩ := decode_eq_error_of_no_row hno
  rw [step_of_decode_eq_error hidle hhost hd, State.takeInput_illegalWord hidle hhost]

end Sys2Proof.Machine

/-! Reset and the wait for the host (70_reset_and_hazards.md): what a step does with nothing offered. -/

namespace Sys2Proof.Machine

/-- With nothing offered an idle block waits: only the environment's moment passes (R240, R42). -/
theorem step_of_no_input {s : State} (hidle : s.Idle) (hhost : s.host = []) :
    step s = .next s.afterMoment := by
  rw [State.Idle] at hidle
  simp only [step, hidle, hhost, waitForHost_eq]

/-- In a quiet environment nothing happens at a moment. -/
theorem State.afterMoment_of_env_nil {s : State} (henv : s.env = []) : s.afterMoment = s := by
  have hquiet : s.nextMoment.acts = [] := by rw [State.nextMoment, henv]; rfl
  rw [State.afterMoment, hquiet, applyActs_nil, henv, List.tail_nil, ← henv]

/-- Settles O1: the reset values are the definition's own; the block waits because it is idle with nothing
offered, and the environment is quiet, so the wait changes nothing. -/
theorem resetValuesAndFirstWait : Obligations.ResetValuesAndFirstWait := by
  have hwait : step State.reset = .next State.reset := by
    rw [step_of_no_input (s := State.reset) rfl rfl, State.afterMoment_of_env_nil (s := State.reset) rfl]
  exact ⟨rfl, rfl, rfl, rfl, rfl, rfl, rfl, hwait⟩

end Sys2Proof.Machine

/-! The encoder and the decoder are inverse to each other (30_encoding.md rules R60 to R62): a formatted word
gives its fields back, and a word with its format's zero field zero is its own fields, formatted. -/

namespace Sys2Proof

/-! ### A word as its fields -/

/-- Two neighbouring fields are one field. -/
theorem field_append (w : Word) (lo n m : Nat) :
    w.extractLsb' (lo + n) m ++ w.extractLsb' lo n = w.extractLsb' lo (m + n) :=
  BitVec.extractLsb'_append_extractLsb'_eq_extractLsb' rfl

section

variable {w : Word}

theorem formatN_fields (h : w.extractLsb' 0 56 = 0#56) : formatN (opcodeOf w) = w := by
  rw [formatN, ← h, opcodeOf, field_append w 0 56 8]
  exact BitVec.extractLsb'_eq_self

theorem formatF_fields (h : w.extractLsb' 0 24 = 0#24) :
    formatF (opcodeOf w) (byteField 48 w) (byteField 40 w).toNat (byteField 32 w).toNat
      (byteField 24 w) = w := by
  simp only [formatF, BitVec.ofNat_toNat, BitVec.setWidth_eq, byteField, opcodeOf]
  rw [← h, field_append w 48 8 8, field_append w 40 8 16, field_append w 32 8 24, field_append w 24 8 32,
    field_append w 0 24 40]
  exact BitVec.extractLsb'_eq_self

/-- RDF's zero field covers the `val` byte and the 24 bits below it (R61). -/
theorem formatF_rdf_fields (h : w.extractLsb' 0 32 = 0#32) :
    formatF (opcodeOf w) (byteField 48 w) (byteField 40 w).toNat (byteField 32 w).toNat 0#8 = w := by
  rw [show (32 : Nat) = 8 + 24 from rfl, ← field_append, Nat.zero_add] at h
  obtain ⟨hval, hlow⟩ := (append_eq_append_iff (c := 0#8) (d := 0#24)).1 h
  have := formatF_fields hlow
  rwa [byteField.eq_def 24, hval] at this

theorem formatP_fields (h : w.extractLsb' 0 16 = 0#16) :
    formatP (opcodeOf w) (byteField 48 w) (byteField 40 w) (byteField 32 w) (byteField 24 w)
      (byteField 16 w) = w := by
  simp only [formatP, byteField, opcodeOf]
  rw [← h, field_append w 48 8 8, field_append w 40 8 16, field_append w 32 8 24, field_append w 24 8 32,
    field_append w 16 8 40, field_append w 0 16 48]
  exact BitVec.extractLsb'_eq_self

theorem formatV8_fields (h : w.extractLsb' 8 48 = 0#48) : formatV8 (opcodeOf w) (byteField 0 w) = w := by
  rw [formatV8, ← h, opcodeOf, byteField, field_append w 8 48 8, field_append w 0 8 56]
  exact BitVec.extractLsb'_eq_self

theorem formatV16_fields (h : w.extractLsb' 16 40 = 0#40) :
    formatV16 (opcodeOf w) (w.extractLsb' 0 16) = w := by
  rw [formatV16, ← h, opcodeOf, field_append w 16 40 8, field_append w 0 16 48]
  exact BitVec.extractLsb'_eq_self

theorem formatH_fields (h : w.extractLsb' 48 8 = 0#8) :
    formatH (opcodeOf w) (w.extractLsb' 24 24) (w.extractLsb' 0 24) = w := by
  rw [formatH, ← h, opcodeOf, field_append w 48 8 8, field_append w 24 24 16, field_append w 0 24 40]
  exact BitVec.extractLsb'_eq_self

end

theorem opcodeOf_eq {w : Word} {op : Nat} (h : (opcodeOf w).toNat = op) : opcodeOf w = BitVec.ofNat 8 op := by
  rw [← h, BitVec.ofNat_toNat, BitVec.setWidth_eq]

/-- What an arm of the decoder accepts: the word with the arm's zero field zero is the arm's command. -/
theorem needZero_encode {lo n : Nat} {w : Word} {i j : Instr} (hd : needZero lo n w i = .ok j)
    (hi : w.extractLsb' lo n = 0#n → i.wf = true ∧ encode i = w) : j.wf = true ∧ encode j = w := by
  obtain ⟨h, rfl⟩ := needZero_eq_ok_iff.1 hd
  exact hi h

/-! ### The two directions -/

/-- Settles O10: the formatted word's opcode selects the command's arm, its zero field is zero and its fields
are the operands, by the laws of the formats; an operand written as a number fits its byte. -/
theorem decodeOfEncode : Obligations.DecodeOfEncode := by
  intro i hwf
  cases i with
  | rdf reg hb len =>
    obtain ⟨hhb, hlen⟩ : hb < 256 ∧ len < 256 := by simpa [Instr.wf] using hwf
    simp [encode, decode, opcodeOf, byteField, needZero, Nat.mod_eq_of_lt hhb, Nat.mod_eq_of_lt hlen]
  | wrf reg hb len val =>
    obtain ⟨hhb, hlen⟩ : hb < 256 ∧ len < 256 := by simpa [Instr.wf] using hwf
    simp [encode, decode, opcodeOf, byteField, needZero, Nat.mod_eq_of_lt hhb, Nat.mod_eq_of_lt hlen]
  | _ => simp [encode, decode, opcodeOf, byteField, needZero]

/-- Settles O11: the arm that decodes the word names its opcode and its zero field, and the word is the arm's
fields, formatted. -/
theorem encodeOfDecode : Obligations.EncodeOfDecode := by
  intro w i hd
  have hhb := (byteField 40 w).isLt
  have hlen := (byteField 32 w).isLt
  rw [decode] at hd
  split at hd
  case h_26 => cases hd
  all_goals
    rename_i hop
    refine needZero_encode hd fun h => ?_
    rw [encode, ← opcodeOf_eq hop]
  case h_1 => exact ⟨by simp [Instr.wf, hhb, hlen], formatF_rdf_fields h⟩
  case h_2 => exact ⟨by simp [Instr.wf, hhb, hlen], formatF_fields h⟩
  case h_3 => exact ⟨rfl, formatP_fields h⟩
  case h_24 => exact ⟨rfl, formatH_fields h⟩
  case h_4 | h_20 | h_21 | h_22 => exact ⟨rfl, formatV16_fields h⟩
  case h_6 | h_7 | h_8 | h_9 | h_10 => exact ⟨rfl, formatV8_fields h⟩
  all_goals exact ⟨rfl, formatN_fields h⟩


/-- Settles O12: the decoder computes on R72's words. -/
theorem exampleWordsDecode : Obligations.ExampleWordsDecode := by
  unfold Obligations.ExampleWordsDecode
  decide

end Sys2Proof

/-! The whole machine: what a step keeps (60_exceptions.md sections 4 and 5, 10_state.md section 1), from the
three ways a command ends and the five kinds of step. -/

namespace Sys2Proof.Machine

/-! ### Steps that run no transaction -/

theorem resetBlock_of_idle {s : State} (h : s.Idle) :
    resetBlock s = .next
      { s with calX := 0#16, calY := 0#16, calZ := 0#16, inited := false, rsp := none, trace := [] } := by
  rw [State.Idle] at h
  simp [resetBlock, State.busy, h]

theorem step_of_reset {s : State} {rest : List HostInput} (hidle : s.Idle) (hhost : s.host = .reset :: rest) :
    step s = .next { s with
      host := rest, calX := 0#16, calY := 0#16, calZ := 0#16, inited := false, rsp := none, trace := [] } := by
  have hstep : step s = resetBlock s.takeInput := by
    rw [State.Idle] at hidle
    simp only [step, hidle, hhost]
  rw [hstep, resetBlock_of_idle (s := s.takeInput) hidle]
  simp only [State.takeInput, hhost, List.tail_cons]

/-- Settles O2: the reset's step writes the block's registers, and `resetBlock` looks at `busy` first. -/
theorem resetTouchesOnlyTheBlock : Obligations.ResetTouchesOnlyTheBlock := by
  refine ⟨fun s rest hidle hhost => ⟨_, step_of_reset hidle hhost, ?_⟩, fun s h => ?_⟩
  · rw [State.Idle] at hidle
    simp [State.busy, State.seq, hidle]
  · rw [resetBlock, if_pos h]

/-- Settles O3: the host's list is not empty, its first input is a command word, and the word decodes. -/
theorem stepRunsTheDecodedCommand : Obligations.StepRunsTheDecodedCommand := by
  intro s w rest i hidle hhost hd
  rw [State.Idle] at hidle
  simp only [step, hidle, hhost, hd, State.takeInput, List.tail_cons]

/-! ### A step with a command in flight (R15) -/

theorem step_of_busy {s : State} {f : InFlight} (h : s.inflight = some f) :
    step s = .next ((planOf s.cfg f.cmd).run s) := by
  simp only [step, h, resume]

theorem exec_of_busy {s : State} (h : s.busy = true) (i : Instr) : exec i s = .refused .commandInFlight := by
  rw [exec_eq_issue, issue, if_pos h]

/-- Settles O8: of the five kinds of step only the reset and the command could stop, in a busy block. -/
theorem everyStepGoesOn : Obligations.EveryStepGoesOn := by
  intro s
  cases hf : s.inflight with
  | some f => exact ⟨_, step_of_busy hf⟩
  | none =>
    rcases hh : s.host with _ | ⟨w | _, rest⟩
    · exact ⟨_, step_of_no_input hf hh⟩
    · cases hd : decode w with
      | error e => exact ⟨_, step_of_decode_eq_error hf hh hd⟩
      | ok i =>
        have hexec := exec_of_idle (s := { s with host := rest }) hf i
        exact ⟨_, (stepRunsTheDecodedCommand s w rest i hf hh hd).trans hexec⟩
    · exact ⟨_, step_of_reset hf hh⟩

/-- What a list leaves of the block, from its outcome. -/
theorem between_runMicros {ms : List Micro} {s u : State} {b : Bool} (h : runMicros ms s = (b, u)) :
    Between s u := by
  simpa only [h] using runMicros_between ms s

/-! ### What the end of a plan keeps, wherever its list starts -/

/-- What the end of a command's plan leaves, from any state of its transaction list. -/
theorem plan_run_keeps (p : Config.Params) (i : Instr) (s : State) :
    ((planOf p i).run s).inflight = none ∧ ((planOf p i).run s).host = s.host ∧
    ((planOf p i).run s).cfg = s.cfg ∧
    (((planOf p i).run s).inited = s.inited ∨ i = .init) ∧
    (((planOf p i).run s).calX = s.calX ∨ ∃ v, i = .setcalx v ∧ ((planOf p i).run s).calX = v) ∧
    (((planOf p i).run s).calY = s.calY ∨ ∃ v, i = .setcaly v ∧ ((planOf p i).run s).calY = v) ∧
    (((planOf p i).run s).calZ = s.calZ ∨ ∃ v, i = .setcalz v ∧ ((planOf p i).run s).calZ = v) := by
  obtain ⟨hx, hy, hz, hinited, -, -, hhost, hcfg⟩ := runMicros_between ((planOf p i).micros.drop s.seq.toNat) s
  obtain ⟨-, -, fhost, fcfg, -, finited, fx, fy, fz⟩ :=
    plan_finish p i (runMicros ((planOf p i).micros.drop s.seq.toNat) s).2
  rw [hx] at fx
  rw [hy] at fy
  rw [hz] at fz
  rw [Plan.run_eq]
  split
  · split
    · refine ⟨rfl, fhost.trans hhost, fcfg.trans hcfg, ?_, fx, fy, fz⟩
      by_cases hi : i = .init
      · exact .inr hi
      · rw [if_neg hi, hinited] at finited
        exact .inl finited
    · exact ⟨rfl, hhost, hcfg, .inl hinited, .inl hx, .inl hy, .inl hz⟩
  · exact ⟨rfl, rfl, rfl, .inl rfl, .inl rfl, .inl rfl, .inl rfl⟩

/-- Settles O5: the step of a busy block ends the plan in flight, which takes nothing from the host. -/
theorem busyBlockAcceptsNothing : Obligations.BusyBlockAcceptsNothing := by
  intro s hbusy
  refine ⟨exec_of_busy hbusy, ?_⟩
  obtain ⟨f, hf⟩ := Option.isSome_iff_exists.1 hbusy
  obtain ⟨hidle, hhost, -⟩ := plan_run_keeps s.cfg f.cmd s
  exact ⟨_, step_of_busy hf, by rw [State.busy, hidle, Option.isSome_none], hhost⟩

/-! ### What a command keeps -/

/-- Settles O57: what every end of a plan keeps, and a list of at most six entries records at most six. -/
theorem commandsLeaveHostAndConfiguration : Obligations.CommandsLeaveHostAndConfiguration := by
  intro i s t h
  obtain ⟨-, ht⟩ := exec_next_iff.1 h
  change t = (planOf s.cfg i).run (startState i s) at ht
  obtain ⟨hidle, hhost, hcfg, -⟩ := plan_run_keeps s.cfg i (startState i s)
  rw [← ht, startState_host] at hhost
  rw [← ht, startState_cfg] at hcfg
  rw [← ht] at hidle
  refine ⟨hhost, hcfg, hidle, ?_⟩
  have hlen := runMicros_trace_length (planOf s.cfg i).micros (startState i s)
  rw [startState_trace, List.length_nil, Nat.zero_add] at hlen
  replace hlen := hlen.trans (plan_length s.cfg i)
  obtain ⟨-, ⟨-, rfl⟩ | ⟨-, -, rfl⟩ | ⟨-, -, rfl⟩⟩ := exec_cases h
  · simp
  · exact hlen
  · rw [State.respond_trace, (plan_finish s.cfg i _).2.1]
    exact hlen

/-- Settles O52: of the three ends only the last answers `OK`; the others respond with no data, from a state
between the start of the list and its end. -/
theorem failureLeavesTheBlock : Obligations.FailureLeavesTheBlock := by
  intro i s t r h hr hst
  have hstart := startState_inited i s
  obtain ⟨-, ⟨-, rfl⟩ | ⟨-, -, rfl⟩ | ⟨-, -, rfl⟩⟩ := exec_cases h
  · cases hr
    exact ⟨rfl, rfl, rfl, startState_calX i s, startState_calY i s, startState_calZ i s, hstart⟩
  · obtain ⟨hx, hy, hz, hinited, -⟩ := runMicros_between (planOf s.cfg i).micros (startState i s)
    cases hr
    exact ⟨rfl, rfl, rfl, by simp [hx], by simp [hy], by simp [hz], hinited.trans hstart⟩
  · cases hr
    exact absurd rfl hst

/-! ### The invariant -/

theorem exec_wf {i : Instr} {s t : State} (h : exec i s = .next t) (hwf : Memory.wf s.dev = true) :
    Memory.wf t.dev = true :=
  exec_dev (P := fun d => Memory.wf d = true) h (fun p xs _ => applyActs_wf p xs)
    (fun a _ b _ => devStore_wf a b) hwf

theorem exec_mapped {i : Instr} {s t : State} (h : exec i s = .next t) (hm : Memory.MappedOnly s.dev) :
    Memory.MappedOnly t.dev :=
  exec_dev (P := Memory.MappedOnly) h (fun p xs _ => applyActs_mapped p xs)
    (fun a _ b _ => devStore_mapped a b) hm

theorem exec_keeps_inv {i : Instr} {s t : State} (hinv : Inv s) (h : exec i s = .next t) : Inv t := by
  obtain ⟨-, hcfg, hidle, hlen⟩ := commandsLeaveHostAndConfiguration i s t h
  exact {
    idle := hidle
    canonical := exec_wf h hinv.canonical
    mappedOnly := exec_mapped h hinv.mappedOnly
    noData := fun r hr hst => (failureLeavesTheBlock i s t r h hr hst).1
    bounded := hlen
    configured := hcfg ▸ hinv.configured }

/-- Settles O60: an idle block takes one of four kinds of step; a wait only lets the environment act, a reset
and an illegal word leave the device, and a command keeps the invariant by `exec_keeps_inv`. -/
theorem everyStepKeepsTheInvariant : Obligations.EveryStepKeepsTheInvariant := by
  intro s t hinv hstep
  obtain ⟨hidle, hwf, hmapped, hdata, hbound, hcfg⟩ := hinv
  obtain ⟨f, hf, -⟩ | ⟨-, -, rfl⟩ | ⟨rest, -, hhost, -⟩ | ⟨w, rest, e, -, -, -, rfl⟩ |
    ⟨w, rest, i, -, -, -, he⟩ := step_cases hstep
  · rw [hidle] at hf
    cases hf
  · exact ⟨hidle, applyActs_wf _ _ hwf, applyActs_mapped _ _ hmapped, hdata, hbound, hcfg⟩
  · rw [step_of_reset hidle hhost] at hstep
    cases hstep
    exact ⟨hidle, hwf, hmapped, nofun, Nat.zero_le _, hcfg⟩
  · refine ⟨rfl, hwf, hmapped, fun r hr _ => ?_, Nat.zero_le _, hcfg⟩
    cases hr
    rfl
  · exact exec_keeps_inv (s := s.takeInput) ⟨hidle, hwf, hmapped, hdata, hbound, hcfg⟩ he

/-- Settles O59: at reset no response is due, nothing is recorded or listed, and the default record is
well-formed. -/
theorem invariantAtReset : Obligations.InvariantAtReset where
  idle := rfl
  canonical := rfl
  mappedOnly := nofun
  noData := nofun
  bounded := Nat.zero_le _
  configured := by decide

end Sys2Proof.Machine

/-! What a command may touch: the registers of the block and their one writer, the addresses of its writes,
the registers of the device, and what of the state before it matters. -/

namespace Sys2Proof.Machine

/-! ### What a step runs -/

theorem State.runs_of_busy {s : State} {f : InFlight} (h : s.inflight = some f) : s.Runs f.cmd := by
  simp only [Runs, h]

theorem State.runs_iff_of_idle {s : State} (h : s.Idle) {i : Instr} :
    s.Runs i ↔ ∃ w rest, s.host = .command w :: rest ∧ decode w = .ok i := by
  rw [Idle] at h
  simp only [Runs, h]

/-- The registers of the block, `inited` apart, are those of `s`. -/
structure SameOffsets (s u : State) : Prop where
  calX : u.calX = s.calX
  calY : u.calY = s.calY
  calZ : u.calZ = s.calZ

/-- What a step does to the block's registers: it resets them, leaves them, or ends the plan of the command
that runs, from a state in which only INIT has touched one, `inited`. -/
theorem step_registers {s t : State} (h : step s = .next t) :
    (s.Resets ∧ t.calX = 0#16 ∧ t.calY = 0#16 ∧ t.calZ = 0#16 ∧ t.inited = false) ∨
    (SameOffsets s t ∧ t.inited = s.inited) ∨
    ∃ i u, s.Runs i ∧ t = (planOf s.cfg i).run u ∧ SameOffsets s u ∧ (u.inited = s.inited ∨ i = .init) := by
  obtain ⟨f, hf, rfl⟩ | ⟨-, -, rfl⟩ | ⟨rest, hidle, hhost, -⟩ | ⟨w, rest, e, -, -, -, rfl⟩ |
    ⟨w, rest, i, hidle, hhost, hd, he⟩ := step_cases h
  · exact .inr (.inr ⟨f.cmd, s, State.runs_of_busy hf, rfl, ⟨rfl, rfl, rfl⟩, .inl rfl⟩)
  · exact .inr (.inl ⟨⟨rfl, rfl, rfl⟩, rfl⟩)
  · rw [step_of_reset hidle hhost] at h
    cases h
    exact .inl ⟨⟨hidle, rest, hhost⟩, rfl, rfl, rfl, rfl⟩
  · exact .inr (.inl ⟨⟨rfl, rfl, rfl⟩, rfl⟩)
  · obtain ⟨-, ht⟩ := exec_next_iff.1 he
    refine .inr (.inr ⟨i, startState i s.takeInput, (State.runs_iff_of_idle hidle).2 ⟨w, rest, hhost, hd⟩, ht,
      ⟨by simp, by simp, by simp⟩, ?_⟩)
    rw [startState_inited]
    split
    · exact .inr ‹_›
    · exact .inl rfl

/-- Settles O54: a reset clears the registers; any other step leaves them or ends a plan, and at its end a
plan writes only its own command's register (`plan_run_keeps`). -/
theorem blockRegistersHaveOneWriter : Obligations.BlockRegistersHaveOneWriter := by
  intro s t h
  obtain ⟨hr, hx, hy, hz, hinited⟩ | ⟨⟨hx, hy, hz⟩, hinited⟩ | ⟨i, u, hruns, ht, ⟨hx, hy, hz⟩, hinited⟩ :=
    step_registers h
  · exact ⟨fun _ => .inl ⟨hr, hx⟩, fun _ => .inl ⟨hr, hy⟩, fun _ => .inl ⟨hr, hz⟩,
      fun _ => .inl ⟨hr, hinited⟩⟩
  · exact ⟨fun hne => absurd hx hne, fun hne => absurd hy hne, fun hne => absurd hz hne,
      fun hne => absurd hinited hne⟩
  · obtain ⟨-, -, -, kinited, kx, ky, kz⟩ := plan_run_keeps s.cfg i u
    rw [← ht] at kinited kx ky kz
    refine ⟨fun hne => .inr ?_, fun hne => .inr ?_, fun hne => .inr ?_, fun hne => .inr ?_⟩
    · obtain ⟨v, rfl, hv⟩ := kx.resolve_left fun e => hne (e.trans hx)
      exact ⟨v, hruns, hv⟩
    · obtain ⟨v, rfl, hv⟩ := ky.resolve_left fun e => hne (e.trans hy)
      exact ⟨v, hruns, hv⟩
    · obtain ⟨v, rfl, hv⟩ := kz.resolve_left fun e => hne (e.trans hz)
      exact ⟨v, hruns, hv⟩
    · obtain rfl : i = .init := by
        by_contra hi
        exact hne ((kinited.resolve_right hi).trans (hinited.resolve_right hi))
      exact hruns

/-! ### The writes a command issues (R141) -/

/-- The event an entry records is a write only if the entry is that write. -/
theorem perform_event (m : Micro) (s : State) :
    ∃ e, (m.perform s).2.trace = s.trace ++ [e] ∧
      ∀ a v done, e = .write a v done → ∃ f, m = .write a f := by
  cases m with
  | read a =>
    cases h : (s.moment 0).fail with
    | false => exact ⟨.read a (some (s.found a)), by rw [perform_read_ok h, readDone_trace], nofun⟩
    | true => exact ⟨.read a none, by rw [perform_read_fail h]; rfl, nofun⟩
  | write a f =>
    cases h : (s.moment 0).fail with
    | false =>
      refine ⟨_, by rw [perform_write_ok h, writeDone_trace], fun a' v done he => ?_⟩
      cases he
      exact ⟨f, rfl⟩
    | true =>
      refine ⟨_, by rw [perform_write_fail h]; rfl, fun a' v done he => ?_⟩
      cases he
      exact ⟨f, rfl⟩
  | wait t => exact ⟨_, rfl, nofun⟩

theorem runMicros_writes (ms : List Micro) {a : Addr} {v : Byte} {done : Bool} : ∀ s : State,
    .write a v done ∈ (runMicros ms s).2.trace → .write a v done ∈ s.trace ∨ ∃ f, .write a f ∈ ms := by
  induction ms with
  | nil => exact fun s h => .inl h
  | cons m ms ih =>
    intro s h
    obtain ⟨e, htrace, he⟩ := perform_event m s
    have first : .write a v done ∈ (m.perform s).2.trace →
        .write a v done ∈ s.trace ∨ ∃ f, .write a f ∈ m :: ms := by
      rw [htrace, List.mem_append, List.mem_singleton]
      refine Or.imp_right fun hm => ?_
      obtain ⟨f, rfl⟩ := he a v done hm.symm
      exact ⟨f, List.mem_cons_self⟩
    rw [runMicros_cons] at h
    split at h
    · obtain h | ⟨f, hf⟩ := ih _ h
      · exact first h
      · exact .inr ⟨f, List.mem_cons_of_mem m hf⟩
    · exact first h

theorem exec_writes {i : Instr} {s t : State} (h : exec i s = .next t) {a : Addr} {v : Byte} {done : Bool}
    (hmem : .write a v done ∈ t.trace) : a ∈ writeAddrs i := by
  have hrun : .write a v done ∈ (runMicros (planOf s.cfg i).micros (startState i s)).2.trace →
      a ∈ writeAddrs i := fun hm => by
    obtain h0 | ⟨f, hf⟩ := runMicros_writes _ _ hm
    · simp at h0
    · exact plan_writes s.cfg hf
  obtain ⟨-, ⟨-, rfl⟩ | ⟨-, -, rfl⟩ | ⟨-, -, rfl⟩⟩ := exec_cases h
  · simp at hmem
  · exact hrun hmem
  · rw [State.respond_trace, (plan_finish s.cfg i _).2.1] at hmem
    exact hrun hmem

/-- Settles O55: a write in the record comes from a write in the plan's list (`exec_writes`); a command with
no write addresses has none. -/
theorem onlyWritersWrite : Obligations.OnlyWritersWrite := by
  intro i s t h
  refine ⟨fun a v done hmem => exec_writes h hmem, fun hro e he => ?_⟩
  cases e with
  | write a v done =>
    have ha := exec_writes h he
    rw [readOnly, List.isEmpty_iff] at hro
    simp [hro] at ha
  | _ => rfl

/-! ### The device, with the moments a command uses -/

theorem perform_env (m : Micro) (s : State) : (m.perform s).2.env = s.env.drop 1 := by
  rw [List.drop_one]
  cases m with
  | read a => cases h : (s.moment 0).fail <;> simp [perform_read_ok, perform_read_fail, h]
  | write a v => cases h : (s.moment 0).fail <;> simp [perform_write_ok, perform_write_fail, h]
  | wait t => rfl

/-- A list uses at most one moment for each of its entries. -/
theorem runMicros_env (ms : List Micro) : ∀ s : State,
    ∃ n ≤ ms.length, (runMicros ms s).2.env = s.env.drop n := by
  induction ms with
  | nil => exact fun s => ⟨0, le_rfl, rfl⟩
  | cons m ms ih =>
    intro s
    rw [runMicros_cons]
    split
    · obtain ⟨n, hn, henv⟩ := ih (m.perform s).2
      exact ⟨n + 1, Nat.succ_le_succ hn, by rw [henv, perform_env, List.drop_drop, Nat.add_comm]⟩
    · exact ⟨1, by simp, perform_env m s⟩

/-- `runMicros_dev` with the environment's actions limited to those of the moments the list uses. -/
theorem runMicros_dev_of_moments {P : Memory → Prop} (ms : List Micro)
    (hst : ∀ a f, .write a f ∈ ms → ∀ (b : Byte) (d : Memory), P d → P (devStore a b d)) :
    ∀ s : State, (∀ k < ms.length, ∀ d, P d → P (applyActs s.cfg (s.moment k).acts d)) → P s.dev →
      P (runMicros ms s).2.dev := by
  induction ms with
  | nil => exact fun s _ h => h
  | cons m ms ih =>
    intro s hact h
    have hmoment : P s.afterMoment.dev := by
      rw [State.afterMoment_dev, State.nextMoment_eq]
      exact hact 0 (by simp) _ h
    have hone : P (m.perform s).2.dev := by
      obtain hdev | ⟨a, f, rfl, -, hdev⟩ := perform_dev m s
      · exact hdev ▸ hmoment
      · exact hdev ▸ hst a f List.mem_cons_self _ _ hmoment
    rw [runMicros_cons]
    split
    · refine ih (fun a f hm => hst a f (List.mem_cons_of_mem m hm)) _ (fun k hk d hd => ?_) hone
      rw [(perform_between m s).cfg, State.moment_of_env (perform_env m s)]
      exact hact (1 + k) (by rw [List.length_cons]; omega) d hd
    · exact hone

/-- `exec_dev` with the environment's actions limited to those of the six moments a command may use. -/
theorem exec_dev_of_moments {P : Memory → Prop} {i : Instr} {s t : State} (h : exec i s = .next t)
    (hact : ∀ k < 6, ∀ d, P d → P (applyActs s.cfg (s.moment k).acts d))
    (hst : ∀ a ∈ writeAddrs i, ∀ (b : Byte) (d : Memory), P d → P (devStore a b d))
    (h0 : P s.dev) : P t.dev := by
  have hmoments : ∀ k, (startState i s).moment k = s.moment k := fun k => by
    rw [State.moment_of_env (s := s) (n := 0) (startState_env i s), Nat.zero_add]
  have hrun : P (runMicros (planOf s.cfg i).micros (startState i s)).2.dev := by
    refine runMicros_dev_of_moments _ (fun a f hm => hst a (plan_writes s.cfg hm)) _ (fun k hk d hd => ?_)
      (by rwa [startState_dev])
    rw [startState_cfg, hmoments]
    exact hact k (hk.trans_le (plan_length s.cfg i)) d hd
  obtain ⟨-, ⟨-, rfl⟩ | ⟨-, -, rfl⟩ | ⟨-, -, rfl⟩⟩ := exec_cases h
  · rwa [State.failWith_dev, startState_dev]
  · exact hrun
  · rwa [State.respond_dev, (plan_finish s.cfg i _).1]

/-- Settles O56: with nobody acting only the command's own writes could change a register, and a write to
another address, or to one that keeps nothing, leaves register `x`. -/
theorem commandsLeaveOtherRegisters : Obligations.CommandsLeaveOtherRegisters := by
  intro i s t x h halone hx
  refine exec_dev_of_moments (P := fun d => Memory.read d x = Memory.read s.dev x) h
    (fun k hk d hd => by rwa [halone k hk, applyActs_nil]) (fun a ha b d hd => ?_) rfl
  cases hs : storesWrites a with
  | false => rwa [devStore_of_not_stores b d hs]
  | true =>
    have hne : x ≠ a.toNat := fun e => hx (e ▸ mem_storedAddrs ha hs)
    rwa [read_devStore_ne a b d hne]

/-! ### The identification registers (R41) -/

/-- The end of a command's plan leaves the device as its list left it, from any state of the list. -/
theorem plan_run_dev (p : Config.Params) (i : Instr) (s : State) :
    ((planOf p i).run s).dev =
      if (planOf p i).valid then (runMicros ((planOf p i).micros.drop s.seq.toNat) s).2.dev else s.dev := by
  rw [Plan.run_eq]
  split
  · split
    · rw [State.respond_dev, (plan_finish p i _).1]
    · rfl
  · rfl

theorem read_devStore_id {x : Nat} (hx : 2 < x) (a : Addr) (v : Byte) (d : Memory) :
    Memory.read (devStore a v d) x = Memory.read d x := by
  cases hs : storesWrites a with
  | false => rw [devStore_of_not_stores v d hs]
  | true =>
    have ha : a.toNat ≤ 2 := of_decide_eq_true hs
    exact read_devStore_ne a v d (by omega)

/-- Settles O15: no agent's action and no stored write reaches an identification register, so no list of
transactions does, whether the command starts in this step or goes on. -/
theorem identificationBytesAreConstant : Obligations.IdentificationBytesAreConstant := by
  intro s t a h ha
  obtain ⟨hlo, -⟩ : 0x0A ≤ a.toNat ∧ a.toNat ≤ 0x0C := by
    simpa only [identification, Bool.and_eq_true, decide_eq_true_eq] using ha
  have hact : ∀ (p : Config.Params) (xs : List EnvAct) (d : Memory),
      Memory.read d a.toNat = Memory.read s.dev a.toNat →
        Memory.read (applyActs p xs d) a.toNat = Memory.read s.dev a.toNat :=
    fun p xs d hd => (read_applyActs_id p xs hlo d).trans hd
  have hst : ∀ (r : Addr) (b : Byte) (d : Memory), Memory.read d a.toNat = Memory.read s.dev a.toNat →
      Memory.read (devStore r b d) a.toNat = Memory.read s.dev a.toNat :=
    fun r b d hd => (read_devStore_id (by omega) r b d).trans hd
  obtain ⟨f, -, rfl⟩ | ⟨-, -, rfl⟩ | ⟨rest, hidle, hhost, -⟩ | ⟨_, _, _, -, -, -, rfl⟩ |
    ⟨_, _, i, -, -, -, he⟩ := step_cases h
  · rw [resume, plan_run_dev]
    split
    · exact runMicros_dev (P := fun d => Memory.read d a.toNat = Memory.read s.dev a.toNat) _ hact
        (fun _ _ r _ _ => hst r) s rfl
    · rfl
  · exact hact _ _ _ rfl
  · rw [step_of_reset hidle hhost] at h
    cases h
    rfl
  · rfl
  · exact exec_dev (P := fun d => Memory.read d a.toNat = Memory.read s.dev a.toNat) he hact
      (fun r _ b d hd => hst r b d hd) rfl

end Sys2Proof.Machine

/-! How a command ends and what it takes from the state before it: the statuses of the table (R221), no memory of
earlier commands (R218), and the command in flight going on to the whole command's end (R15, R16). -/

namespace Sys2Proof.Machine

/-! ### The statuses (R221) -/

/-- The statuses a plan can end with: `TransportError` needs a transaction. -/
def Plan.statuses (p : Plan) : List Status :=
  if p.valid then if p.micros.isEmpty then [.ok] else [.ok, .transportError] else [.configurationError]

/-- The table is that of the plans: with a well-formed record only RDF and WRF can name an invalid field. -/
theorem statuses_eq_plan {p : Config.Params} (hwf : p.wf = true) (i : Instr) :
    statuses i = (planOf p i).statuses := by
  have hset : ∀ (c : ConfigItem) (val : Byte),
      statuses (c.setter val) = (planOf p (c.setter val)).statuses := by
    intro c val
    rw [c.planOf_setter, Plan.statuses, writeFieldPlan, if_pos (c.validField_field hwf)]
    cases c <;> rfl
  have hget : ∀ c : ConfigItem, statuses c.getter = (planOf p c.getter).statuses := by
    intro c
    rw [c.planOf_getter, Plan.statuses, readFieldPlan, if_pos (c.validField_field hwf)]
    cases c <;> rfl
  cases i with
  | setbias val => exact hset .bias val
  | setrate val => exact hset .rate val
  | setavg val => exact hset .avg val
  | setgain val => exact hset .gain val
  | setmode val => exact hset .mode val
  | getbias => exact hget .bias
  | getrate => exact hget .rate
  | getavg => exact hget .avg
  | getgain => exact hget .gain
  | getmode => exact hget .mode
  | _ => rfl

/-- Settles O51: the three ends of a command are those its plan allows; a list that fails is not empty. -/
theorem statusesFollowTheTable : Obligations.StatusesFollowTheTable := by
  intro i s t hwf h
  rw [statuses_eq_plan hwf, Plan.statuses]
  obtain ⟨-, ⟨hv, rfl⟩ | ⟨hv, hfail, rfl⟩ | ⟨hv, -, rfl⟩⟩ := exec_cases h
  · exact ⟨_, rfl, by simp [hv]⟩
  · have hne : (planOf s.cfg i).micros ≠ [] := fun e => by simp [e, runMicros_nil] at hfail
    exact ⟨_, rfl, by simp [hv, hne]⟩
  · refine ⟨_, rfl, ?_⟩
    rw [if_pos hv]
    split <;> simp

/-! ### The host's list (R218, R198) -/

/-- The state with another list of inputs to come from the host. -/
def State.withHost (h : List HostInput) (s : State) : State := { s with host := h }

theorem perform_withHost (m : Micro) (h : List HostInput) (s : State) :
    m.perform (s.withHost h) = ((m.perform s).1, (m.perform s).2.withHost h) := by
  have hmoment : (s.withHost h).moment 0 = s.moment 0 := rfl
  cases m with
  | read a =>
    cases hf : (s.moment 0).fail with
    | false => rw [perform_read_ok hf, perform_read_ok (hmoment ▸ hf)]; rfl
    | true => rw [perform_read_fail hf, perform_read_fail (hmoment ▸ hf)]; rfl
  | write a v =>
    cases hf : (s.moment 0).fail with
    | false => rw [perform_write_ok hf, perform_write_ok (hmoment ▸ hf)]; rfl
    | true => rw [perform_write_fail hf, perform_write_fail (hmoment ▸ hf)]; rfl
  | wait t => rfl

theorem runMicros_withHost (ms : List Micro) (h : List HostInput) : ∀ s : State,
    runMicros ms (s.withHost h) = ((runMicros ms s).1, (runMicros ms s).2.withHost h) := by
  induction ms with
  | nil => exact fun _ => rfl
  | cons m ms ih =>
    intro s
    rw [runMicros_cons, runMicros_cons, perform_withHost]
    cases (m.perform s).1 with
    | false => rfl
    | true => exact ih _

theorem plan_finish_withHost (p : Config.Params) (i : Instr) (h : List HostInput) (s : State) :
    (planOf p i).finish (s.withHost h) = ((planOf p i).finish s).withHost h := by
  cases i <;> rfl

theorem plan_lanes_withHost (p : Config.Params) (i : Instr) (t : List Byte) (h : List HostInput) (s : State) :
    (planOf p i).lanes t (s.withHost h) = (planOf p i).lanes t s := by
  cases i <;> rfl

theorem plan_run_withHost (p : Config.Params) (i : Instr) (h : List HostInput) (s : State) :
    (planOf p i).run (s.withHost h) = ((planOf p i).run s).withHost h := by
  have hseq : (s.withHost h).seq = s.seq := rfl
  have htemps : ∀ u : State, (u.withHost h).temps = u.temps := fun _ => rfl
  rw [Plan.run_eq, Plan.run_eq, hseq, runMicros_withHost]
  simp only [plan_finish_withHost, plan_lanes_withHost, htemps]
  split
  · split <;> rfl
  · rfl

/-- Settles O58: accepting the command clears the last response and the record, so the command runs from the
same state but for the host's list, which every part of a plan carries along. -/
theorem noMemoryOfEarlierCommands : Obligations.NoMemoryOfEarlierCommands := by
  intro i s r tr h t ht
  obtain ⟨hidle, rfl⟩ := exec_next_iff.1 ht
  refine (exec_of_idle (s := { s with rsp := r, trace := tr, host := h }) hidle i).trans (congrArg _ ?_)
  have hstart : (planOf s.cfg i).start (({ s with rsp := r, trace := tr, host := h } : State).accept i) =
      ((planOf s.cfg i).start (s.accept i)).withHost h := by
    rw [plan_start, plan_start]
    split <;> rfl
  exact (congrArg _ hstart).trans (plan_run_withHost s.cfg i h _)

/-! ### A command in flight (R15, R16) -/

theorem runMicros_append (ms ns : List Micro) : ∀ s : State,
    runMicros (ms ++ ns) s =
      if (runMicros ms s).1 then runMicros ns (runMicros ms s).2 else (false, (runMicros ms s).2) := by
  induction ms with
  | nil => exact fun _ => rfl
  | cons m ms ih =>
    intro s
    rw [List.cons_append, runMicros_cons, runMicros_cons]
    split
    · exact ih _
    · rfl

/-- A completed transaction counts one and keeps at most one byte. -/
theorem perform_inflight {m : Micro} {s t : State} {f : InFlight} (hm : m.isTransaction = true)
    (hf : s.inflight = some f) (h : m.perform s = (true, t)) :
    ∃ got : List Byte, got.length ≤ 1 ∧
      t.inflight = some { f with seq := f.seq + 1#3, temps := f.temps ++ got } := by
  cases m with
  | read a =>
    cases hfail : (s.moment 0).fail with
    | false =>
      rw [perform_read_ok hfail] at h
      cases h
      exact ⟨[s.found a], le_rfl, by simp [readDone, hf]⟩
    | true => simp [perform_read_fail hfail] at h
  | write a v =>
    cases hfail : (s.moment 0).fail with
    | false =>
      rw [perform_write_ok hfail] at h
      cases h
      exact ⟨[], Nat.zero_le 1, by simp [writeDone, hf]⟩
    | true => simp [perform_write_fail hfail] at h
  | wait t => cases hm

theorem runMicros_inflight (ms : List Micro) : ∀ {s t : State} {f : InFlight},
    (∀ m ∈ ms, m.isTransaction = true) → s.inflight = some f → runMicros ms s = (true, t) →
    ∃ temps, t.inflight = some { f with seq := f.seq + BitVec.ofNat 3 ms.length, temps := temps } ∧
      temps.length ≤ f.temps.length + ms.length := by
  induction ms with
  | nil =>
    intro s t f _ hf h
    cases h
    exact ⟨f.temps, by simp [hf], le_rfl⟩
  | cons m ms ih =>
    intro s t f hms hf h
    obtain ⟨hm, hms⟩ := List.forall_mem_cons.1 hms
    rw [runMicros_cons] at h
    split at h
    case isFalse => simp at h
    case isTrue hok =>
      obtain ⟨got, hgot, hf'⟩ := perform_inflight hm hf (Prod.ext hok rfl)
      obtain ⟨temps, hg, htemps⟩ := ih hms hf' h
      refine ⟨temps, ?_, ?_⟩
      · rw [hg, List.length_cons, Nat.add_comm ms.length, BitVec.ofNat_add, BitVec.add_assoc]
      · rw [List.length_append] at htemps
        rw [List.length_cons]
        omega

/-- A command's transactions come first in its list; INIT's wait comes last (R131). -/
theorem plan_transactions_first (p : Config.Params) (i : Instr) :
    (planOf p i).micros.take ((planOf p i).micros.filter Micro.isTransaction).length =
      (planOf p i).micros.filter Micro.isTransaction := by
  cases i <;> rfl

theorem startState_inflight (i : Instr) (s : State) :
    (startState i s).inflight = some ⟨i, 0#3, []⟩ := by
  rw [startState, plan_start]
  split <;> rfl

theorem startState_rsp (i : Instr) (s : State) : (startState i s).rsp = none := by
  rw [startState, plan_start]
  split <;> rfl

/-- The state after the first `k` transactions of a command (R16). -/
theorem inflight_after_transactions {i : Instr} {s u : State} {k : Nat}
    (hk : k ≤ ((planOf s.cfg i).micros.filter Micro.isTransaction).length)
    (hrun : runMicros ((planOf s.cfg i).micros.take k) (startState i s) = (true, u)) :
    ∃ temps, u.inflight = some ⟨i, BitVec.ofNat 3 k, temps⟩ ∧ temps.length ≤ k := by
  have htrans : ∀ m ∈ (planOf s.cfg i).micros.take k, m.isTransaction = true := fun m hm => by
    have hm' := List.take_subset_take_left _ hk hm
    rw [plan_transactions_first] at hm'
    exact (List.mem_filter.1 hm').2
  obtain ⟨temps, hg, htemps⟩ := runMicros_inflight _ htrans (startState_inflight i s) hrun
  rw [List.length_take_of_le (hk.trans (List.length_filter_le _ _))] at hg htemps
  exact ⟨temps, by simpa using hg, by simpa using htemps⟩

/-- Settles O6: after `k` transactions the sequencer's `seq` is `k`, so the plan in flight goes on with the
rest of the list, and the list is its first `k` entries and that rest. -/
theorem inFlightCommandRunsToItsEnd : Obligations.InFlightCommandRunsToItsEnd := by
  intro i s u k hidle hv hk hrun
  change runMicros _ (startState i s) = _ at hrun
  obtain ⟨temps, hg, htemps⟩ := inflight_after_transactions hk hrun
  obtain ⟨-, -, -, -, -, hrsp, -, hcfg⟩ := between_runMicros hrun
  rw [startState_rsp] at hrsp
  rw [startState_cfg] at hcfg
  have hseq : u.seq.toNat = k := by
    have hk6 : k ≤ 6 := hk.trans ((List.length_filter_le _ _).trans (plan_length s.cfg i))
    rw [State.seq, hg]
    exact Nat.mod_eq_of_lt (by omega)
  have hsplit : runMicros (planOf s.cfg i).micros (startState i s) =
      runMicros ((planOf s.cfg i).micros.drop k) u := by
    conv_lhs => rw [← List.take_append_drop k (planOf s.cfg i).micros]
    rw [runMicros_append, hrun, if_pos rfl]
  refine ⟨by simp [State.busy, hg], hseq, by simpa [State.temps, hg] using htemps, hrsp, ?_⟩
  rw [step_of_busy hg, hcfg, exec_of_idle hidle]
  change Host.Outcome.next ((planOf s.cfg i).run (startState i s)) = _
  rw [Plan.run_eq, Plan.run_eq, startState_seq, hseq]
  simp only [hv, if_true, BitVec.toNat_ofNat, Nat.zero_mod, List.drop_zero, hsplit]

end Sys2Proof.Machine

/-! The transport and the accessor: what a transaction and an agent do to the device (20_memory.md), and how
WRF and WPACK end (40_bitfield_accessor.md). -/

namespace Sys2Proof.Machine

/-! ### One transaction on the device (R32, R33, R47) -/

theorem memRead_dev (a : Addr) (s : State) : (memRead a s).2.dev = s.afterMoment.dev := by
  change ((Micro.read a).perform s).2.dev = _
  obtain h | ⟨_, _, h, -⟩ := perform_dev (.read a) s
  · exact h
  · cases h

theorem memRead_completes (a : Addr) (s : State) : (memRead a s).1 = true ↔ (s.moment 0).fail = false := by
  change ((Micro.read a).perform s).1 = true ↔ _
  cases h : (s.moment 0).fail <;> simp [perform_read_ok, perform_read_fail, h]

theorem memWrite_of_ok {s : State} (h : (s.moment 0).fail = false) (a : Addr) (v : Byte) :
    memWrite a v s = (true, writeDone a v s) := perform_write_ok h a fun _ => v

theorem memWrite_of_fail {s : State} (h : (s.moment 0).fail = true) (a : Addr) (v : Byte) :
    memWrite a v s = (false, s.afterMoment.log (.write a v false)) := perform_write_fail h a fun _ => v

/-- Settles O13: what a failed and an answered transaction leave, and the laws of `devStore`. -/
theorem transactionsOnTheDevice : Obligations.TransactionsOnTheDevice := by
  intro s a v
  rw [State.nextMoment_eq]
  refine ⟨memRead_completes a s, memRead_dev a s, ?_⟩
  cases h : (s.moment 0).fail with
  | true =>
    rw [memWrite_of_fail h]
    exact ⟨by simp, fun _ => rfl, fun _ _ => rfl, nofun, nofun⟩
  | false =>
    rw [memWrite_of_ok h]
    refine ⟨by simp, nofun, fun x hx => read_devStore_ne a v _ hx, fun _ ha => ?_, fun _ ha hwf => ?_⟩
    · exact devStore_of_not_stores v _ (decide_eq_false (by omega))
    · exact read_devStore_same v (decide_eq_true ha) (applyActs_wf _ _ hwf)

/-! ### Codes in their fields (R5 item 3, R23) -/

/-- What a merged field reads back as: the value, truncated to the field (R106). -/
theorem readField_mergeField {hb len : Nat} (h : validField hb len = true) (old val : Byte) :
    readField hb len (mergeField hb len old val) = BitVec.ofNat 8 (val.toNat % 2 ^ len) := by
  apply BitVec.eq_of_toNat_eq
  rw [toNat_readField_mergeField h, Nat.one_shiftLeft, Nat.and_two_pow_sub_one_eq_mod, BitVec.toNat_ofNat,
    Nat.mod_eq_of_lt ((Nat.mod_le _ _).trans_lt val.isLt)]

theorem readField_mergeField_of_fits {f : BitField} {val : Byte} (h : f.wf = true) (hfits : f.fits val = true)
    (old : Byte) : readField f.highBit f.length (mergeField f.highBit f.length old val) = val := by
  rw [readField_mergeField h, Nat.mod_eq_of_lt (of_decide_eq_true hfits), BitVec.ofNat_toNat,
    BitVec.setWidth_eq]

/-- The default codes fit their fields, and the three modes have three codes. -/
theorem codes_of_wf {p : Config.Params} (h : p.wf = true) :
    (p.fAvg.fits Config.avgDefault = true ∧ p.fRate.fits Config.rateDefault = true ∧
      p.fBias.fits p.biasNormal = true ∧ p.fGain.fits Config.gainDefault = true) ∧
    (p.fMode.fits p.modeContinuous = true ∧ p.fMode.fits p.modeSingle = true ∧
      p.modeContinuous ≠ p.modeSingle) := by
  simp only [Config.Params.wf, Config.Params.codesFit, Bool.and_eq_true, bne_iff_ne] at h
  grind

/-- The three fields of ConfigA have no common bit (R5 item 2). -/
theorem disjoint_of_wf {p : Config.Params} (h : p.wf = true) :
    p.fAvg.disjoint p.fRate = true ∧ p.fAvg.disjoint p.fBias = true ∧ p.fRate.disjoint p.fBias = true := by
  simp only [Config.Params.wf, Config.Params.fieldsDisjoint, Bool.and_eq_true] at h
  grind

/-- The mode a register stands for once a code has been merged into it (R23). -/
theorem operatingMode_mergeField {p : Config.Params} (hwf : p.wf = true) (old val : Byte) :
    operatingMode p (mergeField p.fMode.highBit p.fMode.length old val) =
      modeOfCode p (BitVec.ofNat 8 (val.toNat % 2 ^ p.fMode.length)) := by
  have hv : validField p.fMode.highBit p.fMode.length = true := ConfigItem.validField_field .mode hwf
  rw [operatingMode, readField_mergeField hv]

theorem operatingMode_mergeField_of_fits {p : Config.Params} (hwf : p.wf = true) (old : Byte) {val : Byte}
    (hfits : p.fMode.fits val = true) :
    operatingMode p (mergeField p.fMode.highBit p.fMode.length old val) = modeOfCode p val := by
  rw [operatingMode, readField_mergeField_of_fits (f := p.fMode) (ConfigItem.validField_field .mode hwf) hfits]

/-! ### The agents (R40 to R42, R243) -/

theorem read_write (a : Nat) (v : Byte) {d : Memory} (h : Memory.wf d = true) (x : Nat) :
    Memory.read (Memory.write d a v) x = if x = a then v else Memory.read d x := by
  split
  · rename_i hx
    rw [hx, Memory.read_write_same a v d h]
  · exact Memory.read_write_ne ‹_› v d

theorem read_devStore (a : Addr) (v : Byte) {d : Memory} (h : Memory.wf d = true) (x : Nat) :
    Memory.read (devStore a v d) x = if x = a.toNat ∧ x ≤ 2 then v else Memory.read d x := by
  simp only [devStore, storesWrites, decide_eq_true_eq]
  split
  · rw [read_write _ v h]
    grind
  · grind

/-- Settles O14: an action is at most three stored writes; the device's reset merges `MODE_SINGLE`, which fits
the mode field, so the register then names SingleMeasurement. -/
theorem agentsChangeOnlyTheirRegisters : Obligations.AgentsChangeOnlyTheirRegisters := by
  intro p d a v configA configB mode x hwf
  have hsensor : Memory.read (applyAct p d (.sensor a v)) x =
      if x = a.toNat ∧ 3 ≤ x ∧ x ≤ 9 then v else Memory.read d x := by
    simp only [applyAct, sensorDriven, Bool.and_eq_true, decide_eq_true_eq]
    split
    · rw [read_write _ v hwf]
      grind
    · grind
  have hreset : ∀ y, Memory.read (applyAct p d (.deviceReset configA configB mode)) y =
      if y = 0 then configA else if y = 1 then configB
      else if y = 2 then mergeField p.fMode.highBit p.fMode.length mode p.modeSingle
      else Memory.read d y := fun y => by
    rw [applyAct, read_devStore _ _ (devStore_wf _ _ (devStore_wf _ _ hwf)),
      read_devStore _ _ (devStore_wf _ _ hwf), read_devStore _ _ hwf]
    simp only [Config.aMode, Config.aConfigB, Config.aConfigA, BitVec.toNat_ofNat]
    grind
  refine ⟨hsensor, read_devStore a v hwf x, rfl, hreset x, fun hp => ?_⟩
  obtain ⟨-, -, hfits, hne⟩ := codes_of_wf hp
  rw [hreset, if_neg (by decide), if_neg (by decide), if_pos rfl, operatingMode_mergeField_of_fits hp _ hfits,
    modeOfCode, if_neg hne.symm, if_pos rfl]

/-! ### RDF and WRF: the invalid field, the field's value, the two failures -/

theorem validField_eq_false {hb len : Nat} (h : 7 < hb ∨ len = 0 ∨ hb + 1 < len) :
    validField hb len = false := by
  rw [Bool.eq_false_iff, Ne, validField_iff]
  omega

/-- Settles O17: the field's check comes first in a plan, so the command responds as soon as it is accepted. -/
theorem invalidFieldIsRejectedFirst : Obligations.InvalidFieldIsRejectedFirst := by
  intro s reg hb len val hidle hinv
  have hv := validField_eq_false hinv
  exact ⟨(exec_rdf_invalid hidle reg hv).trans (congrArg _ (hidle.respond_accept _ _ _)),
    (exec_of_idle hidle _).trans (congrArg _ ((Plan.run_of_invalid hv).trans (hidle.respond_accept _ _ _)))⟩

/-- Settles O19: bit `i` of the result is bit `fieldShift + i` of the byte for `i < len`, and zero above. -/
theorem rdfResultIsTheFieldAlone : Obligations.RdfResultIsTheFieldAlone := by
  intro hb len x y hv
  have hs := fieldShift_add_len hv
  refine ⟨Nat.lt_pow_two_of_testBit _ fun i hi => ?_, fun hxy => BitVec.eq_of_getLsbD_eq fun i _ => ?_⟩
  · rw [BitVec.testBit_toNat, getLsbD_readField hv, decide_eq_false (by omega), Bool.false_and]
  · rw [getLsbD_readField hv, getLsbD_readField hv]
    by_cases hi : i < len
    · rw [hxy (fieldShift hb len + i) (by omega) (by omega)]
    · simp [hi]

section

variable {s u : State} {p : Plan} (i : Instr) (hidle : s.Idle) (hplan : planOf s.cfg i = p)
  (hstart : p.start = id) (hv : p.valid = true)

include hidle hplan hstart hv

/-- A command that does nothing but its list, when the list completes. -/
theorem exec_of_run_ok (hfinish : p.finish = id) (hrun : runMicros p.micros (s.accept i) = (true, u)) :
    ∃ t, exec i s = .next t ∧ t.rsp = some ⟨.ok, s.inited, p.lanes u.temps u⟩ ∧ t.trace = u.trace ∧
      s.KeepsBlock t ∧ t.dev = u.dev ∧ t.env = u.env := by
  obtain ⟨hx, hy, hz, hinited, -, -, hhost, hcfg⟩ := between_runMicros hrun
  refine ⟨_, exec_of_idle hidle i, ?_⟩
  rw [hplan, hstart, id, Plan.run_of_ok rfl hv hrun, hfinish]
  exact ⟨by simp [hinited], rfl, ⟨hx, hy, hz, hinited, rfl, hcfg, hhost⟩, rfl, rfl⟩

/-- A command that does nothing but its list, when an entry fails. -/
theorem exec_of_run_fail (hrun : runMicros p.micros (s.accept i) = (false, u)) :
    ∃ t, exec i s = .next t ∧ t.rsp = some ⟨.transportError, s.inited, {}⟩ ∧ t.trace = u.trace ∧
      s.KeepsBlock t ∧ t.dev = u.dev ∧ t.env = u.env := by
  obtain ⟨hx, hy, hz, hinited, -, -, hhost, hcfg⟩ := between_runMicros hrun
  refine ⟨_, exec_of_idle hidle i, ?_⟩
  rw [hplan, hstart, id, Plan.run_of_fail rfl hv hrun]
  exact ⟨by simp [hinited], rfl, ⟨hx, hy, hz, hinited, rfl, hcfg, hhost⟩, rfl, rfl⟩

end

section

variable {s : State} {hb len : Nat}

/-- WRF of a valid field with both transactions answered. -/
theorem exec_wrf_answered (hidle : s.Idle) (reg : Addr) (val : Byte) (hv : validField hb len = true)
    (h : s.Answered 2) :
    ∃ t, exec (.wrf reg hb len val) s = .next t ∧ t.rsp = some ⟨.ok, s.inited, {}⟩ ∧
      t.trace = [.read reg (some (s.readByte 0 reg)),
        .write reg (mergeField hb len (s.readByte 0 reg) val) true] ∧
      s.KeepsBlock t ∧ t.dev = devStore reg (mergeField hb len (s.readByte 0 reg) val) (s.devAt 2) ∧
      t.env = s.env.drop 2 := by
  have hexec := exec_of_idle hidle (.wrf reg hb len val)
  rw [plan_start, if_neg nofun, planOf, wrfPlan, writeFieldPlan_run_ok _ reg val hv h] at hexec
  refine ⟨_, hexec, rfl, by simp [State.found_accept], by simp [State.KeepsBlock], ?_,
    by simp [← List.drop_one]⟩
  rw [State.respond_dev, writeDone_readDone_dev]

/-- WRF of a valid field whose read fails: no write is issued. -/
theorem exec_wrf_read_fails (hidle : s.Idle) (reg : Addr) (val : Byte) (hv : validField hb len = true)
    (h : (s.moment 0).fail = true) :
    ∃ t, exec (.wrf reg hb len val) s = .next t ∧ t.rsp = some ⟨.transportError, s.inited, {}⟩ ∧
      t.trace = [.read reg none] ∧ s.KeepsBlock t ∧ t.dev = s.devAt 1 ∧ t.env = s.env.drop 1 := by
  have hrun : runMicros (writeFieldPlan reg hb len val).micros (s.accept (.wrf reg hb len val)) =
      (false, (s.accept (.wrf reg hb len val)).afterMoment.log (.read reg none)) := by
    simp only [writeFieldPlan, runMicros, perform_read_fail (s := s.accept (.wrf reg hb len val)) h]
  obtain ⟨t, hexec, hrsp, htrace, hkeeps, hdev, henv⟩ :=
    exec_of_run_fail (.wrf reg hb len val) hidle rfl rfl hv hrun
  exact ⟨t, hexec, hrsp, htrace, hkeeps, hdev.trans (accept_afterMoment_dev s _), by simp [henv]⟩

/-- WRF of a valid field whose write fails: the write is issued and has no effect (R47). -/
theorem exec_wrf_write_fails (hidle : s.Idle) (reg : Addr) (val : Byte) (hv : validField hb len = true)
    (h0 : (s.moment 0).fail = false) (h1 : (s.moment 1).fail = true) :
    ∃ t, exec (.wrf reg hb len val) s = .next t ∧ t.rsp = some ⟨.transportError, s.inited, {}⟩ ∧
      t.trace = [.read reg (some (s.readByte 0 reg)),
        .write reg (mergeField hb len (s.readByte 0 reg) val) false] ∧
      s.KeepsBlock t ∧ t.dev = s.devAt 2 ∧ t.env = s.env.drop 2 := by
  have hread := perform_read_ok (s := s.accept (.wrf reg hb len val)) h0 reg
  have hwrite := perform_write_fail (s := readDone reg (s.accept (.wrf reg hb len val)))
    (by simpa using h1) reg fun t => mergeField hb len (t.getD 0 0#8) val
  have htemps : (readDone reg (s.accept (.wrf reg hb len val))).temps = [s.readByte 0 reg] := by
    simp [readDone_temps, State.found_accept]
  rw [htemps] at hwrite
  have hrun : runMicros (writeFieldPlan reg hb len val).micros (s.accept (.wrf reg hb len val)) =
      (false, (readDone reg (s.accept (.wrf reg hb len val))).afterMoment.log
        (.write reg (mergeField hb len (s.readByte 0 reg) val) false)) := by
    simp only [writeFieldPlan, runMicros, hread, hwrite]
    rfl
  obtain ⟨t, hexec, hrsp, htrace, hkeeps, hdev, henv⟩ :=
    exec_of_run_fail (.wrf reg hb len val) hidle rfl rfl hv hrun
  refine ⟨t, hexec, hrsp, ?_, hkeeps, ?_, ?_⟩
  · simp [htrace, State.found_accept]
  · simp [hdev, State.devAt, State.nextMoment_eq]
  · simp [henv, ← List.drop_one]

end

/-- Settles O20: the merged byte is `mergeField`'s, whose shift is R101's. -/
theorem wrfMergesTheField : Obligations.WrfMergesTheField := by
  intro s reg hb len val hidle h hhb hlen hle
  obtain ⟨t, hexec, hrest⟩ := exec_wrf_answered hidle reg val (validField_iff.2 ⟨hhb, hlen, hle⟩) h
  exact ⟨t, _, hexec, rfl, hrest⟩

/-- Settles O21: the two failure points of the list. -/
theorem wrfFailuresLeaveTheDevice : Obligations.WrfFailuresLeaveTheDevice :=
  fun _ reg _ _ val hidle hv =>
    ⟨exec_wrf_read_fails hidle reg val hv, exec_wrf_write_fails hidle reg val hv⟩

/-! ### WPACK (R107) -/

/-- Settles O23: the list is one write of `packByte`, answered or not. -/
theorem wpackWritesThePackedByte : Obligations.WpackWritesThePackedByte := by
  intro s reg b0 b1 b2 b3 hidle
  have hdev1 := accept_afterMoment_dev s (.wpack reg b0 b1 b2 b3)
  cases h : (s.moment 0).fail with
  | false =>
    have hrun : runMicros (wpackPlan reg b0 b1 b2 b3).micros (s.accept (.wpack reg b0 b1 b2 b3)) =
        (true, writeDone reg (packByte b0 b1 b2 b3) (s.accept (.wpack reg b0 b1 b2 b3))) := by
      simp only [wpackPlan, runMicros, perform_write_ok (s := s.accept (.wpack reg b0 b1 b2 b3)) h]
    obtain ⟨t, hexec, hrsp, htrace, hkeeps, hdev, henv⟩ :=
      exec_of_run_ok (.wpack reg b0 b1 b2 b3) hidle rfl rfl rfl rfl hrun
    rw [writeDone_dev, hdev1] at hdev
    exact ⟨t, _, hexec, rfl, hkeeps, by simp [henv], fun _ => ⟨hrsp, htrace, hdev⟩, nofun⟩
  | true =>
    have hrun : runMicros (wpackPlan reg b0 b1 b2 b3).micros (s.accept (.wpack reg b0 b1 b2 b3)) =
        (false, (s.accept (.wpack reg b0 b1 b2 b3)).afterMoment.log
          (.write reg (packByte b0 b1 b2 b3) false)) := by
      simp only [wpackPlan, runMicros, perform_write_fail (s := s.accept (.wpack reg b0 b1 b2 b3)) h]
    obtain ⟨t, hexec, hrsp, htrace, hkeeps, hdev, henv⟩ :=
      exec_of_run_fail (.wpack reg b0 b1 b2 b3) hidle rfl rfl rfl hrun
    exact ⟨t, _, hexec, rfl, hkeeps, by simp [henv], nofun, fun _ => ⟨hrsp, htrace, hdev.trans hdev1⟩⟩

end Sys2Proof.Machine

/-! WPACK against field writes (R108), on a byte: fields without a common bit are merged independently of each
other, and a code that fits its field is merged as its image. -/

namespace Sys2Proof.Machine

/-! ### Two fields without a common bit -/

section

variable {hb len hb' len' : Nat} (h : fieldMask hb len &&& fieldMask hb' len' = 0#8)

include h

theorem fieldMask_disjoint_bit (i : Nat) :
    ((fieldMask hb len).getLsbD i && (fieldMask hb' len').getLsbD i) = false := by
  rw [← BitVec.getLsbD_and, h, BitVec.getLsbD_zero]

theorem mergeField_comm (old v v' : Byte) :
    mergeField hb' len' (mergeField hb len old v) v' = mergeField hb len (mergeField hb' len' old v') v := by
  apply BitVec.eq_of_getLsbD_eq
  intro i _
  have hi := fieldMask_disjoint_bit h i
  simp only [mergeField, BitVec.getLsbD_or, BitVec.getLsbD_and, BitVec.getLsbD_not]
  grind

theorem readField_mergeField_of_disjoint (old v' : Byte) :
    readField hb len (mergeField hb' len' old v') = readField hb len old := by
  rw [readField, readField]
  congr 1
  apply BitVec.eq_of_getLsbD_eq
  intro i _
  have hi := fieldMask_disjoint_bit h i
  simp only [mergeField, BitVec.getLsbD_or, BitVec.getLsbD_and, BitVec.getLsbD_not]
  grind

end

/-! ### The image of a code -/

/-- A field put back where it was read. -/
theorem readField_shiftLeft {hb len : Nat} (hv : validField hb len = true) (byte : Byte) :
    readField hb len byte <<< fieldShift hb len = byte &&& fieldMask hb len := by
  apply BitVec.eq_of_getLsbD_eq
  intro i hi
  have hs := fieldShift_add_len hv
  rw [BitVec.getLsbD_shiftLeft, getLsbD_readField hv, BitVec.getLsbD_and, getLsbD_fieldMask hv]
  grind

/-- The image of a code that fits its field lies inside the field. -/
theorem codeImage_and_fieldMask {f : BitField} {v : Byte} (hv : f.wf = true) (hfits : f.fits v = true) :
    codeImage f v &&& fieldMask f.highBit f.length = codeImage f v := by
  have hlt : v.toNat < 2 ^ f.length := of_decide_eq_true hfits
  have hs := fieldShift_add_len hv
  apply BitVec.eq_of_getLsbD_eq
  intro i hi
  have hout : f.length ≤ i - fieldShift f.highBit f.length →
      v.getLsbD (i - fieldShift f.highBit f.length) = false := fun hle => by
    rw [← BitVec.testBit_toNat]
    exact Nat.testBit_lt_two_pow (hlt.trans_le (Nat.pow_le_pow_right (by decide) hle))
  rw [codeImage, BitVec.getLsbD_and, BitVec.getLsbD_shiftLeft, getLsbD_fieldMask hv]
  grind

theorem mergeField_of_fits {f : BitField} {v : Byte} (hv : f.wf = true) (hfits : f.fits v = true) (old : Byte) :
    mergeField f.highBit f.length old v = (old &&& ~~~(fieldMask f.highBit f.length)) ||| codeImage f v := by
  rw [mergeField, ← codeImage, codeImage_and_fieldMask hv hfits]

/-- Merging a code changes nothing exactly when the field holds it. -/
theorem mergeField_eq_self_iff {f : BitField} {v : Byte} (hv : f.wf = true) (hfits : f.fits v = true)
    (old : Byte) : mergeField f.highBit f.length old v = old ↔ readField f.highBit f.length old = v := by
  constructor
  · intro h
    rw [← h, readField_mergeField_of_fits hv hfits]
  · rintro rfl
    rw [mergeField, readField_shiftLeft hv, BitVec.and_assoc, BitVec.and_self]
    apply BitVec.eq_of_getLsbD_eq
    intro i _
    simp only [BitVec.getLsbD_or, BitVec.getLsbD_and, BitVec.getLsbD_not]
    grind

/-! ### The packed byte (R107) -/

theorem packByte_eq_images (b0 b1 b2 b3 : Byte) : packByte b0 b1 b2 b3 =
    codeImage ⟨7, 2⟩ b0 ||| codeImage ⟨5, 2⟩ b1 ||| codeImage ⟨3, 2⟩ b2 ||| codeImage ⟨1, 2⟩ b3 := by
  apply BitVec.eq_of_toNat_eq
  simp [packByte, codeImage, fieldShift]

theorem packByte_slots (B : Byte) :
    packByte (readField 7 2 B) (readField 5 2 B) (readField 3 2 B) (readField 1 2 B) = B := by
  rw [packByte_eq_images]
  simp only [codeImage]
  rw [readField_shiftLeft (by decide), readField_shiftLeft (by decide), readField_shiftLeft (by decide),
    readField_shiftLeft (by decide), ← BitVec.and_or_distrib_left, ← BitVec.and_or_distrib_left,
    ← BitVec.and_or_distrib_left]
  exact BitVec.and_allOnes

/-! ### R108 -/

/-- The four slots of R107 with their operands, as field writes. -/
def slotWrites (b0 b1 b2 b3 : Byte) : List (Nat × Byte) := [(7, b0), (5, b1), (3, b2), (1, b3)]

/-- A field write of a slot. -/
def writeSlot (o : Byte) (w : Nat × Byte) : Byte := mergeField w.1 2 o w.2

/-- Two of the four slots are one, or have no common bit. -/
theorem slots_disjoint {hb hb' : Nat} (h : hb = 7 ∨ hb = 5 ∨ hb = 3 ∨ hb = 1)
    (h' : hb' = 7 ∨ hb' = 5 ∨ hb' = 3 ∨ hb' = 1) (hne : hb ≠ hb') :
    fieldMask hb 2 &&& fieldMask hb' 2 = 0#8 := by
  revert hne
  obtain rfl | rfl | rfl | rfl := h <;> obtain rfl | rfl | rfl | rfl := h' <;> decide

section

variable {b0 b1 b2 b3 : Byte}

theorem fst_of_mem_slotWrites {w : Nat × Byte} (h : w ∈ slotWrites b0 b1 b2 b3) :
    w.1 = 7 ∨ w.1 = 5 ∨ w.1 = 3 ∨ w.1 = 1 := by
  simp only [slotWrites, List.mem_cons, List.not_mem_nil, or_false] at h
  obtain rfl | rfl | rfl | rfl := h <;> simp

theorem fst_nodup_of_perm {l : List (Nat × Byte)} (h : l.Perm (slotWrites b0 b1 b2 b3)) :
    (l.map Prod.fst).Nodup := by
  rw [(h.map Prod.fst).nodup_iff, slotWrites]
  simp

/-- Two writes of the four commute: they are the same write or write two slots. -/
theorem writeSlot_comm {w w' : Nat × Byte} (h : w ∈ slotWrites b0 b1 b2 b3) (h' : w' ∈ slotWrites b0 b1 b2 b3)
    (o : Byte) : writeSlot (writeSlot o w) w' = writeSlot (writeSlot o w') w := by
  by_cases hne : w.1 = w'.1
  · rw [List.inj_on_of_nodup_map (fst_nodup_of_perm (.refl _)) h h' hne]
  · exact mergeField_comm (slots_disjoint (fst_of_mem_slotWrites h) (fst_of_mem_slotWrites h') hne) _ _ _

/-- Writes that leave out one slot do not touch it. -/
theorem readField_foldl_writeSlot {hb : Nat} (l : List (Nat × Byte)) : ∀ o : Byte,
    (∀ w ∈ l, fieldMask hb 2 &&& fieldMask w.1 2 = 0#8) →
      readField hb 2 (l.foldl writeSlot o) = readField hb 2 o := by
  induction l with
  | nil => exact fun _ _ => rfl
  | cons w l ih =>
    intro o hl
    rw [List.foldl_cons, ih _ fun w' hw' => hl w' (List.mem_cons_of_mem w hw')]
    exact readField_mergeField_of_disjoint (hl w List.mem_cons_self) o w.2

theorem slot_disjoint_of_left_out {left : Nat × Byte} {order : List (Nat × Byte)}
    (h : (left :: order).Perm (slotWrites b0 b1 b2 b3)) :
    ∀ w ∈ order, fieldMask left.1 2 &&& fieldMask w.1 2 = 0#8 := by
  intro w hw
  have hnd := fst_nodup_of_perm h
  rw [List.map_cons, List.nodup_cons] at hnd
  exact slots_disjoint (fst_of_mem_slotWrites (h.subset List.mem_cons_self))
    (fst_of_mem_slotWrites (h.subset (List.mem_cons_of_mem left hw)))
    fun e => hnd.1 (e ▸ List.mem_map_of_mem hw)

variable (h0 : b0.toNat < 4) (h1 : b1.toNat < 4) (h2 : b2.toNat < 4) (h3 : b3.toNat < 4)

include h0 h1 h2 h3

theorem fits_of_mem_slotWrites {w : Nat × Byte} (h : w ∈ slotWrites b0 b1 b2 b3) :
    (⟨w.1, 2⟩ : BitField).wf = true ∧ (⟨w.1, 2⟩ : BitField).fits w.2 = true := by
  simp only [slotWrites, List.mem_cons, List.not_mem_nil, or_false] at h
  obtain rfl | rfl | rfl | rfl := h
  · exact ⟨rfl, decide_eq_true h0⟩
  · exact ⟨rfl, decide_eq_true h1⟩
  · exact ⟨rfl, decide_eq_true h2⟩
  · exact ⟨rfl, decide_eq_true h3⟩

/-- Each slot of the result reads back as its operand, and a byte is its four slots. -/
theorem foldl_slotWrites (old : Byte) :
    (slotWrites b0 b1 b2 b3).foldl writeSlot old = packByte b0 b1 b2 b3 := by
  have back : ∀ (hb : Nat) {v : Byte}, validField hb 2 = true → v.toNat < 4 → ∀ o,
      readField hb 2 (mergeField hb 2 o v) = v := fun hb v hv hlt o =>
    readField_mergeField_of_fits (f := ⟨hb, 2⟩) hv (decide_eq_true hlt) o
  have past : ∀ hb hb' : Nat, fieldMask hb 2 &&& fieldMask hb' 2 = 0#8 → ∀ o v,
      readField hb 2 (mergeField hb' 2 o v) = readField hb 2 o := fun _ _ => readField_mergeField_of_disjoint
  rw [← packByte_slots ((slotWrites b0 b1 b2 b3).foldl writeSlot old)]
  simp only [slotWrites, List.foldl_cons, List.foldl_nil, writeSlot]
  rw [past 7 1 rfl, past 7 3 rfl, past 7 5 rfl, back 7 rfl h0, past 5 1 rfl, past 5 3 rfl, back 5 rfl h1,
    past 3 1 rfl, back 3 rfl h2, back 1 rfl h3]

theorem foldl_of_perm {order : List (Nat × Byte)} (h : order.Perm (slotWrites b0 b1 b2 b3)) (old : Byte) :
    order.foldl writeSlot old = packByte b0 b1 b2 b3 := by
  rw [← foldl_slotWrites h0 h1 h2 h3 old]
  exact h.foldl_eq' (fun w hw w' hw' o => writeSlot_comm (h.subset hw) (h.subset hw') o) old

/-- Without one of the four writes: made last, it gives the packed byte, so it must change nothing. -/
theorem foldl_without_iff {left : Nat × Byte} {order : List (Nat × Byte)}
    (h : (left :: order).Perm (slotWrites b0 b1 b2 b3)) (old : Byte) :
    order.foldl writeSlot old = packByte b0 b1 b2 b3 ↔ readField left.1 2 old = left.2 := by
  obtain ⟨hwf, hfits⟩ := fits_of_mem_slotWrites h0 h1 h2 h3 (h.subset List.mem_cons_self)
  have hlast : writeSlot (order.foldl writeSlot old) left = packByte b0 b1 b2 b3 := by
    rw [← foldl_of_perm h0 h1 h2 h3 ((List.perm_append_singleton left order).trans h) old, List.foldl_append]
    rfl
  rw [← hlast, eq_comm, writeSlot, mergeField_eq_self_iff (f := ⟨left.1, 2⟩) hwf hfits,
    readField_foldl_writeSlot order old (slot_disjoint_of_left_out h)]

end

/-- Three fields without a common bit, merged into a byte that is zero outside them. -/
theorem mergeField_three {f1 f2 f3 : BitField} {v1 v2 v3 old : Byte}
    (w1 : f1.wf = true) (w2 : f2.wf = true) (w3 : f3.wf = true)
    (d12 : f1.disjoint f2 = true) (d13 : f1.disjoint f3 = true) (d23 : f2.disjoint f3 = true)
    (fit1 : f1.fits v1 = true) (fit2 : f2.fits v2 = true) (fit3 : f3.fits v3 = true)
    (hold : old &&& ~~~(fieldMask f1.highBit f1.length ||| fieldMask f2.highBit f2.length |||
      fieldMask f3.highBit f3.length) = 0#8) :
    mergeField f3.highBit f3.length (mergeField f2.highBit f2.length
      (mergeField f1.highBit f1.length old v1) v2) v3 =
        codeImage f1 v1 ||| codeImage f2 v2 ||| codeImage f3 v3 := by
  rw [mergeField_of_fits w1 fit1, mergeField_of_fits w2 fit2, mergeField_of_fits w3 fit3]
  apply BitVec.eq_of_getLsbD_eq
  intro i _
  have hbit {x y : Byte} (h : x = y) : x.getLsbD i = y.getLsbD i := h ▸ rfl
  have i1 := hbit (codeImage_and_fieldMask w1 fit1)
  have i2 := hbit (codeImage_and_fieldMask w2 fit2)
  have e12 := hbit (beq_iff_eq.1 d12)
  have e13 := hbit (beq_iff_eq.1 d13)
  have e23 := hbit (beq_iff_eq.1 d23)
  have eold := hbit hold
  simp only [BitVec.getLsbD_or, BitVec.getLsbD_and, BitVec.getLsbD_not, BitVec.getLsbD_zero] at *
  grind

/-- Settles O24: (1) the four writes commute, and in the order of the slots they leave the packed byte; (2) is
`foldl_without_iff`; (3) `mergeField_three`, and a byte is its four slots. -/
theorem wpackAgainstFieldWrites : Obligations.WpackAgainstFieldWrites :=
  ⟨fun old _ _ _ _ _ h0 h1 h2 h3 h => foldl_of_perm h0 h1 h2 h3 h old,
    fun old _ _ _ _ _ _ h0 h1 h2 h3 h => foldl_without_iff h0 h1 h2 h3 h old,
    fun _ _ _ _ _ _ _ w1 w2 w3 d12 d13 d23 fit1 fit2 fit3 hold =>
      ⟨_, rfl, packByte_slots _, mergeField_three w1 w2 w3 d12 d13 d23 fit1 fit2 fit3 hold⟩⟩

/-- Settles O28: the three fields of ConfigA are disjoint and their default codes fit, so INIT's byte is
`mergeField_three` on a zero byte. -/
theorem initConfigAIsThePackedDefaults : Obligations.InitConfigAIsThePackedDefaults := by
  intro p hwf
  obtain ⟨⟨favg, frate, fbias, -⟩, -⟩ := codes_of_wf hwf
  obtain ⟨d12, d13, d23⟩ := disjoint_of_wf hwf
  exact ⟨packByte_slots _, mergeField_three (ConfigItem.validField_field .avg hwf)
    (ConfigItem.validField_field .rate hwf) (ConfigItem.validField_field .bias hwf) d12 d13 d23 favg frate fbias
    BitVec.zero_and⟩

end Sys2Proof.Machine

/-! The setters (42_driver_config.md sections 3 and 4) are WRF of their item's field, with the environment
between their read and their write (70_reset_and_hazards.md section 3). -/

namespace Sys2Proof.Machine

theorem ConfigItem.reg_le (c : ConfigItem) : c.reg.toNat ≤ 2 := by
  cases c <;> decide

/-- Settles O33: a setter is its WRF, whose merged byte is `mergeField`'s. -/
theorem settersReplaceTheirField : Obligations.SettersReplaceTheirField := by
  intro s c val hidle hwf h
  obtain ⟨t, hexec, hrest⟩ := exec_wrf_answered hidle c.reg val (c.validField_field hwf) h
  exact ⟨t, _, _, (c.exec_setter val s).trans hexec, rfl, rfl, hrest⟩

/-- Settles O35: the round trip of WRF and RDF (R106), whose `&&&` with ones is the remainder. -/
theorem setterThenGetter : Obligations.SetterThenGetter := by
  intro s c v hidle hwf hmem hund
  obtain ⟨t, u, hwrf, hrdf, hrsp, hkept⟩ :=
    wrfThenRdfRoundTrip s c.reg _ _ v hidle hmem hund c.reg_le (c.validField_field hwf)
  obtain ⟨-, hcfg, -⟩ := commandsLeaveHostAndConfiguration _ s t hwrf
  refine ⟨t, u, (c.exec_setter v s).trans hwrf, ?_, ?_, hkept⟩
  · rw [c.exec_getter, hcfg, hrdf]
  · rw [hrsp, Nat.one_shiftLeft, Nat.and_two_pow_sub_one_eq_mod]

/-- A read of a configuration register that the environment leaves to RefDevice, no other master writing. -/
theorem readByte_config {s : State} {n k : Nat} (hdata : (s.moment k).data = none) (hw : s.NoOtherWriter n)
    (hk : k < n) {reg : Addr} (hreg : reg.toNat ≤ 2) : s.readByte k reg = Memory.read s.dev reg.toNat := by
  have hmapped : mapped reg = true := decide_eq_true (by omega)
  simp [State.readByte, hdata, hmapped, State.read_devAt_config hw hreg (k + 1) hk]

/-- Settles O36: a failed write leaves the register, since nobody else writes it; a completed one leaves the
code merged into it. -/
theorem setmodeMovesTheOperatingMode : Obligations.SetmodeMovesTheOperatingMode := by
  intro s val hidle hwf hmem hw h0 hdata
  have hv := ConfigItem.validField_field .mode hwf
  have hexec := ConfigItem.exec_setter .mode val s
  cases h1 : (s.moment 1).fail with
  | true =>
    obtain ⟨t, ht, -, -, -, hdev, -⟩ := exec_wrf_write_fails hidle Config.aMode val hv h0 h1
    exact ⟨t, hexec.trans ht, by rw [if_pos rfl, hdev, State.read_devAt_config hw (by decide) 2 le_rfl]⟩
  | false =>
    have hans : s.Answered 2 := fun k hk => by
      interval_cases k
      · exact h0
      · exact h1
    obtain ⟨t, ht, -, -, -, hdev, -⟩ := exec_wrf_answered hidle Config.aMode val hv hans
    refine ⟨t, hexec.trans ht, ?_⟩
    rw [if_neg nofun, hdev, read_devStore_same _ (by decide) (State.devAt_wf hmem 2)]
    exact operatingMode_mergeField hwf _ val

/-- Settles O37: the read finds the register before the other master's write, and the setter's write is last. -/
theorem lostUpdate : Obligations.LostUpdate := by
  intro s c val v hidle hwf hmem h0 h1
  have hans : s.Answered 2 := fun k hk => by
    interval_cases k
    · rw [h0]; rfl
    · rw [h1]
  have hquiet : s.NoOtherWriter 1 := fun k hk x hx => by
    obtain rfl : k = 0 := by omega
    rw [h0] at hx
    cases hx
  obtain ⟨t, ht, hrsp, -, -, hdev, -⟩ := exec_wrf_answered hidle c.reg val (c.validField_field hwf) hans
  refine ⟨t, (c.exec_setter val s).trans ht, hrsp, ?_⟩
  rw [hdev, read_devStore_same _ (decide_eq_true c.reg_le) (State.devAt_wf hmem 2),
    readByte_config (by rw [h0]; rfl) hquiet (by decide) c.reg_le]

end Sys2Proof.Machine

/-! The signed-16 decoder (41_signed16_decoder.md), the bursts that fail or that answer headings, and the heading
commands (43_axis_sampling.md, 44_heading.md). -/

namespace Sys2Proof.Machine

/-! ### The decoder (R120 to R122) -/

/-- `decode16` is the two's complement reading. -/
theorem decode16_eq_toInt (u : Half) : decode16 u = u.toInt := by
  have h := u.isLt
  rw [decode16, BitVec.toInt_eq_toNat_cond]
  split <;> split <;> omega

/-- Settles O26: the laws are those of the two's complement reading. -/
theorem decode16Laws : Obligations.Decode16Laws := by
  refine ⟨decode16_range, fun u v h => ?_, fun x hlo hhi => ⟨BitVec.ofInt 16 x, ?_⟩, fun u h => ?_,
    fun u h => ?_, fun u => ?_⟩
  · rw [decode16_eq_toInt, decode16_eq_toInt] at h
    exact BitVec.eq_of_toInt_eq h
  · rw [decode16_eq_toInt]
    exact BitVec.toInt_ofInt_eq_self (by decide) hlo (by omega)
  · rw [decode16, if_neg (by omega)]
  · rw [decode16, if_pos h]
  · have hlt := u.isLt
    unfold decode16
    split <;> omega

/-- R121: in a 32-bit lane the decoded value is bit 15 repeated above the pattern. -/
theorem lane_decode16 (u : Half) :
    lane (decode16 u) = BitVec.ofNat 16 (if u.getLsbD 15 then 0xFFFF else 0) ++ u := by
  rw [decode16_eq_toInt, lane, ← BitVec.signExtend,
    BitVec.signExtend_eq_append_of_le (x := u) (v := 32) (by decide), BitVec.cast_eq,
    BitVec.msb_eq_getLsbD_last]
  split <;> rfl

/-- A command without transactions. -/
theorem exec_pure {s : State} (hidle : s.Idle) {i : Instr} {f : Lanes}
    (hplan : planOf s.cfg i = { lanes := fun _ _ => f }) :
    ∃ t, exec i s = .next t ∧ t.rsp = some ⟨.ok, s.inited, f⟩ ∧ s.KeepsAll t := by
  have hexec := exec_of_idle hidle i
  rw [hplan] at hexec
  exact ⟨_, hexec, rfl, ⟨rfl, rfl, rfl, rfl, rfl, rfl, rfl⟩, rfl, rfl, rfl, rfl⟩

/-- Settles O25: DEC16 is pure, and its lane is R120's formula, which `lane_decode16` reads as R121's. -/
theorem dec16SignExtends : Obligations.Dec16SignExtends := by
  intro s imm16 hidle
  obtain ⟨t, hexec, hrsp, hkeeps⟩ := exec_pure hidle (i := .dec16 imm16) rfl
  refine ⟨t, hexec, hrsp, ?_, hkeeps⟩
  rw [hrsp, lane_decode16]

/-- Settles O43: HEADING is pure; an operand is zero exactly when the number it stands for is. -/
theorem headingAnswersBothFormats : Obligations.HeadingAnswersBothFormats := by
  intro s a b hidle
  obtain ⟨t, hexec, hrsp, hkeeps⟩ := exec_pure hidle (i := .heading a b) rfl
  refine ⟨t, hexec, ?_, hkeeps⟩
  rw [hrsp, headingRad, headingCdeg]
  have hzero : (a.toInt = 0 ∧ b.toInt = 0) ↔ (a = 0#24 ∧ b = 0#24) := by
    rw [← BitVec.toInt_inj, ← BitVec.toInt_inj, BitVec.toInt_zero]
  simp only [hzero]
  split <;> rfl

/-! ### A burst that fails (R172, R217) -/

/-- Reads of mapped registers of which the `k`-th is the first to fail: it is the last one issued. -/
theorem runMicros_reads_fail (as : List Addr) {k : Nat} (hk : k < as.length) (s : State) (hbusy : s.busy = true)
    (hmapped : ∀ a ∈ as, mapped a = true) (h : s.Answered k) (hfail : (s.moment k).fail = true) :
    ∃ u, runMicros (as.map .read) s = (false, u) ∧
      u.trace = s.trace ++ readEvents (as.take k) (s.bytesRead (as.take k)) ++ [.read as[k] none] ∧
      u.dev = s.devAt (k + 1) ∧ u.env = s.env.drop (k + 1) := by
  have hlen : (as.take k).length = k := List.length_take_of_le hk.le
  obtain ⟨u, hrun, -, htrace, hdev, henv⟩ := runMicros_reads_ok (as.take k) s hbusy
    (fun a ha => hmapped a (List.mem_of_mem_take ha)) (by rwa [hlen])
  rw [hlen] at hdev henv
  have hcfg : u.cfg = s.cfg := (between_runMicros hrun).cfg
  have hmoment : (u.moment 0) = s.moment k := State.moment_of_env henv 0
  have hsplit : as = as.take k ++ as[k] :: as.drop (k + 1) := by
    rw [← List.drop_eq_getElem_cons hk, List.take_append_drop]
  refine ⟨u.afterMoment.log (.read as[k] none), ?_, ?_, ?_, ?_⟩
  · conv_lhs => rw [hsplit]
    rw [List.map_append, List.map_cons, runMicros_append, hrun, if_pos rfl, runMicros_cons,
      perform_read_fail (hmoment ▸ hfail)]
    rfl
  · rw [State.log_trace, State.afterMoment_trace, htrace]
  · rw [State.log_dev, State.afterMoment_dev, State.nextMoment_eq, hmoment, hdev, hcfg, State.devAt_succ]
  · rw [State.log_env, State.afterMoment_env, henv, List.tail_drop]

/-- Settles O42: both commands' list is the burst, and neither does anything before it. -/
theorem burstStopsAtTheFirstFailure : Obligations.BurstStopsAtTheFirstFailure := by
  intro s k i hi hidle hk h hfail
  obtain ⟨hmicros, hstart, hvalid⟩ : (planOf s.cfg i).micros = burstAddrs.map .read ∧
      (planOf s.cfg i).start = id ∧ (planOf s.cfg i).valid = true := by
    obtain rfl | rfl := hi <;> exact ⟨rfl, rfl, rfl⟩
  obtain ⟨u, hrun, htrace, hdev, henv⟩ :=
    runMicros_reads_fail burstAddrs hk (s.accept i) rfl (by decide) h hfail
  rw [← hmicros] at hrun
  obtain ⟨t, hexec, hrsp, httrace, hkeeps, htdev, htenv⟩ := exec_of_run_fail i hidle rfl hstart hvalid hrun
  rw [htrace] at httrace
  refine ⟨t, hexec, hrsp, ?_, ?_, hkeeps, ?_, htenv.trans henv⟩
  · have hk' : min k burstAddrs.length = k := Nat.min_eq_left hk.le
    simp [httrace, readEvents, State.bytesRead, hk']
  · rw [httrace, List.getLast?_concat, List.getD_eq_getElem _ _ hk]
  · rw [htdev, hdev, State.accept_devAt]

/-! ### GETVALUES (R195 to R197) -/

/-- Settles O48: GETVALUES is the burst with the lanes of R67. -/
theorem getvaluesReturnsSampleAndHeadings : Obligations.GetvaluesReturnsSampleAndHeadings := by
  intro s hidle h
  obtain ⟨t, hexec, hrsp, htrace, hkeeps, hdev, henv⟩ :=
    exec_burst_ok (i := .getvalues) (f := valuesLanes s.cfg) rfl hidle h
  exact ⟨t, _, _, _, _, _, _, _, hexec, rfl, rfl, rfl, rfl, rfl, rfl, rfl, hrsp, htrace, hkeeps, hdev, henv⟩

/-- A longer vector of the same direction has the same bounds (R191). -/
theorem octant_bounds_scale {k a b : Int} (hk : 0 < k) :
    (Heading.octant (k * a) (k * b)).thetaLo = (Heading.octant a b).thetaLo ∧
      (Heading.octant (k * a) (k * b)).centiLo = (Heading.octant a b).centiLo := by
  have hsign : ∀ y : Int, 0 ≤ k * y ↔ 0 ≤ y := fun y => mul_nonneg_iff_of_pos_left hk
  rw [Heading.octant_scale hk]
  simp only [Heading.Octant.thetaLo, Heading.Octant.centiLo, Heading.slope_scale hk, hsign, and_self]

/-- Settles O46: the residual of the longer vector has the same octant, sign and slope, so the same bounds. -/
theorem headingDependsOnDirectionOnly : Obligations.HeadingDependsOnDirectionOnly := by
  intro p k a b hk
  obtain ⟨htheta, hcenti⟩ := octant_bounds_scale (a := a) (b := b) hk
  have hzero : (k * a = 0 ∧ k * b = 0) ↔ (a = 0 ∧ b = 0) := by
    simp only [mul_eq_zero, hk.ne', false_or]
  simp only [headingRad, headingCdeg, Heading.radFloor, Heading.centiRound, hzero, htheta, hcenti, and_self]

/-- The scaled pair has the raw pair's heading: it is the raw pair times 92 (R174, R191). -/
theorem headingCdeg_scaled (p : Config.Params) (t : List Byte) (s : State) :
    headingCdeg p (sampleOf t s).sx (sampleOf t s).sy = headingCdeg p (sampleOf t s).x (sampleOf t s).y := by
  have h := (headingDependsOnDirectionOnly p Config.scaleNum (sampleOf t s).x (sampleOf t s).y (by decide)).2
  rwa [mul_comm, mul_comm Config.scaleNum] at h

/-- Settles O49: a failed response has no data; an answered one has the headings of one direction. -/
theorem getvaluesHeadingsAreEqual : Obligations.GetvaluesHeadingsAreEqual := by
  intro s t r h hr
  obtain ⟨-, ⟨-, rfl⟩ | ⟨-, -, rfl⟩ | ⟨-, -, rfl⟩⟩ := exec_cases h
  · cases hr; rfl
  · cases hr; rfl
  · cases hr
    exact congrArg lane (headingCdeg_scaled s.cfg _ _)

/-- Settles O50: both answer by `getvaluesReturnsSampleAndHeadings`, and the headings are computed from the
bytes of x and y and their offsets alone. -/
theorem headingIgnoresZ : Obligations.HeadingIgnoresZ := by
  intro s s' t t' r r' h h' hcfg hcalX hcalY hxh hxl hyh hyl hexec hexec' hr hr'
  obtain ⟨u, d0, d1, d2, d3, d4, d5, v, hu, rfl, rfl, -, -, rfl, rfl, rfl, hrsp, -⟩ :=
    getvaluesReturnsSampleAndHeadings s (exec_next_iff.1 hexec).1 h
  obtain ⟨u', d0', d1', d2', d3', d4', d5', v', hu', rfl, rfl, -, -, rfl, rfl, rfl, hrsp', -⟩ :=
    getvaluesReturnsSampleAndHeadings s' (exec_next_iff.1 hexec').1 h'
  obtain rfl : t = u := by simpa [hexec] using hu
  obtain rfl : t' = u' := by simpa [hexec'] using hu'
  obtain rfl : r = _ := Option.some.inj (hr.symm.trans hrsp)
  obtain rfl : r' = _ := Option.some.inj (hr'.symm.trans hrsp')
  simp only [axes, hcfg, hcalX, hcalY, hxh, hxl, hyh, hyl, and_self]

/-- A heading on a direction, at every length, from its value at one vector of it. -/
theorem heading_of_direction (p : Config.Params) {k a b q c : Int} (hk : 0 < k) (hne : ¬(a = 0 ∧ b = 0))
    (hq : Heading.radFloor a b = q) (hc : Heading.centiRound a b = c) :
    headingRad p (k * a) (k * b) = q ∧ headingCdeg p (k * a) (k * b) = c := by
  obtain ⟨hrad, hcdeg⟩ := headingDependsOnDirectionOnly p k a b hk
  rw [hrad, hcdeg, headingRad, headingCdeg, if_neg hne, if_neg hne]
  exact ⟨hq, hc⟩

/-- Settles O47: each direction at length 1, computed by the kernel, and `heading_of_direction`. -/
theorem headingAtTheExactDirections : Obligations.HeadingAtTheExactDirections := by
  intro p k hk
  have e0 := heading_of_direction p (a := 1) (b := 0) (q := 0) (c := 0) hk (by decide)
    (by decide +kernel) (by decide +kernel)
  have e1 := heading_of_direction p (a := 1) (b := 1) (q := 51471) (c := 4500) hk (by decide)
    (by decide +kernel) (by decide +kernel)
  have e2 := heading_of_direction p (a := 0) (b := 1) (q := 102943) (c := 9000) hk (by decide)
    (by decide +kernel) (by decide +kernel)
  have e3 := heading_of_direction p (a := -1) (b := 1) (q := 154415) (c := 13500) hk (by decide)
    (by decide +kernel) (by decide +kernel)
  have e4 := heading_of_direction p (a := -1) (b := 0) (q := 205887) (c := 18000) hk (by decide)
    (by decide +kernel) (by decide +kernel)
  have e5 := heading_of_direction p (a := -1) (b := -1) (q := 257359) (c := 22500) hk (by decide)
    (by decide +kernel) (by decide +kernel)
  have e6 := heading_of_direction p (a := 0) (b := -1) (q := 308831) (c := 27000) hk (by decide)
    (by decide +kernel) (by decide +kernel)
  have e7 := heading_of_direction p (a := 1) (b := -1) (q := 360302) (c := 31500) hk (by decide)
    (by decide +kernel) (by decide +kernel)
  simp only [mul_one, mul_zero, mul_neg] at e0 e1 e2 e3 e4 e5 e6 e7
  exact ⟨e0, e1, e2, e3, e4, e5, e6, e7⟩

end Sys2Proof.Machine

/-! The heading's integers against the exact angle (44_heading.md rules R186 to R189): the two ends of each
enclosure are close, and they give the ranges of the outputs. -/

namespace Sys2Proof.Machine

namespace Heading

/-! ### The rational bounds -/

/-- The tail of the series lies between 0 and its first term. -/
theorem arctanTail_bounds {w : ℚ} (h0 : 0 ≤ w) (h1 : w ≤ 1) (n : Nat) : ∀ j : Nat,
    0 ≤ arctanTail n j w ∧ arctanTail n j w ≤ 1 / ((2 * j + 1 : Nat) : ℚ) := by
  induction n with
  | zero => exact fun j => ⟨le_rfl, by rw [arctanTail]; positivity⟩
  | succ n ih =>
    intro j
    obtain ⟨hlo, hhi⟩ := ih (j + 1)
    have hstep : (1 : ℚ) / ((2 * (j + 1) + 1 : Nat) : ℚ) ≤ 1 / ((2 * j + 1 : Nat) : ℚ) :=
      one_div_le_one_div_of_le (by positivity) (by exact_mod_cast (by omega : 2 * j + 1 ≤ 2 * (j + 1) + 1))
    have hprod : w * arctanTail n (j + 1) w ≤ arctanTail n (j + 1) w := mul_le_of_le_one_left hlo h1
    rw [arctanTail]
    exact ⟨by linarith, by linarith [mul_nonneg h0 hlo]⟩

theorem arctanSum_bounds {v : ℚ} (h0 : 0 ≤ v) (h1 : v ≤ 1) (n : Nat) :
    0 ≤ arctanSum n v ∧ arctanSum n v ≤ v := by
  obtain ⟨hlo, hhi⟩ := arctanTail_bounds (mul_nonneg h0 h0) (mul_le_one₀ h1 h0 h1) n 0
  rw [Nat.mul_zero, Nat.zero_add, Nat.cast_one, div_one] at hhi
  exact ⟨mul_nonneg h0 hlo, mul_le_of_le_one_right h0 hhi⟩

/-- How far the two bounds of an arctangent are apart, for a slope of at most 1/2. -/
theorem arctan_width_le {v : ℚ} (h0 : 0 ≤ v) (h1 : v ≤ 1 / 2) :
    arctanHi v - arctanLo v ≤ (1 / 2) ^ 129 / 129 := by
  rw [arctan_width]
  gcongr

theorem quarter_width : quarterHi - quarterLo ≤ 2 * ((1 / 2) ^ 129 / 129) := by
  have h2 := arctan_width_le (v := 1 / 2) (by norm_num) le_rfl
  have h3 := arctan_width_le (v := 1 / 3) (by norm_num) (by norm_num)
  rw [quarterHi, quarterLo]
  linarith

theorem quarterLo_gt : 3 / 4 < quarterLo := by decide +kernel

theorem quarterLo_le_quarterHi : quarterLo ≤ quarterHi := by
  have h : ((quarterLo : ℚ) : ℝ) ≤ ((quarterHi : ℚ) : ℝ) := quarter_le.trans le_quarter
  exact_mod_cast h

/-- The width of a quotient of two narrow intervals, `[a, A]` over `[q, Q]`. -/
theorem ratio_width_le {A a q Q w : ℚ} (ha : a ≤ 1 / 2) (hq : 3 / 4 < q) (hqQ : q ≤ Q)
    (hA : A - a ≤ w) (hQ : Q - q ≤ 2 * w) : A / q - a / Q ≤ 8 * w := by
  have hq0 : 0 < q := by linarith
  have hQ0 : 0 < Q := by linarith
  have hw0 : 0 ≤ w := by linarith
  have hd := sub_nonneg.2 hqQ
  have hnum : A * Q - q * a ≤ w * Q + 1 / 2 * (2 * w) := by
    have e : A * Q - q * a = (A - a) * Q + a * (Q - q) := by ring
    rw [e]
    gcongr
  have hone : w * (3 / 4) ≤ w * Q := by
    gcongr
    linarith
  have hden : 8 * w * (3 / 4 * Q) ≤ 8 * w * (q * Q) := by gcongr
  rw [div_sub_div _ _ hq0.ne' hQ0.ne', div_le_iff₀ (mul_pos hq0 hQ0)]
  linarith

section

variable {o : Octant} (h : Residual o)

include h

theorem arctan_slope_bounds : 0 ≤ arctanLo o.slope ∧ arctanLo o.slope ≤ arctanHi o.slope ∧
    arctanHi o.slope ≤ 1 / 2 ∧ arctanHi o.slope - arctanLo o.slope ≤ (1 / 2) ^ 129 / 129 := by
  obtain ⟨s0, s1⟩ := slope_range o h
  obtain ⟨hlo, -⟩ := arctanSum_bounds s0 (by linarith) 64
  obtain ⟨-, hhi⟩ := arctanSum_bounds s0 (by linarith) 65
  have hw := arctan_width o.slope
  have : (0 : ℚ) ≤ o.slope ^ 129 / 129 := by positivity
  exact ⟨hlo, by linarith, hhi.trans s1, arctan_width_le s0 s1⟩

/-- The enclosure of the angle, in units of `rad_q`. -/
theorem theta_width : o.thetaHi * 65536 - o.thetaLo * 65536 < (1 / 2) ^ 100 := by
  obtain ⟨-, -, -, hw⟩ := arctan_slope_bounds h
  have hq := quarter_width
  have hk : (o.k : ℚ) ≤ 8 := by exact_mod_cast h.few
  have hkq : o.k * quarterHi - o.k * quarterLo ≤ 8 * (2 * ((1 / 2) ^ 129 / 129)) := by
    rw [← mul_sub]
    have := sub_nonneg.2 quarterLo_le_quarterHi
    gcongr
  have hsmall : (18 * ((1 / 2) ^ 129 / 129)) * 65536 < (1 / 2 : ℚ) ^ 100 := by norm_num
  unfold Octant.thetaHi Octant.thetaLo
  split <;> linarith

theorem arctan_ratio_width : arctanHi o.slope / quarterLo - arctanLo o.slope / quarterHi ≤
    8 * ((1 / 2) ^ 129 / 129) := by
  obtain ⟨-, hle, hhi, hw⟩ := arctan_slope_bounds h
  exact ratio_width_le (hle.trans hhi) quarterLo_gt quarterLo_le_quarterHi hw quarter_width

/-- The enclosure of the angle, in units of `cdeg`. -/
theorem centi_width : o.centiHi - o.centiLo < (1 / 2) ^ 100 := by
  have hw := arctan_ratio_width h
  have hsmall : 4500 * (8 * ((1 / 2) ^ 129 / 129)) < (1 / 2 : ℚ) ^ 100 := by norm_num
  unfold Octant.centiHi Octant.centiLo
  split <;> linarith

theorem thetaLo_nonneg : 0 ≤ o.thetaLo := by
  obtain ⟨hlo, -, hhi, -⟩ := arctan_slope_bounds h
  have hq := quarterLo_gt
  unfold Octant.thetaLo
  split
  · positivity
  · rename_i hb
    have hk : 1 ≤ o.k := Nat.one_le_iff_ne_zero.2 fun e => hb (h.start e)
    have hk' : (1 : ℚ) ≤ o.k := by exact_mod_cast hk
    nlinarith

theorem centiLo_nonneg : 0 ≤ o.centiLo := by
  obtain ⟨hlo, -, hhi, -⟩ := arctan_slope_bounds h
  have hq := quarterLo_gt
  have hq' : 0 ≤ quarterHi := by linarith [quarterLo_le_quarterHi]
  unfold Octant.centiLo
  split
  · have hk : (0 : ℚ) ≤ o.k := Nat.cast_nonneg _
    have hratio := div_nonneg hlo hq'
    linarith
  · rename_i hb
    have hk : 1 ≤ o.k := Nat.one_le_iff_ne_zero.2 fun e => hb (h.start e)
    have hk' : (1 : ℚ) ≤ o.k := by exact_mod_cast hk
    have hratio : arctanHi o.slope / quarterLo ≤ 1 := (div_le_one (by linarith)).2 (by linarith)
    linarith

end

/-! ### The brackets (R187, R188) -/

theorem cast_slack : (((1 / 2 : ℚ) ^ 100 : ℚ) : ℝ) = (1 / 2 : ℝ) ^ 100 := by
  simp only [Rat.cast_pow, Rat.cast_div, Rat.cast_one, Rat.cast_ofNat]

/-- The floor of the lower end of a narrow enclosure. -/
theorem floor_bracket {lo hi ε : ℚ} {x : ℝ} (hlo : (lo : ℝ) ≤ x) (hhi : x ≤ (hi : ℝ)) (hw : hi - lo < ε) :
    ((⌊lo⌋ : Int) : ℝ) ≤ x ∧ x < (⌊lo⌋ : Int) + 1 + (ε : ℝ) := by
  have hw' : (hi : ℝ) - lo < ε := by exact_mod_cast hw
  have hfl : ((⌊lo⌋ : Int) : ℝ) ≤ lo := by exact_mod_cast Int.floor_le lo
  have hlt : (lo : ℝ) < (⌊lo⌋ : Int) + 1 := by exact_mod_cast Int.lt_floor_add_one lo
  exact ⟨by linarith, by linarith⟩

/-- Where the two ends have one floor it is that of the number enclosed. -/
theorem floor_eq_of_ends {lo hi : ℚ} {x : ℝ} (hlo : (lo : ℝ) ≤ x) (hhi : x ≤ (hi : ℝ)) (h : ⌊hi⌋ = ⌊lo⌋) :
    ⌊lo⌋ = ⌊x⌋ := by
  apply le_antisymm
  · rw [← Rat.floor_cast (α := ℝ) lo]
    exact Int.floor_mono hlo
  · rw [← h, ← Rat.floor_cast (α := ℝ) hi]
    exact Int.floor_mono hhi

theorem theta_enclosed {a b : Int} (h : ¬(a = 0 ∧ b = 0)) :
    (((octant a b).thetaLo * 65536 : ℚ) : ℝ) ≤ theta a b * 65536 ∧
      theta a b * 65536 ≤ (((octant a b).thetaHi * 65536 : ℚ) : ℝ) := by
  push_cast
  exact ⟨mul_le_mul_of_nonneg_right (thetaLo_le h) (by norm_num),
    mul_le_mul_of_nonneg_right (le_thetaHi h) (by norm_num)⟩

theorem centi_enclosed {a b : Int} (h : ¬(a = 0 ∧ b = 0)) :
    (((octant a b).centiLo + 1 / 2 : ℚ) : ℝ) ≤ theta a b * 18000 / Real.pi + 1 / 2 ∧
      theta a b * 18000 / Real.pi + 1 / 2 ≤ (((octant a b).centiHi + 1 / 2 : ℚ) : ℝ) := by
  push_cast
  exact ⟨by linarith [centiLo_le h], by linarith [le_centiHi h]⟩

end Heading

open Heading in
/-- Settles O44: the exact angle lies in the enclosure, which is narrower than the slack, and the integers are
the floors of its lower ends. -/
theorem headingBracketsTheExactAngle : Obligations.HeadingBracketsTheExactAngle := by
  intro a b h
  have hr := octant_residual h
  obtain ⟨tlo, thi⟩ := theta_enclosed h
  obtain ⟨clo, chi⟩ := centi_enclosed h
  obtain ⟨t1, t2⟩ := floor_bracket tlo thi (theta_width hr)
  obtain ⟨c1, c2⟩ := floor_bracket clo chi ((add_sub_add_right_eq_sub _ _ _).trans_lt (centi_width hr))
  rw [cast_slack] at t2 c2
  rw [← centiRound] at c1 c2
  refine ⟨⟨t1, t2⟩, ⟨sub_le_iff_le_add.2 c1, by linarith⟩, fun hres => ?_⟩
  rw [resolved, Bool.and_eq_true, decide_eq_true_eq, decide_eq_true_eq] at hres
  exact ⟨floor_eq_of_ends tlo thi hres.1, floor_eq_of_ends clo chi hres.2⟩

/-! ### The ranges (R187 to R189) -/

theorem theta_lt_two_pi (a b : Int) : theta a b < 2 * Real.pi := by
  have hle : bearing a b ≤ Real.pi := Complex.arg_le_pi _
  have hpi := Real.pi_pos
  unfold theta
  split <;> linarith

/-- `2π · 65536` lies between 411774 and 411775. -/
theorem rad_turn_bounds : 411774 < 2 * Real.pi * 65536 ∧ 2 * Real.pi * 65536 < 411775 :=
  ⟨by linarith [Real.pi_gt_d6], by linarith [Real.pi_lt_d6]⟩

section

variable {a b : Int} (h : ¬(a = 0 ∧ b = 0))

include h

open Heading in
theorem radFloor_range : 0 ≤ radFloor a b ∧ radFloor a b ≤ 411774 := by
  have hlo := thetaLo_nonneg (octant_residual h)
  obtain ⟨⟨hle, -⟩, -⟩ := headingBracketsTheExactAngle a b h
  refine ⟨Int.floor_nonneg.2 (by positivity), Int.lt_add_one_iff.1 ?_⟩
  have hlt : (radFloor a b : ℝ) < 411775 := by linarith [theta_lt_two_pi a b, rad_turn_bounds.2]
  exact_mod_cast hlt

open Heading in
theorem centiRound_range : 0 ≤ centiRound a b ∧ centiRound a b ≤ 36000 := by
  have hlo := centiLo_nonneg (octant_residual h)
  obtain ⟨-, ⟨hle, -⟩, -⟩ := headingBracketsTheExactAngle a b h
  refine ⟨Int.floor_nonneg.2 (by positivity), Int.lt_add_one_iff.1 ?_⟩
  have hturn : theta a b * 18000 / Real.pi < 36000 := by
    rw [div_lt_iff₀ Real.pi_pos]
    linarith [theta_lt_two_pi a b]
  have hlt : (centiRound a b : ℝ) < 36001 := by linarith
  exact_mod_cast hlt

end

/-- The ends of the two intervals of angles with the record's images: each lower end lies below the other's
upper end, since π lies between its first 21 digits (R5). -/
theorem origin_intervals_meet {p : Config.Params} (hone : p.originOneAngle = true) :
    (p.originRad : ℝ) / 65536 < (2 * p.originCdeg + 1) * Real.pi / 36000 ∧
      (2 * (p.originCdeg : ℝ) - 1) * Real.pi / 36000 < (p.originRad + 1) / 65536 := by
  simp only [Config.Params.originOneAngle, Bool.and_eq_true, decide_eq_true_eq] at hone
  obtain ⟨hrad, hcdeg⟩ := hone
  have hrad' : (p.originRad : ℝ) * 36000 * 10 ^ 20 <
      (2 * p.originCdeg + 1) * 65536 * 314159265358979323846 := by exact_mod_cast hrad
  have hcdeg' : (2 * (p.originCdeg : ℝ) - 1) * 65536 * 314159265358979323847 <
      (p.originRad + 1) * 36000 * 10 ^ 20 := by exact_mod_cast hcdeg
  have hr0 : (0 : ℝ) ≤ p.originRad := Nat.cast_nonneg _
  have hc0 : (0 : ℝ) ≤ p.originCdeg := Nat.cast_nonneg _
  constructor
  · have hpi : (2 * (p.originCdeg : ℝ) + 1) * 3.14159265358979323846 ≤ (2 * p.originCdeg + 1) * Real.pi :=
      mul_le_mul_of_nonneg_left Real.pi_gt_d20.le (by linarith)
    linarith
  · rcases le_total (2 * (p.originCdeg : ℝ)) 1 with hneg | hpos
    · have hpi : (2 * (p.originCdeg : ℝ) - 1) * Real.pi ≤ 0 :=
        mul_nonpos_of_nonpos_of_nonneg (by linarith) Real.pi_pos.le
      linarith
    · have hpi : (2 * (p.originCdeg : ℝ) - 1) * Real.pi ≤ (2 * p.originCdeg - 1) * 3.14159265358979323847 :=
        mul_le_mul_of_nonneg_left Real.pi_lt_d20.le (by linarith)
      linarith

/-- The two images at the origin are those of one angle: the larger of the two lower ends. -/
theorem exists_origin_angle {p : Config.Params} (hrange : p.originInRange = true)
    (hone : p.originOneAngle = true) :
    ∃ θ : ℝ, 0 ≤ θ ∧ θ < 2 * Real.pi ∧ (p.originRad : Int) = ⌊θ * 65536⌋ ∧
      (p.originCdeg : Int) = ⌊θ * 18000 / Real.pi + 1 / 2⌋ := by
  simp only [Config.Params.originInRange, Bool.and_eq_true, decide_eq_true_eq] at hrange
  obtain ⟨hr, hc⟩ := hrange
  have hr' : (p.originRad : ℝ) ≤ 411774 := by exact_mod_cast hr
  have hc' : (p.originCdeg : ℝ) ≤ 36000 := by exact_mod_cast hc
  obtain ⟨radBelow, cdegBelow⟩ := origin_intervals_meet hone
  have hpi := Real.pi_pos
  have radTurn : (p.originRad : ℝ) / 65536 < 2 * Real.pi := by linarith [rad_turn_bounds.1]
  have cdegTurn : (2 * (p.originCdeg : ℝ) - 1) * Real.pi / 36000 < 2 * Real.pi := by
    have hle : (2 * (p.originCdeg : ℝ) - 1) * Real.pi ≤ 71999 * Real.pi :=
      mul_le_mul_of_nonneg_right (by linarith) hpi.le
    linarith
  have radLength : (p.originRad : ℝ) / 65536 < (p.originRad + 1) / 65536 := by linarith
  have cdegLength : (2 * (p.originCdeg : ℝ) - 1) * Real.pi / 36000 <
      (2 * p.originCdeg + 1) * Real.pi / 36000 := by linarith
  obtain ⟨θ, geRad, geCdeg, ltRad, ltCdeg, ltTurn⟩ : ∃ θ : ℝ, (p.originRad : ℝ) / 65536 ≤ θ ∧
      (2 * (p.originCdeg : ℝ) - 1) * Real.pi / 36000 ≤ θ ∧ θ < (p.originRad + 1) / 65536 ∧
      θ < (2 * p.originCdeg + 1) * Real.pi / 36000 ∧ θ < 2 * Real.pi :=
    ⟨max _ _, le_max_left _ _, le_max_right _ _, max_lt radLength cdegBelow, max_lt radBelow cdegLength,
      max_lt radTurn cdegTurn⟩
  refine ⟨θ, le_trans (by positivity) geRad, ltTurn, ?_, ?_⟩
  · rw [eq_comm, Int.floor_eq_iff]
    push_cast
    constructor <;> linarith
  · rw [eq_comm, Int.floor_eq_iff]
    push_cast
    rw [← sub_le_iff_le_add, ← lt_sub_iff_add_lt, le_div_iff₀ hpi, div_lt_iff₀ hpi]
    constructor <;> linarith

/-- Settles O45: off the origin the integers lie between 0 and those of a whole turn; at the origin they are the
record's images, in range and of one angle by rule R5. -/
theorem headingRanges : Obligations.HeadingRanges := by
  intro p a b hwf
  obtain ⟨hrange, hone⟩ : p.originInRange = true ∧ p.originOneAngle = true := by
    rw [Config.Params.wf, Bool.and_eq_true, Bool.and_eq_true] at hwf
    obtain ⟨⟨-, hrange⟩, hone⟩ := hwf
    exact ⟨hrange, hone⟩
  obtain ⟨θ, h0, h1, hrad, hcdeg⟩ := exists_origin_angle hrange hone
  suffices hranges : (0 ≤ headingRad p a b ∧ headingRad p a b ≤ 411774) ∧
      0 ≤ headingCdeg p a b ∧ headingCdeg p a b ≤ 36000 by
    obtain ⟨⟨r0, r1⟩, c0, c1⟩ := hranges
    exact ⟨r0, r1, c0, c1, θ, h0, h1, hrad, hcdeg⟩
  unfold headingRad headingCdeg
  split
  · simp only [Config.Params.originInRange, Bool.and_eq_true, decide_eq_true_eq] at hrange
    omega
  · exact ⟨radFloor_range ‹_›, centiRound_range ‹_›⟩

end Sys2Proof.Machine

/-! The bits of a response (30_encoding.md section 3). -/

namespace Sys2Proof.Machine

section

variable {m n len k : Nat} {a : BitVec m} {b : BitVec n} {x : BitVec len}

/-- A field that lies above the low part is a field of the high part. -/
theorem extractLsb'_above (h : a.extractLsb' k len = x) : (a ++ b).extractLsb' (k + n) len = x := by
  rw [BitVec.extractLsb'_append_eq_of_le (Nat.le_add_left n k), Nat.add_sub_cancel, h]

theorem getLsbD_above {v : Bool} (h : a.getLsbD k = v) : (a ++ b).getLsbD (k + n) = v := by
  rw [BitVec.getLsbD_append, if_neg (Nat.not_lt.2 (Nat.le_add_left n k)), Nat.add_sub_cancel, h]

end

/-- Settles O7: a response is a chain of appends; a lane lies above the lanes before it, the status above the
eight lanes and `inited` above the status, and each is the low end of what is then left. -/
theorem responseBitLayout : Obligations.ResponseBitLayout := by
  refine ⟨fun r => ?_, rfl, rfl, rfl, rfl⟩
  have low {w n : Nat} (x : BitVec w) (y : BitVec n) : (x ++ y).extractLsb' 0 n = y :=
    BitVec.extractLsb'_append_eq_right
  refine ⟨low _ _, ?_, ?_, ?_, ?_, ?_, ?_, ?_, ?_, ?_⟩
  · exact extractLsb'_above (low _ _)
  · iterate 2 refine extractLsb'_above ?_
    exact low _ _
  · iterate 3 refine extractLsb'_above ?_
    exact low _ _
  · iterate 4 refine extractLsb'_above ?_
    exact low _ _
  · iterate 5 refine extractLsb'_above ?_
    exact low _ _
  · iterate 6 refine extractLsb'_above ?_
    exact low _ _
  · iterate 7 refine extractLsb'_above ?_
    exact low _ _
  · iterate 8 refine extractLsb'_above ?_
    exact low _ _
  · iterate 9 refine getLsbD_above ?_
    cases r.inited <;> rfl

end Sys2Proof.Machine

/-! A transaction list seen as its events: the states it goes through when its transactions are answered, the
first failure, and what the configuration registers then hold. -/

namespace Sys2Proof.Machine

/-! ### One answered entry -/

/-- The state after an entry that completes. -/
def Micro.completed : Micro → State → State
  | .read a, s => readDone a s
  | .write a v, s => writeDone a (v s.temps) s
  | .wait t, s => waitFor t s

/-- The event of an entry that completes. -/
def Micro.event : Micro → State → Event
  | .read a, s => .read a (some (s.found a))
  | .write a v, s => .write a (v s.temps) true
  | .wait t, _ => .wait t

/-- The state after a list whose entries all complete. -/
def completedAll (ms : List Micro) (s : State) : State := ms.foldl (fun u m => m.completed u) s

/-- The events of a list whose entries all complete. -/
def events : List Micro → State → List Event
  | [], _ => []
  | m :: ms, s => m.event s :: events ms (m.completed s)

@[simp] theorem completedAll_nil (s : State) : completedAll [] s = s := rfl

@[simp] theorem completedAll_cons (m : Micro) (ms : List Micro) (s : State) :
    completedAll (m :: ms) s = completedAll ms (m.completed s) := rfl

theorem events_take (ms : List Micro) : ∀ (k : Nat) (s : State),
    events (ms.take k) s = (events ms s).take k := by
  induction ms with
  | nil => simp [events]
  | cons m ms ih =>
    intro k s
    cases k with
    | zero => rfl
    | succ k => simp [events, ih]

section

variable (m : Micro) (s : State)

@[simp] theorem Micro.completed_trace : (m.completed s).trace = s.trace ++ [m.event s] := by cases m <;> rfl
@[simp] theorem Micro.completed_env : (m.completed s).env = s.env.tail := by cases m <;> rfl
@[simp] theorem Micro.completed_cfg : (m.completed s).cfg = s.cfg := by cases m <;> rfl

@[simp] theorem Micro.completed_moment (k : Nat) : (m.completed s).moment k = s.moment (k + 1) := by
  rw [State.moment_of_env (s := s) (n := 1) (by simp), Nat.add_comm]

end

theorem perform_of_ok {m : Micro} {s : State} (h : (s.moment 0).fail = false) :
    m.perform s = (true, m.completed s) := by
  cases m with
  | read a => exact perform_read_ok h a
  | write a v => exact perform_write_ok h a v
  | wait t => rfl

theorem perform_of_fail {m : Micro} {s : State} (hm : m.isTransaction = true) (h : (s.moment 0).fail = true) :
    m.perform s = (false, s.afterMoment.log (m.event s).failed) := by
  cases m with
  | read a => exact perform_read_fail h a
  | write a v => exact perform_write_fail h a v
  | wait t => cases hm

/-! ### A list answered, and its first failure (R36, R211) -/

theorem completedAll_env (ms : List Micro) : ∀ s : State, (completedAll ms s).env = s.env.drop ms.length := by
  induction ms with
  | nil => exact fun _ => rfl
  | cons m ms ih => exact fun s => by simp [ih]

theorem completedAll_cfg (ms : List Micro) : ∀ s : State, (completedAll ms s).cfg = s.cfg := by
  induction ms with
  | nil => exact fun _ => rfl
  | cons m ms ih => exact fun s => by simp [ih]

theorem completedAll_trace (ms : List Micro) : ∀ s : State,
    (completedAll ms s).trace = s.trace ++ events ms s := by
  induction ms with
  | nil => exact fun s => (List.append_nil _).symm
  | cons m ms ih => exact fun s => by simp [ih, events]

theorem runMicros_of_answered (ms : List Micro) : ∀ s : State, s.Answered ms.length →
    runMicros ms s = (true, completedAll ms s) := by
  induction ms with
  | nil => exact fun _ _ => rfl
  | cons m ms ih =>
    intro s h
    rw [runMicros_cons, perform_of_ok (h 0 (by simp)), if_pos rfl, completedAll_cons]
    refine ih _ fun k hk => ?_
    rw [Micro.completed_moment]
    exact h (k + 1) (by simpa using hk)

/-- The list ends at its first failure: the events before it, that transaction's event as failed, and the
device as the environment leaves it after the completed ones. -/
theorem runMicros_first_failure (ms : List Micro) : ∀ (k : Nat) (s : State), k < ms.length →
    (∀ m ∈ ms.take (k + 1), m.isTransaction = true) → s.Answered k → (s.moment k).fail = true →
    ∃ u, runMicros ms s = (false, u) ∧
      u.trace = s.trace ++ ((events ms s).take k ++ (((events ms s).drop k).take 1).map Event.failed) ∧
      u.dev = (completedAll (ms.take k) s).afterMoment.dev ∧ u.env = s.env.drop (k + 1) := by
  induction ms with
  | nil => exact fun k s hk => absurd hk (Nat.not_lt_zero k)
  | cons m ms ih =>
    intro k s hk hms h hfail
    rw [List.take_succ_cons, List.forall_mem_cons] at hms
    cases k with
    | zero =>
      refine ⟨s.afterMoment.log (m.event s).failed, ?_, by simp [events], rfl, by simp⟩
      rw [runMicros_cons, perform_of_fail hms.1 hfail]
      rfl
    | succ k =>
      obtain ⟨u, hrun, htrace, hdev, henv⟩ := ih k (m.completed s) (by simpa using hk) hms.2
        (fun j hj => by rw [Micro.completed_moment]; exact h (j + 1) (by omega)) (by simpa using hfail)
      refine ⟨u, ?_, by simp [htrace, events], by simp [hdev], by simp [henv]⟩
      rw [runMicros_cons, perform_of_ok (h 0 (Nat.succ_pos k)), if_pos rfl]
      exact hrun

/-! ### The configuration registers when only the block writes them -/

/-- What a register that held `b` holds after the completed writes among the events. -/
def lastWrite (x : Nat) : List Event → Byte → Byte
  | .write a v true :: es, b => lastWrite x es (if x = a.toNat then v else b)
  | _ :: es, b => lastWrite x es b
  | [], b => b

theorem completed_wf (m : Micro) {s : State} (h : Memory.wf s.dev = true) :
    Memory.wf (m.completed s).dev = true := by
  cases m with
  | write a v => exact devStore_wf _ _ (applyActs_wf _ _ h)
  | _ => exact applyActs_wf _ _ h

theorem read_completed {m : Micro} {s : State} (hwf : Memory.wf s.dev = true)
    (hw : ∀ y ∈ (s.moment 0).acts, y.leavesConfiguration = true) {x : Nat} (hx : x ≤ 2) :
    Memory.read (m.completed s).dev x = lastWrite x [m.event s] (Memory.read s.dev x) := by
  have hacts : Memory.read s.afterMoment.dev x = Memory.read s.dev x := by
    rw [State.afterMoment_dev, State.nextMoment_eq]
    exact read_applyActs_config _ _ hw hx _
  cases m with
  | write a v =>
    have hwf' : Memory.wf s.afterMoment.dev = true := applyActs_wf _ _ hwf
    rw [Micro.completed, writeDone_dev, read_devStore _ _ hwf', hacts]
    simp [Micro.event, lastWrite, hx]
  | _ => exact hacts

theorem lastWrite_cons (x : Nat) (e : Event) (es : List Event) (b : Byte) :
    lastWrite x (e :: es) b = lastWrite x es (lastWrite x [e] b) := by
  cases e with
  | write a v done => cases done <;> rfl
  | _ => rfl

theorem read_completedAll {x : Nat} (hx : x ≤ 2) (ms : List Micro) : ∀ s : State, Memory.wf s.dev = true →
    s.NoOtherWriter ms.length →
    Memory.read (completedAll ms s).dev x = lastWrite x (events ms s) (Memory.read s.dev x) := by
  induction ms with
  | nil => exact fun _ _ _ => rfl
  | cons m ms ih =>
    intro s hwf hw
    have hfirst := read_completed (m := m) hwf (hw 0 (by simp)) hx
    rw [completedAll_cons, ih _ (completed_wf m hwf) fun k hk => ?_, hfirst, events, ← lastWrite_cons]
    rw [Micro.completed_moment]
    exact hw (k + 1) (by simpa using hk)

end Sys2Proof.Machine

/-! INIT (42_driver_config.md section 2): its five transactions and the wait, how it ends, and which samples may
be trusted after it (70_reset_and_hazards.md R245). -/

namespace Sys2Proof.Machine

/-! ### The protocol (R131) -/

/-- INIT's list without the wait. -/
def initTransactions (p : Config.Params) : List Micro := (initPlan p).micros.take 5

theorem initTransactions_isTransaction (p : Config.Params) :
    ∀ m ∈ initTransactions p, m.isTransaction = true := by
  simp [initTransactions, initPlan, Micro.isTransaction]

@[simp] theorem startState_moment (i : Instr) (s : State) (k : Nat) :
    (startState i s).moment k = s.moment k := by
  rw [State.moment_of_env (s := s) (n := 0) (startState_env i s), Nat.zero_add]

namespace State

variable (s : State)

/-- The device after INIT's first write, what its read of ConfigB finds, and the device after its second. -/
def initDev1 : Memory := devStore Config.aConfigA (initCfgA s.cfg) (s.devAt 1)

def initGain : Byte := (s.moment 1).data.getD
  (Memory.read (applyActs s.cfg (s.moment 1).acts s.initDev1) Config.aConfigB.toNat)

def initDev2 : Memory :=
  devStore Config.aConfigB
    (mergeField s.cfg.fGain.highBit s.cfg.fGain.length s.initGain Config.gainDefault)
    (applyActs s.cfg (s.moment 2).acts (applyActs s.cfg (s.moment 1).acts s.initDev1))

/-- What INIT's read of Mode finds, and the device after its third write. -/
def initMode : Byte := (s.moment 3).data.getD
  (Memory.read (applyActs s.cfg (s.moment 3).acts s.initDev2) Config.aMode.toNat)

def initDev3 : Memory :=
  devStore Config.aMode
    (mergeField s.cfg.fMode.highBit s.cfg.fMode.length s.initMode s.cfg.modeContinuous)
    (applyActs s.cfg (s.moment 4).acts (applyActs s.cfg (s.moment 3).acts s.initDev2))

end State

theorem State.found_of_mapped {a : Addr} (ha : mapped a = true) (s : State) :
    s.found a = (s.moment 0).data.getD (Memory.read s.afterMoment.dev a.toNat) := by
  rw [found, if_pos ha]

/-- INIT's transactions when all are answered: each write's byte is computed from the byte just read. -/
theorem init_events_dev (s : State) :
    events (initTransactions s.cfg) (startState .init s) = initEvents s.cfg s.initGain s.initMode ∧
      (completedAll (initTransactions s.cfg) (startState .init s)).dev = s.initDev3 := by
  have hB : mapped Config.aConfigB = true := rfl
  have hM : mapped Config.aMode = true := rfl
  simp [initTransactions, initPlan, events, initEvents, Micro.event, Micro.completed, readDone_temps,
    State.found_of_mapped hB, State.found_of_mapped hM, State.initGain, State.initMode, State.initDev3,
    State.initDev2, State.initDev1, State.devAt, State.nextMoment_eq]

theorem State.Answered.startState {s : State} {n : Nat} (h : s.Answered n) (i : Instr) :
    (startState i s).Answered n :=
  fun k hk => by
    rw [startState_moment]
    exact h k hk

theorem init_micros (p : Config.Params) :
    (planOf p .init).micros = initTransactions p ++ [.wait Config.warmupTenths] := rfl

section

variable {s u : State} (hidle : s.Idle)

include hidle

theorem exec_init_of_run_ok (hrun : runMicros (planOf s.cfg .init).micros (startState .init s) = (true, u)) :
    exec .init s = .next (u.setInited.respond .ok {}) :=
  (exec_of_idle hidle .init).trans (congrArg _ (Plan.run_of_ok (startState_seq .init s) rfl hrun))

theorem exec_init_of_run_fail (hrun : runMicros (planOf s.cfg .init).micros (startState .init s) = (false, u)) :
    exec .init s = .next (u.failWith .transportError) :=
  (exec_of_idle hidle .init).trans (congrArg _ (Plan.run_of_fail (startState_seq .init s) rfl hrun))

end

/-- How INIT ends when its five transactions are answered, the wait following. -/
theorem exec_init_answered {s : State} (hidle : s.Idle) (h : s.Answered 5) :
    ∃ t, exec .init s = .next t ∧
      t.dev = (completedAll (initTransactions s.cfg) (startState .init s)).afterMoment.dev ∧
      t.trace = initEvents s.cfg s.initGain s.initMode ++ [.wait 7] ∧
      t.rsp = some ⟨.ok, true, {}⟩ ∧ t.inited = true ∧ t.inflight = none ∧
      t.calX = s.calX ∧ t.calY = s.calY ∧ t.calZ = s.calZ ∧ t.cfg = s.cfg ∧ t.host = s.host ∧
      t.env = s.env.drop 6 := by
  set v := completedAll (initTransactions s.cfg) (startState .init s) with hv
  have hrun5 : runMicros (initTransactions s.cfg) (startState .init s) = (true, v) :=
    runMicros_of_answered _ _ (h.startState .init)
  have hrun : runMicros (planOf s.cfg .init).micros (startState .init s) =
      (true, waitFor Config.warmupTenths v) := by
    rw [init_micros, runMicros_append, hrun5]
    rfl
  obtain ⟨hx, hy, hz, -, -, -, hhost, hcfg⟩ := between_runMicros hrun5
  have henv : v.env = s.env.drop 5 := by
    rw [hv, completedAll_env, startState_env]
    rfl
  have htrace : v.trace = initEvents s.cfg s.initGain s.initMode := by
    rw [hv, completedAll_trace, startState_trace, List.nil_append, (init_events_dev s).1]
  refine ⟨_, exec_init_of_run_ok hidle hrun, rfl, ?_, rfl, rfl, rfl, ?_⟩
  · simp [htrace, Config.warmupTenths]
  · simp [hx, hy, hz, hcfg, hhost, henv]

/-- The device after INIT's wait, in which the environment acts once more. -/
theorem init_wait_dev (s : State) :
    (completedAll (initTransactions s.cfg) (startState .init s)).afterMoment.dev =
      applyActs s.cfg (s.moment 5).acts s.initDev3 := by
  have henv : (completedAll (initTransactions s.cfg) (startState .init s)).env = s.env.drop 5 := by
    rw [completedAll_env, startState_env]
    rfl
  rw [State.afterMoment_dev, State.nextMoment_eq, State.moment_of_env henv, completedAll_cfg, startState_cfg,
    (init_events_dev s).2]

/-- Settles O27: the list is INIT's transactions and the wait, and `init_events_dev` computes its events. -/
theorem initRunsTheProtocol : Obligations.InitRunsTheProtocol := by
  intro s hidle h
  obtain ⟨t, hexec, hdev, hrest⟩ := exec_init_answered hidle h
  rw [init_wait_dev] at hdev
  exact ⟨t, s.initGain, s.initMode, s.initDev1, s.initDev2, s.initDev3, hexec, rfl, rfl, rfl, rfl, rfl,
    hdev, hrest⟩

/-! ### The registers INIT leaves, with no other master writing (R136, R137) -/

theorem initGain_eq {s : State} (hw : s.NoOtherWriter 2) :
    s.initGain = (s.moment 1).data.getD (Memory.read s.dev 0x01) := by
  rw [State.initGain, read_applyActs_config _ _ (hw 1 (by decide)) (by decide), State.initDev1,
    read_devStore_ne _ _ _ (by decide), State.read_devAt_config hw (by decide) 1 (by decide)]
  rfl

/-- The configuration registers after INIT's first `k` transactions and the moment that follows. -/
theorem read_after_init_transactions {s : State} {k x : Nat} (hk : k ≤ 5) (hw : s.NoOtherWriter (k + 1))
    (hwf : Memory.wf s.dev = true) (hx : x ≤ 2) :
    Memory.read (completedAll ((initTransactions s.cfg).take k) (startState .init s)).afterMoment.dev x =
      lastWrite x ((initEvents s.cfg s.initGain s.initMode).take k) (Memory.read s.dev x) := by
  have hlen : ((initTransactions s.cfg).take k).length = k := List.length_take_of_le hk
  have hw' : ∀ n, n ≤ k + 1 → (startState .init s).NoOtherWriter n := fun n hn j hj => by
    rw [startState_moment]
    exact hw j (by omega)
  have hlast : ∀ y ∈ ((completedAll ((initTransactions s.cfg).take k) (startState .init s)).moment 0).acts,
      y.leavesConfiguration = true := by
    rw [State.moment_of_env (completedAll_env _ _), hlen, startState_moment]
    exact hw k (Nat.lt_succ_self k)
  rw [State.afterMoment_dev, State.nextMoment_eq, read_applyActs_config _ _ hlast hx,
    read_completedAll hx _ _ (by rwa [startState_dev]) (hw' _ (by omega)), events_take, (init_events_dev s).1,
    startState_dev]

/-- No event of INIT's transactions is the wait, completed or failed. -/
theorem init_record_no_wait {p : Config.Params} {g m : Byte} {k : Nat} {e : Event}
    (he : e ∈ (initEvents p g m).take k ++ (((initEvents p g m).drop k).take 1).map Event.failed) :
    e ≠ .wait 7 := by
  have hno : ∀ e ∈ initEvents p g m, e ≠ .wait 7 ∧ e.failed ≠ .wait 7 := by simp [initEvents, Event.failed]
  rw [List.mem_append, List.mem_map] at he
  obtain he | ⟨e, he, rfl⟩ := he
  · exact (hno e (List.mem_of_mem_take he)).1
  · exact (hno e (List.mem_of_mem_drop (List.mem_of_mem_take he))).2

/-- Settles O31: the list ends at its first failure, and the device is the one the completed writes leave. -/
theorem initStopsAtTheFirstFailure : Obligations.InitStopsAtTheFirstFailure := by
  intro s k hidle hk h hfail
  have hlen : (initTransactions s.cfg).length = 5 := rfl
  obtain ⟨u, hrun, htrace, hdev, henv⟩ :=
    runMicros_first_failure (initTransactions s.cfg) k (startState .init s) hk (fun m hm => initTransactions_isTransaction s.cfg m (List.mem_of_mem_take hm))
    (h.startState .init) (by rwa [startState_moment])
  rw [startState_trace, List.nil_append, (init_events_dev s).1] at htrace
  rw [startState_env] at henv
  have hrun' : runMicros (planOf s.cfg .init).micros (startState .init s) = (false, u) := by
    rw [init_micros, runMicros_append, hrun]
    rfl
  obtain ⟨hx, hy, hz, hinited, -, -, hhost, hcfg⟩ := between_runMicros hrun
  have hinited' : u.inited = false := hinited.trans (startState_inited .init s)
  refine ⟨_, s.initGain, s.initMode, s.initDev1, s.initDev2,
    exec_init_of_run_fail hidle hrun',
    rfl, rfl, rfl, rfl, htrace, ?_, ?_, ?_, hinited', rfl, hx, hy, hz, hcfg, hhost, henv, fun hw hwf => ?_⟩
  · rw [State.failWith_trace, htrace]
    simp [initEvents]
    omega
  · rw [State.failWith_trace, htrace]
    exact fun e he => init_record_no_wait he
  · rw [State.failWith_rsp, hinited']
  · have hread : ∀ x ≤ 2, Memory.read (u.failWith .transportError).dev x =
        lastWrite x ((initEvents s.cfg s.initGain s.initMode).take k) (Memory.read s.dev x) := fun x hx => by
      rw [State.failWith_dev, hdev]
      exact read_after_init_transactions hk.le (fun j hj => hw j (by omega)) hwf hx
    rw [hread 0 (by decide), hread 1 (by decide), hread 2 (by decide), initGain_eq fun j hj => hw j (by omega)]
    interval_cases k <;> exact ⟨rfl, rfl, rfl⟩

/-! ### The registers after a successful INIT (R137) -/

theorem initMode_eq {s : State} (hw : s.NoOtherWriter 4) :
    s.initMode = (s.moment 3).data.getD (Memory.read s.dev 0x02) := by
  have hacts : ∀ j < 4, ∀ d, Memory.read (applyActs s.cfg (s.moment j).acts d) 0x02 = Memory.read d 0x02 :=
    fun j hj d => read_applyActs_config _ _ (hw j hj) (by decide) d
  rw [State.initMode]
  change (s.moment 3).data.getD (Memory.read _ 0x02) = _
  rw [hacts 3 (by decide), State.initDev2, read_devStore_ne _ _ _ (by decide), hacts 2 (by decide),
    hacts 1 (by decide), State.initDev1, read_devStore_ne _ _ _ (by decide),
    State.read_devAt_config hw (by decide) 1 (by decide)]

theorem init_registers {s t : State} (hexec : exec .init s = .next t) (h : s.Answered 5) (hw : s.NoOtherWriter 6)
    (hwf : Memory.wf s.dev = true) :
    Memory.read t.dev 0x00 = initCfgA s.cfg ∧
    Memory.read t.dev 0x01 = mergeField s.cfg.fGain.highBit s.cfg.fGain.length s.initGain Config.gainDefault ∧
    Memory.read t.dev 0x02 =
      mergeField s.cfg.fMode.highBit s.cfg.fMode.length s.initMode s.cfg.modeContinuous := by
  obtain ⟨t', hexec', hdev, -⟩ := exec_init_answered (exec_next_iff.1 hexec).1 h
  obtain rfl : t = t' := by simpa [hexec] using hexec'
  have hread : ∀ x ≤ 2, Memory.read t.dev x =
      lastWrite x (initEvents s.cfg s.initGain s.initMode) (Memory.read s.dev x) := fun x hx => by
    rw [hdev]
    exact read_after_init_transactions (k := 5) le_rfl hw hwf hx
  rw [hread 0 (by decide), hread 1 (by decide), hread 2 (by decide)]
  exact ⟨rfl, rfl, rfl⟩

/-- Settles O29 -/
theorem initEndState : Obligations.InitEndState := by
  intro s hidle hcfg hwf href hw
  obtain ⟨-, -, -, hgain⟩ := (codes_of_wf hcfg).1
  obtain ⟨hmode, -⟩ := (codes_of_wf hcfg).2
  have h : s.Answered 5 := fun k hk => (href k hk).1
  obtain ⟨t, hexec, -, -, -, hinited, -, hx, hy, hz, -⟩ := exec_init_answered hidle h
  obtain ⟨r0, r1, r2⟩ := init_registers hexec h hw hwf
  rw [initGain_eq fun j hj => hw j (by omega), (href 1 (by decide)).2,
    mergeField_of_fits (f := s.cfg.fGain) (ConfigItem.validField_field .gain hcfg) hgain] at r1
  rw [initMode_eq fun j hj => hw j (by omega), (href 3 (by decide)).2,
    mergeField_of_fits (f := s.cfg.fMode) (ConfigItem.validField_field .mode hcfg) hmode] at r2
  exact ⟨t, hexec, r0, r1, r2, hinited, hx, hy, hz⟩

end Sys2Proof.Machine

/-! Which samples may be trusted (70_reset_and_hazards.md R245): INIT makes a run trusted, and what every trusted
run has. -/

namespace Sys2Proof.Machine

/-! ### What every step keeps -/

theorem step_idle_cfg {s t : State} (h : step s = .next t) : t.inflight = none ∧ t.cfg = s.cfg := by
  obtain ⟨f, -, rfl⟩ | ⟨hidle, -, rfl⟩ | ⟨rest, hidle, hhost, -⟩ | ⟨_, _, _, -, -, -, rfl⟩ |
    ⟨_, _, i, -, -, -, he⟩ := step_cases h
  · obtain ⟨hidle, -, hcfg, -⟩ := plan_run_keeps s.cfg f.cmd s
    exact ⟨hidle, hcfg⟩
  · exact ⟨hidle, rfl⟩
  · rw [step_of_reset hidle hhost] at h
    cases h
    exact ⟨hidle, rfl⟩
  · exact ⟨rfl, rfl⟩
  · obtain ⟨-, hcfg, hidle, -⟩ := commandsLeaveHostAndConfiguration i _ t he
    exact ⟨hidle, hcfg⟩

/-- The step of an idle block that runs a command runs it whole, the word taken off the host's list. -/
theorem step_of_runs {s : State} {i : Instr} (hidle : s.Idle) (h : s.Runs i) :
    ∃ rest, step s = exec i (s.withHost rest) := by
  obtain ⟨w, rest, hhost, hd⟩ := (State.runs_iff_of_idle hidle).1 h
  exact ⟨rest, stepRunsTheDecodedCommand s w rest i hidle hhost hd⟩

theorem State.answered_or_first_failure (s : State) (n : Nat) :
    s.Answered n ∨ ∃ k < n, s.Answered k ∧ (s.moment k).fail = true := by
  induction n with
  | zero => exact .inl nofun
  | succ n ih =>
    obtain h | ⟨k, hk, hrest⟩ := ih
    · cases hf : (s.moment n).fail with
      | true => exact .inr ⟨n, Nat.lt_succ_self n, h, hf⟩
      | false =>
        refine .inl fun k hk => ?_
        obtain hk | rfl := Nat.lt_succ_iff_lt_or_eq.1 hk
        · exact h k hk
        · exact hf
    · exact .inr ⟨k, Nat.lt_succ_of_lt hk, hrest⟩

/-- An INIT that answers `OK` has had its five transactions answered. -/
theorem answered_of_init_ok {s t : State} (hexec : exec .init s = .next t)
    (hok : t.rsp.map Response.status = some .ok) : s.Answered 5 := by
  obtain h | ⟨k, hk, h, hfail⟩ := s.answered_or_first_failure 5
  · exact h
  · obtain ⟨t', _, _, _, _, hexec', -, -, -, -, -, -, -, hrsp, -⟩ :=
      initStopsAtTheFirstFailure s k (exec_next_iff.1 hexec).1 hk h hfail
    obtain rfl : t = t' := by simpa [hexec] using hexec'
    simp [hrsp] at hok

theorem defaultSettings_of_init {s t : State} (hinv : Inv s) (hexec : exec .init s = .next t) (h : s.Answered 5)
    (hw : s.NoOtherWriter 6) : t.inited = true ∧ DefaultSettings t := by
  obtain ⟨-, -, -, hgain⟩ := (codes_of_wf hinv.configured).1
  obtain ⟨hmode, -⟩ := (codes_of_wf hinv.configured).2
  obtain ⟨t', hexec', -, -, -, hinited, -, -, -, -, hcfg, -⟩ := exec_init_answered hinv.idle h
  obtain rfl : t = t' := by simpa [hexec] using hexec'
  obtain ⟨r0, r1, r2⟩ := init_registers hexec h hw hinv.canonical
  rw [DefaultSettings, hcfg]
  refine ⟨hinited, r0, ?_, ?_⟩
  · change readField _ _ (Memory.read t.dev 0x01) = _
    rw [r1, readField_mergeField_of_fits (f := s.cfg.fGain) (ConfigItem.validField_field .gain hinv.configured)
      hgain]
  · change operatingMode _ (Memory.read t.dev 0x02) = _
    rw [r2, operatingMode_mergeField_of_fits hinv.configured _ hmode, modeOfCode, if_pos rfl]

theorem Inv.withHost {s : State} (h : Inv s) (rest : List HostInput) : Inv (s.withHost rest) :=
  ⟨h.idle, h.canonical, h.mappedOnly, h.noData, h.bounded, h.configured⟩

/-- The settings depend on the configuration record and the three registers. -/
theorem DefaultSettings.of_configuration_eq {s t : State} (h : DefaultSettings s) (hcfg : t.cfg = s.cfg)
    (hconf : configuration t = configuration s) : DefaultSettings t := by
  rw [configuration, configuration, Prod.mk.injEq, Prod.mk.injEq] at hconf
  obtain ⟨hA, hB, hM⟩ := hconf
  rwa [DefaultSettings, hcfg, hA, hB, hM]

/-- What every trusted run has, by induction on the steps since its INIT. -/
theorem SampleTrusted.settings {run : List State} (h : SampleTrusted run) :
    ∃ s past, run = s :: past ∧ s.Idle ∧ s.inited = true ∧ DefaultSettings s := by
  induction h with
  | @init s t past hinv hruns hstep hok hw =>
    obtain ⟨rest, he⟩ := step_of_runs hinv.idle hruns
    rw [he] at hstep
    have h := answered_of_init_ok hstep hok
    obtain ⟨hinited, hset⟩ := defaultSettings_of_init (hinv.withHost rest) hstep h hw
    obtain ⟨-, -, hidle, -⟩ := commandsLeaveHostAndConfiguration _ _ t hstep
    exact ⟨t, _, rfl, hidle, hinited, hset⟩
  | @later s t past n _ hstep _ _ hsame hinited ih =>
    obtain ⟨s', past', heq, -, -, hset⟩ := ih
    cases heq
    obtain ⟨hidle, hcfg⟩ := step_idle_cfg hstep
    exact ⟨t, _, rfl, hidle, hinited, hset.of_configuration_eq hcfg hsame⟩

/-! ### A command that only reads -/

/-- A command uses at most six moments. -/
theorem exec_env {i : Instr} {s t : State} (h : exec i s = .next t) : ∃ n ≤ 6, t.env = s.env.drop n := by
  obtain ⟨n, hn, henv⟩ := runMicros_env (planOf s.cfg i).micros (startState i s)
  rw [startState_env] at henv
  replace hn := hn.trans (plan_length s.cfg i)
  obtain ⟨-, ⟨-, rfl⟩ | ⟨-, -, rfl⟩ | ⟨-, -, rfl⟩⟩ := exec_cases h
  · exact ⟨0, Nat.zero_le 6, startState_env i s⟩
  · exact ⟨n, hn, henv⟩
  · obtain ⟨-, -, -, -, fenv, -⟩ := plan_finish s.cfg i (runMicros (planOf s.cfg i).micros (startState i s)).2
    exact ⟨n, hn, fenv.trans henv⟩

theorem exec_readOnly_configuration {i : Instr} {s t : State} (h : exec i s = .next t) (hro : readOnly i = true)
    (hw : s.NoOtherWriter 6) : configuration t = configuration s := by
  have hread : ∀ x ≤ 2, Memory.read t.dev x = Memory.read s.dev x := fun x hx =>
    exec_dev_of_moments (P := fun d => Memory.read d x = Memory.read s.dev x) h
      (fun k hk d hd => (read_applyActs_config _ _ (hw k hk) hx d).trans hd)
      (fun a ha => by rw [readOnly, List.isEmpty_iff] at hro; rw [hro] at ha; cases ha) rfl
  rw [configuration, configuration, hread _ (by decide), hread _ (by decide), hread _ (by decide)]

theorem exec_inited_of_ne_init {i : Instr} {s t : State} (h : exec i s = .next t) (hi : i ≠ .init) :
    t.inited = s.inited := by
  obtain ⟨-, rfl⟩ := exec_next_iff.1 h
  obtain ⟨-, -, -, hinited, -⟩ := plan_run_keeps s.cfg i (startState i s)
  exact (hinited.resolve_right hi).trans ((startState_inited i s).trans (if_neg hi))

/-- Settles O30: (1) the step runs INIT, which answers `OK`; (2) is `SampleTrusted.settings`; (3) a command that
only reads uses at most six moments, leaves the configuration registers, and is no INIT; (4) a trusted run ends in
an INIT or goes on from a trusted one. -/
theorem initMakesSamplesTrusted : Obligations.InitMakesSamplesTrusted := by
  refine ⟨fun s past hinv hruns h hw => ?_, fun s past h => ?_, fun s past i htrust hruns hro hw => ?_,
    fun s t past h hno => ?_⟩
  · obtain ⟨rest, he⟩ := step_of_runs hinv.idle hruns
    obtain ⟨t, hexec, -, -, hrsp, -⟩ := exec_init_answered (s := s.withHost rest) hinv.idle h
    have hstep := he.trans hexec
    exact ⟨t, hstep, .init hinv hruns hstep (by rw [hrsp]; rfl) hw⟩
  · obtain ⟨s', past', heq, -, hinited, hset⟩ := h.settings
    cases heq
    exact ⟨hinited, hset⟩
  · obtain ⟨s', past', heq, hidle, hinited, -⟩ := htrust.settings
    cases heq
    obtain ⟨rest, he⟩ := step_of_runs hidle hruns
    have hexec := exec_of_idle (s := s.withHost rest) hidle i
    have hstep := he.trans hexec
    obtain ⟨n, hn, henv⟩ := exec_env hexec
    have hne : i ≠ .init := fun e => by simp [e, readOnly, writeAddrs] at hro
    have hsame := exec_readOnly_configuration (s := s.withHost rest) hexec hro hw
    exact ⟨_, hstep, htrust.later hstep henv (fun k hk => hw k (by omega)) hsame
      ((exec_inited_of_ne_init hexec hne).trans hinited)⟩
  · cases h with
    | init _ hruns => exact absurd hruns hno
    | later htrust _ _ _ hsame => exact ⟨htrust, hsame⟩

end Sys2Proof.Machine
